-- ==== Sys2Proof/Word.lean ====
section
/-! DEFINITION. The machine's word types (spec 00_scope.md R8, R9; 20_memory.md R80). -/

namespace Sys2Proof

/-- A 32-bit value: a general register, `pc`, an address, a CSR or an instruction (R9, D16). -/
abbrev Word := BitVec 32

/-- The smallest addressable unit of memory (R80). -/
abbrev Byte := BitVec 8

/-- A register number, as it stands in the `rd`, `rs1` and `rs2` fields (R128). -/
abbrev RegNum := BitVec 5

/-- A CSR address (R40). -/
abbrev CsrNum := BitVec 12

end Sys2Proof
end

