-- ==== Sys2Proof/Config.lean ====
section
/-! DEFINITION. What an implementation fixes (spec 00_scope.md R7; 92_eei_decisions.md) and the free
values: opaque constants without a body, about which nothing can be proved. -/

namespace Sys2Proof

/-- The privilege modes, user, supervisor and machine (10_state.md R35). -/
inductive Mode where
  | user
  | supervisor
  | machine
deriving DecidableEq, Repr

/-- Which byte of a multi-byte access lies lowest (20_memory.md R85, parameter `BYTE_ORDER`). -/
inductive ByteOrder where
  /-- the lowest address holds the least significant byte -/
  | little
  /-- the lowest address holds the most significant byte -/
  | big
deriving DecidableEq, Repr

/-- Who reports a jump target that is not a multiple of 4 (92_eei_decisions.md D8, parameter
`MISALIGNED_FETCH_REPORT`). -/
inductive MisalignedReport where
  /-- the fetch at the target: the jump completes -/
  | atFetch
  /-- the jump itself, which then writes no link register -/
  | atJump
deriving DecidableEq, Repr

namespace Config

/-- Little-endian, for data and for fetch (R85, D1; log 15). -/
def byteOrder : ByteOrder := .little

/-- The fetch reports a misaligned target (R283, D8; log 14). -/
def misalignedReport : MisalignedReport := .atFetch

/-- DESIGN CHOICE (log 3), unsafe: the open parameter `RESET_PC` (R33). -/
def resetPc : Word := 0

/-- The parameter `INIT_PRIV` (R35, D15; log 16). -/
def initPriv : Mode := .machine

/-- DESIGN CHOICE (log 4), unsafe: the open parameter `MISA_VALUE` a run from reset starts with (R45). -/
def misaValue : Word := 0

/-- DESIGN CHOICE (log 5), unsafe: what a byte reads as that no list entry gives (R75 row "memory"). -/
def unlistedByte : Byte := 0

/-- FREE VALUE (log 7), safe: how far the 64-bit cycle counter has advanced when free value number
`n` is met. No source bounds it (10_state.md R55). -/
opaque cycleAdvance (n : Nat) : BitVec 64

/-- FREE VALUE (log 8), safe: how far `mhpmcounter k` (k = 3, 4, 5) has advanced when free value
number `n` is met (10_state.md R57). -/
opaque hpmAdvance (k n : Nat) : Word

/-- FREE VALUE (log 9), safe: the word a fetch returns that touches a stale byte, when it is free
value number `n` (20_memory.md R104; 93_implementation_defined.md I5). -/
opaque staleWord (n : Nat) : Word

end Config

end Sys2Proof
end

