-- ==== Sys2Proof/Syntax.lean ====
section
/-! DEFINITION. The 47 instructions, one constructor for each row of spec/opcode_table.json. An operand
has the width of its field (30_encoding.md R120 to R128); the displacement of a branch or JAL is the
whole displacement with its bit 0 (R122, R124), which WellFormed requires to be 0. -/

namespace Sys2Proof

/-- An instruction with its operands, in the order of the assembler's operand lines (R140), stores
excepted: there the base register stands first. -/
inductive Instr where
  -- integer and logical, register forms (41_integer.md, 43_logical.md, 45_shift.md)
  | add (rd rs1 rs2 : RegNum)
  | sub (rd rs1 rs2 : RegNum)
  | sll (rd rs1 rs2 : RegNum)
  | slt (rd rs1 rs2 : RegNum)
  | sltu (rd rs1 rs2 : RegNum)
  | xor (rd rs1 rs2 : RegNum)
  | srl (rd rs1 rs2 : RegNum)
  | sra (rd rs1 rs2 : RegNum)
  | or (rd rs1 rs2 : RegNum)
  | and (rd rs1 rs2 : RegNum)
  -- immediate forms
  | addi (rd rs1 : RegNum) (imm : BitVec 12)
  | slti (rd rs1 : RegNum) (imm : BitVec 12)
  | sltiu (rd rs1 : RegNum) (imm : BitVec 12)
  | xori (rd rs1 : RegNum) (imm : BitVec 12)
  | ori (rd rs1 : RegNum) (imm : BitVec 12)
  | andi (rd rs1 : RegNum) (imm : BitVec 12)
  | slli (rd rs1 : RegNum) (shamt : BitVec 5)
  | srli (rd rs1 : RegNum) (shamt : BitVec 5)
  | srai (rd rs1 : RegNum) (shamt : BitVec 5)
  -- loads and stores (44_memory_ops.md)
  | lb (rd rs1 : RegNum) (offset : BitVec 12)
  | lh (rd rs1 : RegNum) (offset : BitVec 12)
  | lw (rd rs1 : RegNum) (offset : BitVec 12)
  | lbu (rd rs1 : RegNum) (offset : BitVec 12)
  | lhu (rd rs1 : RegNum) (offset : BitVec 12)
  | sb (rs1 rs2 : RegNum) (offset : BitVec 12)
  | sh (rs1 rs2 : RegNum) (offset : BitVec 12)
  | sw (rs1 rs2 : RegNum) (offset : BitVec 12)
  -- branches (40_branch.md)
  | beq (rs1 rs2 : RegNum) (offset : BitVec 13)
  | bne (rs1 rs2 : RegNum) (offset : BitVec 13)
  | blt (rs1 rs2 : RegNum) (offset : BitVec 13)
  | bge (rs1 rs2 : RegNum) (offset : BitVec 13)
  | bltu (rs1 rs2 : RegNum) (offset : BitVec 13)
  | bgeu (rs1 rs2 : RegNum) (offset : BitVec 13)
  -- upper immediates
  | lui (rd : RegNum) (imm20 : BitVec 20)
  | auipc (rd : RegNum) (imm20 : BitVec 20)
  -- jumps (42_jump.md)
  | jal (rd : RegNum) (offset : BitVec 21)
  | jalr (rd rs1 : RegNum) (offset : BitVec 12)
  -- synchronization (46_sync.md): the ignored bits of R240 are no operands (log 17)
  | fence (pred succ : BitVec 4)
  | fencei
  -- system (47_system.md)
  | ecall
  | ebreak
  | csrrw (rd : RegNum) (csr : CsrNum) (rs1 : RegNum)
  | csrrs (rd : RegNum) (csr : CsrNum) (rs1 : RegNum)
  | csrrc (rd : RegNum) (csr : CsrNum) (rs1 : RegNum)
  | csrrwi (rd : RegNum) (csr : CsrNum) (uimm : BitVec 5)
  | csrrsi (rd : RegNum) (csr : CsrNum) (uimm : BitVec 5)
  | csrrci (rd : RegNum) (csr : CsrNum) (uimm : BitVec 5)
deriving DecidableEq, Repr

end Sys2Proof
end

