-- ==== Sys2Proof/Decode.lean ====
section
/-! DEFINITION. The decoder, total on every byte list, and the encoder, both from 30_encoding.md; and
how a word lies in memory as bytes (20_memory.md R85, R86). -/

namespace Sys2Proof

/-! ### Fields of an instruction word (R111 to R116, R120 to R128) -/

/-- `inst[6:0]` (R110). -/
def opcodeOf (w : Word) : BitVec 7 := w.extractLsb' 0 7
/-- `inst[11:7]` (R128). -/
def rdOf (w : Word) : RegNum := w.extractLsb' 7 5
/-- `inst[14:12]` (R131). -/
def funct3Of (w : Word) : BitVec 3 := w.extractLsb' 12 3
/-- `inst[19:15]` (R128); the `uimm5` of the immediate CSR forms stands in the same bits (R126). -/
def rs1Of (w : Word) : RegNum := w.extractLsb' 15 5
/-- `inst[24:20]` (R128); the `shamt` of the immediate shifts stands in the same bits (R125). -/
def rs2Of (w : Word) : RegNum := w.extractLsb' 20 5
/-- `inst[31:25]` (R132). -/
def funct7Of (w : Word) : BitVec 7 := w.extractLsb' 25 7
/-- `inst[31:20]`, the I-type immediate (R120) and the CSR address (R126). -/
def immIOf (w : Word) : BitVec 12 := w.extractLsb' 20 12
/-- `{ inst[31:25], inst[11:7] }`, the S-type immediate (R121). -/
def immSOf (w : Word) : BitVec 12 := w.extractLsb' 25 7 ++ w.extractLsb' 7 5
/-- `{ inst[31], inst[7], inst[30:25], inst[11:8], 1'b0 }`, the B-type displacement (R122). -/
def immBOf (w : Word) : BitVec 13 :=
  w.extractLsb' 31 1 ++ w.extractLsb' 7 1 ++ w.extractLsb' 25 6 ++ w.extractLsb' 8 4 ++ 0#1
/-- `inst[31:12]`, the U-type immediate (R123). -/
def immUOf (w : Word) : BitVec 20 := w.extractLsb' 12 20
/-- `{ inst[31], inst[19:12], inst[20], inst[30:21], 1'b0 }`, the J-type displacement (R124). -/
def immJOf (w : Word) : BitVec 21 :=
  w.extractLsb' 31 1 ++ w.extractLsb' 12 8 ++ w.extractLsb' 20 1 ++ w.extractLsb' 21 10 ++ 0#1
/-- `inst[27:24]` (R127). -/
def predOf (w : Word) : BitVec 4 := w.extractLsb' 24 4
/-- `inst[23:20]` (R127). -/
def succOf (w : Word) : BitVec 4 := w.extractLsb' 20 4

/-! ### Decoding (R134) -/

/-- Why a word, or a byte list, is no instruction. The machine raises Illegal instruction for every
word refused here (R135); `truncated` is met by no fetch, which always has four bytes (log 26). -/
inductive DecodeError where
  /-- `inst[6:0]` is none of the eleven opcodes (R130) -/
  | unassignedOpcode
  /-- a "—" cell of the encoding matrix (R131) -/
  | unassignedFunct3
  /-- `inst[31:25]` is not listed for this opcode and funct3 (R132) -/
  | unassignedFunct7
  /-- opcode 0x73, funct3 0, and neither ECALL nor EBREAK (R133) -/
  | unassignedSystemWord
  /-- fewer than four bytes -/
  | truncated
deriving DecidableEq, Repr

/-- Opcode 0x33, by funct3 and funct7 (R132). -/
def decodeOp (w : Word) : Except DecodeError Instr :=
  let f3 := funct3Of w
  let f7 := funct7Of w
  if f7 = 0x00 then
    if f3 = 0 then .ok (.add (rdOf w) (rs1Of w) (rs2Of w))
    else if f3 = 1 then .ok (.sll (rdOf w) (rs1Of w) (rs2Of w))
    else if f3 = 2 then .ok (.slt (rdOf w) (rs1Of w) (rs2Of w))
    else if f3 = 3 then .ok (.sltu (rdOf w) (rs1Of w) (rs2Of w))
    else if f3 = 4 then .ok (.xor (rdOf w) (rs1Of w) (rs2Of w))
    else if f3 = 5 then .ok (.srl (rdOf w) (rs1Of w) (rs2Of w))
    else if f3 = 6 then .ok (.or (rdOf w) (rs1Of w) (rs2Of w))
    else .ok (.and (rdOf w) (rs1Of w) (rs2Of w))
  else if f7 = 0x20 then
    if f3 = 0 then .ok (.sub (rdOf w) (rs1Of w) (rs2Of w))
    else if f3 = 5 then .ok (.sra (rdOf w) (rs1Of w) (rs2Of w))
    else .error .unassignedFunct7
  else .error .unassignedFunct7

/-- Opcode 0x13 (R134); the shifts have a function field in `inst[31:25]` (R132, D4). -/
def decodeOpImm (w : Word) : Except DecodeError Instr :=
  let f3 := funct3Of w
  let f7 := funct7Of w
  if f3 = 0 then .ok (.addi (rdOf w) (rs1Of w) (immIOf w))
  else if f3 = 1 then
    if f7 = 0x00 then .ok (.slli (rdOf w) (rs1Of w) (rs2Of w))
    else .error .unassignedFunct7
  else if f3 = 2 then .ok (.slti (rdOf w) (rs1Of w) (immIOf w))
  else if f3 = 3 then .ok (.sltiu (rdOf w) (rs1Of w) (immIOf w))
  else if f3 = 4 then .ok (.xori (rdOf w) (rs1Of w) (immIOf w))
  else if f3 = 5 then
    if f7 = 0x00 then .ok (.srli (rdOf w) (rs1Of w) (rs2Of w))
    else if f7 = 0x20 then .ok (.srai (rdOf w) (rs1Of w) (rs2Of w))
    else .error .unassignedFunct7
  else if f3 = 6 then .ok (.ori (rdOf w) (rs1Of w) (immIOf w))
  else .ok (.andi (rdOf w) (rs1Of w) (immIOf w))

/-- Opcode 0x03 (R134, R221). -/
def decodeLoad (w : Word) : Except DecodeError Instr :=
  let f3 := funct3Of w
  if f3 = 0 then .ok (.lb (rdOf w) (rs1Of w) (immIOf w))
  else if f3 = 1 then .ok (.lh (rdOf w) (rs1Of w) (immIOf w))
  else if f3 = 2 then .ok (.lw (rdOf w) (rs1Of w) (immIOf w))
  else if f3 = 4 then .ok (.lbu (rdOf w) (rs1Of w) (immIOf w))
  else if f3 = 5 then .ok (.lhu (rdOf w) (rs1Of w) (immIOf w))
  else .error .unassignedFunct3

/-- Opcode 0x23 (R134, R221). -/
def decodeStore (w : Word) : Except DecodeError Instr :=
  let f3 := funct3Of w
  if f3 = 0 then .ok (.sb (rs1Of w) (rs2Of w) (immSOf w))
  else if f3 = 1 then .ok (.sh (rs1Of w) (rs2Of w) (immSOf w))
  else if f3 = 2 then .ok (.sw (rs1Of w) (rs2Of w) (immSOf w))
  else .error .unassignedFunct3

/-- Opcode 0x63 (R134, R159). -/
def decodeBranch (w : Word) : Except DecodeError Instr :=
  let f3 := funct3Of w
  if f3 = 0 then .ok (.beq (rs1Of w) (rs2Of w) (immBOf w))
  else if f3 = 1 then .ok (.bne (rs1Of w) (rs2Of w) (immBOf w))
  else if f3 = 4 then .ok (.blt (rs1Of w) (rs2Of w) (immBOf w))
  else if f3 = 5 then .ok (.bge (rs1Of w) (rs2Of w) (immBOf w))
  else if f3 = 6 then .ok (.bltu (rs1Of w) (rs2Of w) (immBOf w))
  else if f3 = 7 then .ok (.bgeu (rs1Of w) (rs2Of w) (immBOf w))
  else .error .unassignedFunct3

/-- Opcode 0x0F: all bits but the opcode and funct3 are ignored (R240, D7). -/
def decodeFence (w : Word) : Except DecodeError Instr :=
  let f3 := funct3Of w
  if f3 = 0 then .ok (.fence (predOf w) (succOf w))
  else if f3 = 1 then .ok .fencei
  else .error .unassignedFunct3

/-- Opcode 0x73 (R133, R134, R273). -/
def decodeSystem (w : Word) : Except DecodeError Instr :=
  let f3 := funct3Of w
  if f3 = 0 then
    if w = 0x00000073 then .ok .ecall
    else if w = 0x00100073 then .ok .ebreak
    else .error .unassignedSystemWord
  else if f3 = 1 then .ok (.csrrw (rdOf w) (immIOf w) (rs1Of w))
  else if f3 = 2 then .ok (.csrrs (rdOf w) (immIOf w) (rs1Of w))
  else if f3 = 3 then .ok (.csrrc (rdOf w) (immIOf w) (rs1Of w))
  else if f3 = 5 then .ok (.csrrwi (rdOf w) (immIOf w) (rs1Of w))
  else if f3 = 6 then .ok (.csrrsi (rdOf w) (immIOf w) (rs1Of w))
  else if f3 = 7 then .ok (.csrrci (rdOf w) (immIOf w) (rs1Of w))
  else .error .unassignedFunct3

/-- The decoding procedure of R134: one of the 47 instructions, or the reason there is none. -/
def decode (w : Word) : Except DecodeError Instr :=
  let op := opcodeOf w
  if op = 0x37 then .ok (.lui (rdOf w) (immUOf w))
  else if op = 0x17 then .ok (.auipc (rdOf w) (immUOf w))
  else if op = 0x6F then .ok (.jal (rdOf w) (immJOf w))
  else if op = 0x67 then
    if funct3Of w = 0 then .ok (.jalr (rdOf w) (rs1Of w) (immIOf w))
    else .error .unassignedFunct3
  else if op = 0x63 then decodeBranch w
  else if op = 0x03 then decodeLoad w
  else if op = 0x23 then decodeStore w
  else if op = 0x13 then decodeOpImm w
  else if op = 0x33 then decodeOp w
  else if op = 0x0F then decodeFence w
  else if op = 0x73 then decodeSystem w
  else .error .unassignedOpcode

/-! ### Words as bytes (R85, R86) -/

/-- Bytes listed from the least significant, put into the order of rising addresses, and back
(R85; the one place the byte order is used). -/
def inByteOrder (bs : List Byte) : List Byte :=
  match Config.byteOrder with
  | .little => bs
  | .big => bs.reverse

/-- The low `n` bytes of `v`, in the order they lie at rising addresses (R89). -/
def bytesOf (n : Nat) (v : Word) : List Byte :=
  inByteOrder ((List.range n).map fun i => v.extractLsb' (8 * i) 8)

/-- The value of bytes listed from the least significant, zero-extended to a word. -/
def joinBytes : List Byte → Word
  | [] => 0
  | b :: bs => b.setWidth 32 ||| (joinBytes bs <<< 8)

/-- The value of up to four bytes that lie in this order at rising addresses (R87, R88). -/
def ofBytes (bs : List Byte) : Word := joinBytes (inByteOrder bs)

/-- Read one instruction from bytes at rising addresses, and the bytes after it. -/
def decodeBytes : List Byte → Except DecodeError (Instr × List Byte)
  | b0 :: b1 :: b2 :: b3 :: rest =>
    match decode (ofBytes [b0, b1, b2, b3]) with
    | .ok i => .ok (i, rest)
    | .error e => .error e
  | _ => .error .truncated

/-- The instruction word of an opcode-table row: its low `nbits` bits are those of `w`, the others 0. -/
def tableWord (nbits w : Nat) : Word := BitVec.ofNat 32 (w % 2 ^ nbits)

/-- What the decoder reads from the bytes of an opcode-table word. -/
def decodeTableWord (nbits w : Nat) : Option Instr :=
  match decodeBytes (bytesOf 4 (tableWord nbits w)) with
  | .ok (i, _) => some i
  | .error _ => none

/-! ### Encoding, from the same tables -/

/-- R-type (R111). -/
def encodeR (f7 : BitVec 7) (f3 : BitVec 3) (rd rs1 rs2 : RegNum) : Word :=
  f7 ++ rs2 ++ rs1 ++ f3 ++ rd ++ 0x33#7

/-- I-type (R112). -/
def encodeI (op : BitVec 7) (f3 : BitVec 3) (rd rs1 : RegNum) (imm : BitVec 12) : Word :=
  imm ++ rs1 ++ f3 ++ rd ++ op

/-- I-type with a shift amount and a function field in the immediate (R125, R132). -/
def encodeShift (f7 : BitVec 7) (f3 : BitVec 3) (rd rs1 : RegNum) (shamt : BitVec 5) : Word :=
  f7 ++ shamt ++ rs1 ++ f3 ++ rd ++ 0x13#7

/-- S-type (R113). -/
def encodeS (f3 : BitVec 3) (rs1 rs2 : RegNum) (imm : BitVec 12) : Word :=
  imm.extractLsb' 5 7 ++ rs2 ++ rs1 ++ f3 ++ imm.extractLsb' 0 5 ++ 0x23#7

/-- B-type (R114); bit 0 of the displacement has no place. -/
def encodeB (f3 : BitVec 3) (rs1 rs2 : RegNum) (offset : BitVec 13) : Word :=
  offset.extractLsb' 12 1 ++ offset.extractLsb' 5 6 ++ rs2 ++ rs1 ++ f3
    ++ offset.extractLsb' 1 4 ++ offset.extractLsb' 11 1 ++ 0x63#7

/-- U-type (R115). -/
def encodeU (op : BitVec 7) (rd : RegNum) (imm20 : BitVec 20) : Word :=
  imm20 ++ rd ++ op

/-- J-type (R116); bit 0 of the displacement has no place. -/
def encodeJ (rd : RegNum) (offset : BitVec 21) : Word :=
  offset.extractLsb' 20 1 ++ offset.extractLsb' 1 10 ++ offset.extractLsb' 11 1
    ++ offset.extractLsb' 12 8 ++ rd ++ 0x6F#7

/-- The word of an instruction. The ignored bits of a fence are written as 0 (R241, R242; log 17). -/
def encode (i : Instr) : Word :=
  match i with
  | .add rd rs1 rs2 => encodeR 0x00 0 rd rs1 rs2
  | .sub rd rs1 rs2 => encodeR 0x20 0 rd rs1 rs2
  | .sll rd rs1 rs2 => encodeR 0x00 1 rd rs1 rs2
  | .slt rd rs1 rs2 => encodeR 0x00 2 rd rs1 rs2
  | .sltu rd rs1 rs2 => encodeR 0x00 3 rd rs1 rs2
  | .xor rd rs1 rs2 => encodeR 0x00 4 rd rs1 rs2
  | .srl rd rs1 rs2 => encodeR 0x00 5 rd rs1 rs2
  | .sra rd rs1 rs2 => encodeR 0x20 5 rd rs1 rs2
  | .or rd rs1 rs2 => encodeR 0x00 6 rd rs1 rs2
  | .and rd rs1 rs2 => encodeR 0x00 7 rd rs1 rs2
  | .addi rd rs1 imm => encodeI 0x13 0 rd rs1 imm
  | .slti rd rs1 imm => encodeI 0x13 2 rd rs1 imm
  | .sltiu rd rs1 imm => encodeI 0x13 3 rd rs1 imm
  | .xori rd rs1 imm => encodeI 0x13 4 rd rs1 imm
  | .ori rd rs1 imm => encodeI 0x13 6 rd rs1 imm
  | .andi rd rs1 imm => encodeI 0x13 7 rd rs1 imm
  | .slli rd rs1 shamt => encodeShift 0x00 1 rd rs1 shamt
  | .srli rd rs1 shamt => encodeShift 0x00 5 rd rs1 shamt
  | .srai rd rs1 shamt => encodeShift 0x20 5 rd rs1 shamt
  | .lb rd rs1 offset => encodeI 0x03 0 rd rs1 offset
  | .lh rd rs1 offset => encodeI 0x03 1 rd rs1 offset
  | .lw rd rs1 offset => encodeI 0x03 2 rd rs1 offset
  | .lbu rd rs1 offset => encodeI 0x03 4 rd rs1 offset
  | .lhu rd rs1 offset => encodeI 0x03 5 rd rs1 offset
  | .sb rs1 rs2 offset => encodeS 0 rs1 rs2 offset
  | .sh rs1 rs2 offset => encodeS 1 rs1 rs2 offset
  | .sw rs1 rs2 offset => encodeS 2 rs1 rs2 offset
  | .beq rs1 rs2 offset => encodeB 0 rs1 rs2 offset
  | .bne rs1 rs2 offset => encodeB 1 rs1 rs2 offset
  | .blt rs1 rs2 offset => encodeB 4 rs1 rs2 offset
  | .bge rs1 rs2 offset => encodeB 5 rs1 rs2 offset
  | .bltu rs1 rs2 offset => encodeB 6 rs1 rs2 offset
  | .bgeu rs1 rs2 offset => encodeB 7 rs1 rs2 offset
  | .lui rd imm20 => encodeU 0x37 rd imm20
  | .auipc rd imm20 => encodeU 0x17 rd imm20
  | .jal rd offset => encodeJ rd offset
  | .jalr rd rs1 offset => encodeI 0x67 0 rd rs1 offset
  | .fence pred succ => encodeI 0x0F 0 0 0 ((0#4 ++ pred ++ succ : BitVec 12))
  | .fencei => encodeI 0x0F 1 0 0 0
  | .ecall => 0x00000073
  | .ebreak => 0x00100073
  | .csrrw rd csr rs1 => encodeI 0x73 1 rd rs1 csr
  | .csrrs rd csr rs1 => encodeI 0x73 2 rd rs1 csr
  | .csrrc rd csr rs1 => encodeI 0x73 3 rd rs1 csr
  | .csrrwi rd csr uimm => encodeI 0x73 5 rd uimm csr
  | .csrrsi rd csr uimm => encodeI 0x73 6 rd uimm csr
  | .csrrci rd csr uimm => encodeI 0x73 7 rd uimm csr

end Sys2Proof
end

