-- ==== Sys2Proof/Machine/State.lean ====
section
/-! DEFINITION. The machine's state (10_state.md), what it holds right after reset (R75), and the ways
a step can stop. -/

namespace Sys2Proof.Machine

/-- What a memory access is for (20_memory.md R82). -/
inductive Access where
  | fetch
  | load
  | store
deriving DecidableEq, Repr

/-- A range of addresses, `base` to `base + size - 1`, that does not respond to one kind of access:
how the state holds the platform's predicates `fetch_ok`, `load_ok` and `store_ok` (R82; log 6). -/
structure Denial where
  kind : Access
  base : Nat
  size : Nat
deriving DecidableEq, Repr

/-- Memory: the bytes that differ from what an unlisted address reads as, by rising address (R80, R86). -/
abbrev Memory := List Host.Cell

/-- The CSRs that have storage of their own, 32 bits each (10_state.md R40, R43). The cycle and
instruction counters behind the other six addresses are fields of the state. -/
structure Csrs where
  /-- 0x300 (R44) -/
  mstatus : Word
  /-- 0x301: constant, a write is ignored (R45) -/
  misa : Word
  /-- 0x302 (R46) -/
  medeleg : Word
  /-- 0x303 (R46) -/
  mideleg : Word
  /-- 0x304 (R47) -/
  mie : Word
  /-- 0x305 (R48) -/
  mtvec : Word
  /-- 0x306 (R49) -/
  mcounteren : Word
  /-- 0x340 (R50) -/
  mscratch : Word
  /-- 0x341 (R51) -/
  mepc : Word
  /-- 0x342 (R52) -/
  mcause : Word
  /-- 0x343 (R53) -/
  mtval : Word
  /-- 0x344 (R47) -/
  mip : Word
  /-- 0x3A0 (R54) -/
  pmpcfg0 : Word
  /-- 0x3B0 (R54) -/
  pmpaddr0 : Word
  /-- 0x3B1 (R54) -/
  pmpaddr1 : Word
  /-- 0x3B2 (R54) -/
  pmpaddr2 : Word
  /-- 0x3B3 (R54) -/
  pmpaddr3 : Word
  /-- 0xB03, as it stood when last read or written (R57; log 8) -/
  mhpmcounter3 : Word
  /-- 0xB04, as it stood when last read or written (R57; log 8) -/
  mhpmcounter4 : Word
  /-- 0xB05, as it stood when last read or written (R57; log 8) -/
  mhpmcounter5 : Word
  /-- 0x323 (R58) -/
  mhpmevent3 : Word
  /-- 0x324 (R58) -/
  mhpmevent4 : Word
  /-- 0x325 (R58) -/
  mhpmevent5 : Word
  /-- 0x100 (R61) -/
  sstatus : Word
  /-- 0x104 (R62) -/
  sie : Word
  /-- 0x105 (R63) -/
  stvec : Word
  /-- 0x140 (R64) -/
  sscratch : Word
  /-- 0x141 (R65) -/
  sepc : Word
  /-- 0x142 (R65) -/
  scause : Word
  /-- 0x143 (R65) -/
  stval : Word
  /-- 0x144 (R62) -/
  sip : Word
  /-- 0x180 (R66) -/
  satp : Word
deriving DecidableEq, Repr

/-- The state of the machine. -/
structure State where
  /-- x1 to x31, x1 first; x0 is a constant and is not stored (R20, R21) -/
  x : Vector Word 31
  /-- the address of the instruction being executed (R30) -/
  pc : Word
  /-- the privilege mode (R35) -/
  priv : Mode
  /-- the CSRs with storage of their own (R43) -/
  csr : Csrs
  /-- the cycle counter, as it stood when last read or written (R55; log 7) -/
  cycle : BitVec 64
  /-- how many instructions have completed (R56), modulo 2^64 (log 27) -/
  instret : BitVec 64
  /-- memory (R80) -/
  mem : Memory
  /-- addresses stored to since the last FENCEI, by rising address (R70) -/
  stale : List Nat
  /-- the addresses that do not respond; nothing the machine does changes it (R82; log 6) -/
  denied : List Denial
  /-- the model's own: how many free values have been met (log 10) -/
  draws : Nat
deriving DecidableEq, Repr

/-- The reasons a run stops for good. There are none: the spec gives the hardware no halt and no
double-fault state (60_exceptions.md R298, R319; 70_reset_and_hazards.md R342), and every condition that
would be a fault elsewhere is one of the eleven exceptions, which are taken (R290). -/
inductive Fault where
deriving DecidableEq, Repr

/-- The situations to which the spec gives no meaning and which it asks a model to refuse. All are
safe: nothing can be proved of what lies behind them. -/
inductive Refusal where
  /-- raised by exec's arm of an instruction that has no meaning yet; safe -/
  | notModelled (mnemonic : String)
  /-- raised by step in a state with `satp` nonzero: how it "controls page tables" is not described
  (10_state.md R66; I12; log 11); safe -/
  | translationNotDescribed
  /-- raised by step in a state with `pmpcfg0` nonzero: what protection applies is not described
  (10_state.md R54; I12; log 11); safe -/
  | protectionNotDescribed
  /-- raised by step in a state with `mstatus.MIE` set and `mie & mip` nonzero: what the hardware does
  with an enabled pending interrupt is not described (60_exceptions.md R305; I13; log 12); safe -/
  | interruptNotDescribed
  /-- raised by a trap taken below M while its bit of `medeleg` is set: the delegated entry is not
  described (60_exceptions.md R303; I14; log 13); safe -/
  | delegationNotDescribed
deriving DecidableEq, Repr

/-- The CSRs after reset (R75): 0 where the spec says 0, and where it says "unspecified" the value of
log 2 (log 4 for `misa`). -/
def Csrs.reset : Csrs where
  mstatus := 0
  misa := Config.misaValue
  medeleg := 0
  mideleg := 0
  mie := 0
  mtvec := 0
  mcounteren := 0
  mscratch := 0
  mepc := 0
  mcause := 0
  mtval := 0
  mip := 0
  pmpcfg0 := 0
  pmpaddr0 := 0
  pmpaddr1 := 0
  pmpaddr2 := 0
  pmpaddr3 := 0
  mhpmcounter3 := 0
  mhpmcounter4 := 0
  mhpmcounter5 := 0
  mhpmevent3 := 0
  mhpmevent4 := 0
  mhpmevent5 := 0
  sstatus := 0
  sie := 0
  stvec := 0
  sscratch := 0
  sepc := 0
  scause := 0
  stval := 0
  sip := 0
  satp := 0

/-- The machine right after reset (R75, R330). -/
def State.reset : State where
  x := Vector.replicate 31 0
  pc := Config.resetPc
  priv := Config.initPriv
  csr := Csrs.reset
  cycle := 0
  instret := 0
  mem := []
  stale := []
  denied := []
  draws := 0

end Sys2Proof.Machine
end

