-- ==== Sys2Proof/Machine/Flags.lean ====
section
/-! DEFINITION. The hardware has no status flags (10_state.md R36): a comparison writes 0 or 1 into a
register or decides a branch. The only flag-like state is the bits of `mstatus` (R44) and two bits of
`mcounteren` (R49). All of them are here. -/

namespace Sys2Proof

/-- The number a mode is stored as: U = 0, S = 1, M = 3 (R35; log 24). -/
def Mode.enc (m : Mode) : BitVec 2 :=
  match m with
  | .user => 0
  | .supervisor => 1
  | .machine => 3

end Sys2Proof

namespace Sys2Proof.Machine

/-- The result of a comparison as a register value: exactly 1 or 0 (41_integer.md R170). -/
def boolWord (b : Bool) : Word := if b then 1 else 0

/-- `s(a) < s(b)`: both read as two's-complement integers (00_scope.md R9). -/
def lessSigned (a b : Word) : Bool := a.slt b

/-- `u(a) < u(b)`: both read as unsigned integers (00_scope.md R9). -/
def lessUnsigned (a b : Word) : Bool := a.ult b

/-- `mstatus.MIE`, bit 3 (R44). -/
def mieOf (mstatus : Word) : Bool := mstatus.getLsbD 3

/-- `mstatus.MPIE`, bit 7 (R44). -/
def mpieOf (mstatus : Word) : Bool := mstatus.getLsbD 7

/-- `mstatus.MPP`, bits 12:11 (R44). -/
def mppOf (mstatus : Word) : BitVec 2 := mstatus.extractLsb' 11 2

/-- `mstatus` with MIE replaced. -/
def setMie (mstatus : Word) (b : Bool) : Word :=
  mstatus.extractLsb' 4 28 ++ BitVec.ofBool b ++ mstatus.extractLsb' 0 3

/-- `mstatus` with MPIE replaced. -/
def setMpie (mstatus : Word) (b : Bool) : Word :=
  mstatus.extractLsb' 8 24 ++ BitVec.ofBool b ++ mstatus.extractLsb' 0 7

/-- `mstatus` with MPP replaced. -/
def setMpp (mstatus : Word) (p : BitVec 2) : Word :=
  mstatus.extractLsb' 13 19 ++ p ++ mstatus.extractLsb' 0 11

/-- Steps 4 to 6 of trap entry: MPP becomes the mode, MPIE becomes MIE, MIE is cleared, in that order
(60_exceptions.md R290, R291). -/
def mstatusOnTrap (mstatus : Word) (m : Mode) : Word :=
  setMie (setMpie (setMpp mstatus m.enc) (mieOf mstatus)) false

/-- `mcounteren` bit 0 opens the cycle counter to modes below M (R49; log 24). -/
def cycleEnabled (mcounteren : Word) : Bool := mcounteren.getLsbD 0

/-- `mcounteren` bit 2 opens the instruction counter to modes below M (R49; log 24). -/
def instretEnabled (mcounteren : Word) : Bool := mcounteren.getLsbD 2

end Sys2Proof.Machine
end

