-- ==== Sys2Proof/Machine/Ops.lean ====
section
/-! DEFINITION. The operations every meaning is made of: general registers, memory, the end of an
instruction, and taking an exception. There is no return from an exception (60_exceptions.md R300). -/

namespace Sys2Proof.Machine

/-- What a step or a meaning answers. -/
abbrev Result := Host.Outcome State Fault Refusal

/-! ### General registers (10_state.md R21) -/

/-- Where a register other than x0 stands in the stored file. -/
def regIndex (r : RegNum) : Fin 31 := ⟨r.toNat - 1, by have := r.isLt; omega⟩

/-- `x[r]`: 0 for x0, else the stored value (R21). -/
def State.getX (s : State) (r : RegNum) : Word :=
  if r = 0#5 then 0 else s.x[(regIndex r).val]

/-- `x[r] <- v`: discarded for x0 (R21). -/
def State.setX (s : State) (r : RegNum) (v : Word) : State :=
  if r = 0#5 then s else { s with x := s.x.set (regIndex r) v (regIndex r).isLt }

/-! ### The end of an instruction (10_state.md R31, R56) -/

/-- The next instruction is the one at `target`; the instruction counter stays (R56: a write of
`minstret` suppresses the writer's own increment). -/
def State.goTo (s : State) (target : Word) : State := { s with pc := target }

/-- The instruction completes: the next one is at `target`, and `instret` counts this one (R56). DESIGN
CHOICE (log 27), unsafe: after 2^64 - 1 the count is 0; the spec does not say what it is. -/
def State.retire (s : State) (target : Word) : State :=
  { s with pc := target, instret := s.instret + 1 }

/-- Complete with the sequential advance `pc <- pc + 4` (R31). -/
def finish (s : State) : Result := .next (s.retire (s.pc + 4))

/-! ### Exceptions (60_exceptions.md) -/

/-- The eleven exceptions (R280). -/
inductive Exception where
  | instructionAddressMisaligned
  | instructionAccessFault
  | illegalInstruction
  | breakpoint
  | loadAddressMisaligned
  | loadAccessFault
  | storeAddressMisaligned
  | storeAccessFault
  /-- an ECALL executed in mode `m` -/
  | environmentCall (m : Mode)
deriving DecidableEq, Repr

/-- The exception code (R280). -/
def Exception.code (e : Exception) : Nat :=
  match e with
  | .instructionAddressMisaligned => 0
  | .instructionAccessFault => 1
  | .illegalInstruction => 2
  | .breakpoint => 3
  | .loadAddressMisaligned => 4
  | .loadAccessFault => 5
  | .storeAddressMisaligned => 6
  | .storeAccessFault => 7
  | .environmentCall .user => 8
  | .environmentCall .supervisor => 9
  | .environmentCall .machine => 11

/-- What trap entry saves in `mepc`: the next `pc` for ECALL and EBREAK, else the `pc` (R292). -/
def Exception.savedPc (e : Exception) (pc : Word) : Word :=
  match e with
  | .breakpoint | .environmentCall _ => pc + 4
  | .instructionAddressMisaligned | .instructionAccessFault | .illegalInstruction
  | .loadAddressMisaligned | .loadAccessFault
  | .storeAddressMisaligned | .storeAccessFault => pc

/-- Trap entry (R290 to R296): four CSRs, the mode and the `pc`, and nothing else. -/
def trapEntry (e : Exception) (info : Word) (s : State) : State :=
  { s with
    csr := { s.csr with
      mepc := e.savedPc s.pc
      mcause := BitVec.ofNat 32 e.code
      mtval := info
      mstatus := mstatusOnTrap s.csr.mstatus s.priv }
    priv := .machine
    pc := s.csr.mtvec }

/-- A trap the spec does not describe: below M, with its bit of `medeleg` set (R46, R303; log 13). -/
def delegated (e : Exception) (s : State) : Bool :=
  s.priv != .machine && s.csr.medeleg.getLsbD e.code

/-- `raise E(info)`: abandon the instruction and take the trap (00_scope.md R13; R290). -/
def raise (e : Exception) (info : Word) (s : State) : Result :=
  if delegated e s then .refused .delegationNotDescribed else .next (trapEntry e info s)

/-! ### Memory, byte by byte (20_memory.md R80, R86) -/

/-- The byte at an address. -/
def Memory.read (m : Memory) (a : Nat) : Byte :=
  match m with
  | [] => Config.unlistedByte
  | (b, v) :: rest => if b = a then v else Memory.read rest a

/-- The list without an entry for the address. -/
def Memory.erase (m : Memory) (a : Nat) : Memory := m.filter fun c => c.1 != a

/-- The list with an entry put before the first entry of a greater address. -/
def Memory.place (m : Memory) (a : Nat) (v : Byte) : Memory :=
  match m with
  | [] => [(a, v)]
  | (b, w) :: rest => if a < b then (a, v) :: (b, w) :: rest else (b, w) :: Memory.place rest a v

/-- Write the byte at an address; writing what an unlisted address reads as leaves no entry. -/
def Memory.write (m : Memory) (a : Nat) (v : Byte) : Memory :=
  if v = Config.unlistedByte then Memory.erase m a else Memory.place (Memory.erase m a) a v

/-- Write bytes at rising addresses from `a`. -/
def Memory.writeBytes (m : Memory) (a : Nat) (bs : List Byte) : Memory :=
  match bs with
  | [] => m
  | b :: rest => Memory.writeBytes (Memory.write m a b) (a + 1) rest

/-- The `n` bytes at rising addresses from `a`. -/
def Memory.readBytes (m : Memory) (a n : Nat) : List Byte :=
  (List.range n).map fun i => Memory.read m (a + i)

/-- The canonical form: addresses rise strictly and lie in the address space, and no entry equals what
an unlisted address reads as. -/
def Memory.wf (m : Memory) : Bool :=
  decide (m.Pairwise fun p q => p.1 < q.1) &&
    m.all fun c => decide (c.1 < 2 ^ 32) && decide (c.2 ≠ Config.unlistedByte)

/-! ### The stale set (10_state.md R70; 20_memory.md R104) -/

/-- Add an address to the set. -/
def addStale (stale : List Nat) (a : Nat) : List Nat :=
  match stale with
  | [] => [a]
  | b :: rest => if a < b then a :: b :: rest else if a = b then b :: rest else b :: addStale rest a

/-- Add the `n` addresses from `a`. -/
def addStaleRange (stale : List Nat) (a n : Nat) : List Nat :=
  match n with
  | 0 => stale
  | k + 1 => addStaleRange (addStale stale a) (a + 1) k

/-- The set's canonical form: addresses rise strictly. -/
def staleWf (stale : List Nat) : Bool := decide (stale.Pairwise (· < ·))

/-! ### The access primitives (R82, R87 to R89) -/

/-- Does this denial cover this kind of access to this byte? -/
def Denial.covers (d : Denial) (k : Access) (a : Nat) : Bool :=
  d.kind == k && decide (d.base ≤ a) && decide (a < d.base + d.size)

/-- The platform's predicates `fetch_ok`, `load_ok`, `store_ok` over the `n` bytes from `a` (R82). -/
def responds (s : State) (k : Access) (a n : Nat) : Bool :=
  (List.range n).all fun i => !s.denied.any fun d => d.covers k (a + i)

/-- Is the address a multiple of the access size (R90)? -/
def aligned (a : Word) (n : Nat) : Bool := a.toNat % n == 0

/-- `MemRead(a, n)`, its 8n bits zero-extended to a word (R88). -/
def memRead (s : State) (a : Word) (n : Nat) : Except Exception Word :=
  if !aligned a n then .error .loadAddressMisaligned
  else if !responds s .load a.toNat n then .error .loadAccessFault
  else .ok (ofBytes (Memory.readBytes s.mem a.toNat n))

/-- Store the low `n` bytes of `v` from `a`, and make them stale (R89, R104). -/
def State.storeBytes (s : State) (a : Word) (n : Nat) (v : Word) : State :=
  { s with
    mem := Memory.writeBytes s.mem a.toNat (bytesOf n v)
    stale := addStaleRange s.stale a.toNat n }

/-- `MemWrite(a, n, v)` (R89). -/
def memWrite (s : State) (a : Word) (n : Nat) (v : Word) : Except Exception State :=
  if !aligned a n then .error .storeAddressMisaligned
  else if !responds s .store a.toNat n then .error .storeAccessFault
  else .ok (s.storeBytes a n v)

/-! ### Jumps -/

/-- Jump to `target`, `link` being the write of the return address if there is one. The jump completes
whatever the target (40_branch.md R151, 42_jump.md R192); under the other value of
`MISALIGNED_FETCH_REPORT` it would raise and write nothing (D8; log 14). -/
def jumpTo (target : Word) (link : State → State) (s : State) : Result :=
  match Config.misalignedReport with
  | .atFetch => .next ((link s).retire target)
  | .atJump =>
    if aligned target 4 then .next ((link s).retire target)
    else raise .instructionAddressMisaligned target s

end Sys2Proof.Machine
end

