-- ==== Sys2Proof/Machine/Operands.lean ====
section
/-! DEFINITION. The operand forms of the instructions (30_encoding.md R120 to R127; 44_memory_ops.md
R210), and the shapes of instruction that share everything but one function. -/

namespace Sys2Proof.Machine

/-- `sext_12`: the I and S immediate as a word (R120, R121). -/
def immWord (imm : BitVec 12) : Word := imm.signExtend 32

/-- `{ imm20, 12'b0 }` (R123). -/
def upperWord (imm20 : BitVec 20) : Word := imm20 ++ 0#12

/-- `zimm`: the 5-bit immediate of a CSR instruction, zero-extended (R126). -/
def zimm (uimm : BitVec 5) : Word := uimm.setWidth 32

/-- The shift amount a register gives: its low five bits (45_shift.md R230). -/
def shiftAmount (v : Word) : BitVec 5 := v.extractLsb' 0 5

/-- `shl`, `shr_l` and `shr_a` by 0 to 31 (00_scope.md R11). -/
def shl (v : Word) (n : BitVec 5) : Word := v <<< n.toNat
/-- Zeros enter at the top (R11). -/
def shrL (v : Word) (n : BitVec 5) : Word := v >>> n.toNat
/-- Copies of bit 31 enter at the top (R11). -/
def shrA (v : Word) (n : BitVec 5) : Word := v.sshiftRight n.toNat

/-- `x[rs1] + sext_12(offset)`, modulo 2^32 (R92, R210). -/
def effectiveAddress (s : State) (rs1 : RegNum) (offset : BitVec 12) : Word :=
  s.getX rs1 + immWord offset

/-- Write a result to `rd` and go on (41_integer.md R171). -/
def writeResult (rd : RegNum) (v : Word) (s : State) : Result := finish (s.setX rd v)

/-- `rd, rs1, rs2`: a function of two registers. -/
def binary (f : Word → Word → Word) (rd rs1 rs2 : RegNum) (s : State) : Result :=
  writeResult rd (f (s.getX rs1) (s.getX rs2)) s

/-- `rd, rs1, imm12`: a function of a register and the sign-extended immediate. -/
def binaryImm (f : Word → Word → Word) (rd rs1 : RegNum) (imm : BitVec 12) (s : State) : Result :=
  writeResult rd (f (s.getX rs1) (immWord imm)) s

/-- `rs1, rs2, label`: a conditional branch (40_branch.md R150). -/
def branch (taken : Word → Word → Bool) (rs1 rs2 : RegNum) (offset : BitVec 13) (s : State) : Result :=
  if taken (s.getX rs1) (s.getX rs2) then jumpTo (s.pc + offset.signExtend 32) id s
  else finish s

/-- `rd, offset(rs1)`: a load of `n` bytes, `extend` making the word (44_memory_ops.md R211). -/
def load (n : Nat) (extend : Word → Word) (rd rs1 : RegNum) (offset : BitVec 12) (s : State) : Result :=
  let a := effectiveAddress s rs1 offset
  match memRead s a n with
  | .error e => raise e a s
  | .ok v => writeResult rd (extend v) s

/-- `rs2, offset(rs1)`: a store of the low `n` bytes of `rs2` (44_memory_ops.md R212). -/
def store (n : Nat) (rs1 rs2 : RegNum) (offset : BitVec 12) (s : State) : Result :=
  let a := effectiveAddress s rs1 offset
  match memWrite s a n (s.getX rs2) with
  | .error e => raise e a s
  | .ok s' => finish s'

/-- Sign extension of the low 8 and the low 16 bits (00_scope.md R10). -/
def sext8 (v : Word) : Word := (v.setWidth 8).signExtend 32
/-- `sext_16` (R10). -/
def sext16 (v : Word) : Word := (v.setWidth 16).signExtend 32

end Sys2Proof.Machine
end

