-- ==== Sys2Proof/Machine/Branch.lean ====
section
/-! DEFINITION. Branch operations (40_branch.md). A taken branch goes to `pc + offset`, another to
`pc + 4`; a branch writes nothing else (R150). -/

namespace Sys2Proof.Machine

/-- BNE (R153). -/
def execBne (rs1 rs2 : RegNum) (offset : BitVec 13) (s : State) : Result :=
  branch (fun a b => a != b) rs1 rs2 offset s

/-- BEQ (R154). -/
def execBeq (rs1 rs2 : RegNum) (offset : BitVec 13) (s : State) : Result :=
  branch (fun a b => a == b) rs1 rs2 offset s

/-- BLT (R155). -/
def execBlt (rs1 rs2 : RegNum) (offset : BitVec 13) (s : State) : Result :=
  branch lessSigned rs1 rs2 offset s

/-- BGE (R156). -/
def execBge (rs1 rs2 : RegNum) (offset : BitVec 13) (s : State) : Result :=
  branch (fun a b => !lessSigned a b) rs1 rs2 offset s

/-- BLTU (R157). -/
def execBltu (rs1 rs2 : RegNum) (offset : BitVec 13) (s : State) : Result :=
  branch lessUnsigned rs1 rs2 offset s

/-- BGEU (R158). -/
def execBgeu (rs1 rs2 : RegNum) (offset : BitVec 13) (s : State) : Result :=
  branch (fun a b => !lessUnsigned a b) rs1 rs2 offset s

end Sys2Proof.Machine
end

