-- ==== Sys2Proof/Machine/Integer.lean ====
section
/-! DEFINITION. Integer operations (41_integer.md). All arithmetic is modulo 2^32, without a trap or a
flag (R170). -/

namespace Sys2Proof.Machine

/-- AUIPC (R172): `pc` is the address of the AUIPC itself. -/
def execAuipc (rd : RegNum) (imm20 : BitVec 20) (s : State) : Result :=
  writeResult rd (s.pc + upperWord imm20) s

/-- SLT (R173). -/
def execSlt (rd rs1 rs2 : RegNum) (s : State) : Result :=
  binary (fun a b => boolWord (lessSigned a b)) rd rs1 rs2 s

/-- SLTU (R174). -/
def execSltu (rd rs1 rs2 : RegNum) (s : State) : Result :=
  binary (fun a b => boolWord (lessUnsigned a b)) rd rs1 rs2 s

/-- SLTI (R175). -/
def execSlti (rd rs1 : RegNum) (imm : BitVec 12) (s : State) : Result :=
  binaryImm (fun a b => boolWord (lessSigned a b)) rd rs1 imm s

/-- SLTIU (R176): the immediate is sign-extended, then compared unsigned. -/
def execSltiu (rd rs1 : RegNum) (imm : BitVec 12) (s : State) : Result :=
  binaryImm (fun a b => boolWord (lessUnsigned a b)) rd rs1 imm s

/-- LUI (R177). -/
def execLui (rd : RegNum) (imm20 : BitVec 20) (s : State) : Result :=
  writeResult rd (upperWord imm20) s

/-- ADD (R178). -/
def execAdd (rd rs1 rs2 : RegNum) (s : State) : Result := binary (· + ·) rd rs1 rs2 s

/-- SUB (R179). -/
def execSub (rd rs1 rs2 : RegNum) (s : State) : Result := binary (· - ·) rd rs1 rs2 s

/-- ADDI (R180). -/
def execAddi (rd rs1 : RegNum) (imm : BitVec 12) (s : State) : Result :=
  binaryImm (· + ·) rd rs1 imm s

end Sys2Proof.Machine
end

