-- ==== Sys2Proof/Machine/Jump.lean ====
section
/-! DEFINITION. Jump operations (42_jump.md). -/

namespace Sys2Proof.Machine

/-- JAL (R190). -/
def execJal (rd : RegNum) (offset : BitVec 21) (s : State) : Result :=
  jumpTo (s.pc + offset.signExtend 32) (fun t => t.setX rd (s.pc + 4)) s

/-- JALR (R191): the target is made from the old `rs1`, and its bit 0 is cleared. -/
def execJalr (rd rs1 : RegNum) (offset : BitVec 12) (s : State) : Result :=
  jumpTo ((s.getX rs1 + immWord offset) &&& 0xFFFFFFFE) (fun t => t.setX rd (s.pc + 4)) s

end Sys2Proof.Machine
end

