-- ==== Sys2Proof/Machine/Logical.lean ====
section
/-! DEFINITION. Logical operations (43_logical.md), bit by bit over 32 bits (R200). -/

namespace Sys2Proof.Machine

/-- XOR (R201). -/
def execXor (rd rs1 rs2 : RegNum) (s : State) : Result := binary (· ^^^ ·) rd rs1 rs2 s

/-- OR (R202). -/
def execOr (rd rs1 rs2 : RegNum) (s : State) : Result := binary (· ||| ·) rd rs1 rs2 s

/-- AND (R203). -/
def execAnd (rd rs1 rs2 : RegNum) (s : State) : Result := binary (· &&& ·) rd rs1 rs2 s

/-- ORI (R204). -/
def execOri (rd rs1 : RegNum) (imm : BitVec 12) (s : State) : Result :=
  binaryImm (· ||| ·) rd rs1 imm s

/-- XORI (R205). -/
def execXori (rd rs1 : RegNum) (imm : BitVec 12) (s : State) : Result :=
  binaryImm (· ^^^ ·) rd rs1 imm s

/-- ANDI (R206). -/
def execAndi (rd rs1 : RegNum) (imm : BitVec 12) (s : State) : Result :=
  binaryImm (· &&& ·) rd rs1 imm s

end Sys2Proof.Machine
end

