-- ==== Sys2Proof/Machine/MemoryOps.lean ====
section
/-! DEFINITION. Memory operations (44_memory_ops.md). A word that memRead returns is already
zero-extended from the bytes read. -/

namespace Sys2Proof.Machine

/-- SW (R213). -/
def execSw (rs1 rs2 : RegNum) (offset : BitVec 12) (s : State) : Result := store 4 rs1 rs2 offset s

/-- LB (R214). -/
def execLb (rd rs1 : RegNum) (offset : BitVec 12) (s : State) : Result := load 1 sext8 rd rs1 offset s

/-- LH (R215). -/
def execLh (rd rs1 : RegNum) (offset : BitVec 12) (s : State) : Result := load 2 sext16 rd rs1 offset s

/-- LW (R216). -/
def execLw (rd rs1 : RegNum) (offset : BitVec 12) (s : State) : Result := load 4 id rd rs1 offset s

/-- LBU (R217). -/
def execLbu (rd rs1 : RegNum) (offset : BitVec 12) (s : State) : Result := load 1 id rd rs1 offset s

/-- LHU (R218). -/
def execLhu (rd rs1 : RegNum) (offset : BitVec 12) (s : State) : Result := load 2 id rd rs1 offset s

/-- SB (R219). -/
def execSb (rs1 rs2 : RegNum) (offset : BitVec 12) (s : State) : Result := store 1 rs1 rs2 offset s

/-- SH (R220). -/
def execSh (rs1 rs2 : RegNum) (offset : BitVec 12) (s : State) : Result := store 2 rs1 rs2 offset s

end Sys2Proof.Machine
end

