-- ==== Sys2Proof/Machine/Shift.lean ====
section
/-! DEFINITION. Shift operations (45_shift.md). The amount is always 0 to 31 (R230). -/

namespace Sys2Proof.Machine

/-- SRAI (R232). -/
def execSrai (rd rs1 : RegNum) (shamt : BitVec 5) (s : State) : Result :=
  writeResult rd (shrA (s.getX rs1) shamt) s

/-- SLLI (R233). -/
def execSlli (rd rs1 : RegNum) (shamt : BitVec 5) (s : State) : Result :=
  writeResult rd (shl (s.getX rs1) shamt) s

/-- SRA (R234). -/
def execSra (rd rs1 rs2 : RegNum) (s : State) : Result :=
  binary (fun a b => shrA a (shiftAmount b)) rd rs1 rs2 s

/-- SRL (R235). -/
def execSrl (rd rs1 rs2 : RegNum) (s : State) : Result :=
  binary (fun a b => shrL a (shiftAmount b)) rd rs1 rs2 s

/-- SLL (R236). -/
def execSll (rd rs1 rs2 : RegNum) (s : State) : Result :=
  binary (fun a b => shl a (shiftAmount b)) rd rs1 rs2 s

/-- SRLI (R237). -/
def execSrli (rd rs1 : RegNum) (shamt : BitVec 5) (s : State) : Result :=
  writeResult rd (shrL (s.getX rs1) shamt) s

end Sys2Proof.Machine
end

