-- ==== Sys2Proof/Machine/Sync.lean ====
section
/-! DEFINITION. Synchronization operations (46_sync.md). -/

namespace Sys2Proof.Machine

/-- FENCEI (R241): the stale set is emptied. -/
def execFencei (s : State) : Result := finish { s with stale := [] }

/-- FENCE (R242): with one agent, whose accesses happen in program order (20_memory.md R100), only `pc`
changes, whatever the sets are; the stale set stays. -/
def execFence (_pred _succ : BitVec 4) (s : State) : Result := finish s

end Sys2Proof.Machine
end

