-- ==== Sys2Proof/Machine/Csr.lean ====
section
/-! DEFINITION. The 38 control and status registers: who may reach them, what a read returns and what a
write does (10_state.md R40 to R66), and the sequence every CSR instruction runs (47_system.md R251). -/

namespace Sys2Proof.Machine

/-- The CSRs of the inventory, in its order (R43). -/
inductive Csr where
  | mstatus | misa | medeleg | mideleg | mie | mtvec | mcounteren
  | mscratch | mepc | mcause | mtval | mip
  | pmpcfg0 | pmpaddr0 | pmpaddr1 | pmpaddr2 | pmpaddr3
  | mcycle | minstret | mhpmcounter3 | mhpmcounter4 | mhpmcounter5
  | mhpmevent3 | mhpmevent4 | mhpmevent5
  | ucycle | uinstret | ucycleh | uinstreth
  | sstatus | sie | stvec | sscratch | sepc | scause | stval | sip | satp
deriving DecidableEq, Repr

/-- The address of a CSR (R43). -/
def Csr.address (c : Csr) : CsrNum :=
  match c with
  | .mstatus => 0x300 | .misa => 0x301 | .medeleg => 0x302 | .mideleg => 0x303
  | .mie => 0x304 | .mtvec => 0x305 | .mcounteren => 0x306
  | .mscratch => 0x340 | .mepc => 0x341 | .mcause => 0x342 | .mtval => 0x343 | .mip => 0x344
  | .pmpcfg0 => 0x3A0
  | .pmpaddr0 => 0x3B0 | .pmpaddr1 => 0x3B1 | .pmpaddr2 => 0x3B2 | .pmpaddr3 => 0x3B3
  | .mcycle => 0xB00 | .minstret => 0xB02
  | .mhpmcounter3 => 0xB03 | .mhpmcounter4 => 0xB04 | .mhpmcounter5 => 0xB05
  | .mhpmevent3 => 0x323 | .mhpmevent4 => 0x324 | .mhpmevent5 => 0x325
  | .ucycle => 0xC00 | .uinstret => 0xC02 | .ucycleh => 0xC80 | .uinstreth => 0xC82
  | .sstatus => 0x100 | .sie => 0x104 | .stvec => 0x105
  | .sscratch => 0x140 | .sepc => 0x141 | .scause => 0x142 | .stval => 0x143
  | .sip => 0x144 | .satp => 0x180

/-- Every CSR of the inventory. -/
def allCsrs : List Csr :=
  [.mstatus, .misa, .medeleg, .mideleg, .mie, .mtvec, .mcounteren,
   .mscratch, .mepc, .mcause, .mtval, .mip,
   .pmpcfg0, .pmpaddr0, .pmpaddr1, .pmpaddr2, .pmpaddr3,
   .mcycle, .minstret, .mhpmcounter3, .mhpmcounter4, .mhpmcounter5,
   .mhpmevent3, .mhpmevent4, .mhpmevent5,
   .ucycle, .uinstret, .ucycleh, .uinstreth,
   .sstatus, .sie, .stvec, .sscratch, .sepc, .scause, .stval, .sip, .satp]

/-- The CSR at an address, if the inventory has one (R40: other addresses are unimplemented). -/
def csrAt (a : CsrNum) : Option Csr := allCsrs.find? fun c => c.address == a

/-- `a[9:8]`: the lowest mode that may reach the CSR (R42). -/
def csrLevel (a : CsrNum) : BitVec 2 := a.extractLsb' 8 2

/-- `a[11:10] = 3`: the CSR is read-only (R42). -/
def csrReadOnly (a : CsrNum) : Bool := a.extractLsb' 10 2 == 3#2

/-- The gate of `mcounteren` on the user counters, for modes below M (R42, R49). -/
def counterOpen (c : Csr) (s : State) : Bool :=
  match c with
  | .ucycle | .ucycleh => s.priv == .machine || cycleEnabled s.csr.mcounteren
  | .uinstret | .uinstreth => s.priv == .machine || instretEnabled s.csr.mcounteren
  | .mstatus | .misa | .medeleg | .mideleg | .mie | .mtvec | .mcounteren
  | .mscratch | .mepc | .mcause | .mtval | .mip
  | .pmpcfg0 | .pmpaddr0 | .pmpaddr1 | .pmpaddr2 | .pmpaddr3
  | .mcycle | .minstret | .mhpmcounter3 | .mhpmcounter4 | .mhpmcounter5
  | .mhpmevent3 | .mhpmevent4 | .mhpmevent5
  | .sstatus | .sie | .stvec | .sscratch | .sepc | .scause | .stval | .sip | .satp => true

/-- `csr_check` (R42): the CSR when the access is allowed, else nothing (Illegal instruction). -/
def csrCheck (a : CsrNum) (willWrite : Bool) (s : State) : Option Csr :=
  match csrAt a with
  | none => none
  | some c =>
    if s.priv.enc < csrLevel a then none
    else if willWrite && csrReadOnly a then none
    else if !counterOpen c s then none
    else some c

/-- Bring a free-running counter up to the moment it is read: it has advanced by a free amount since it
was last read or written (R55, R57, R59; log 7, log 8). Other CSRs: nothing to do. -/
def csrObserve (c : Csr) (s : State) : State :=
  match c with
  | .mcycle | .ucycle | .ucycleh =>
    { s with cycle := s.cycle + Config.cycleAdvance s.draws, draws := s.draws + 1 }
  | .mhpmcounter3 =>
    { s with
      csr := { s.csr with mhpmcounter3 := s.csr.mhpmcounter3 + Config.hpmAdvance 3 s.draws }
      draws := s.draws + 1 }
  | .mhpmcounter4 =>
    { s with
      csr := { s.csr with mhpmcounter4 := s.csr.mhpmcounter4 + Config.hpmAdvance 4 s.draws }
      draws := s.draws + 1 }
  | .mhpmcounter5 =>
    { s with
      csr := { s.csr with mhpmcounter5 := s.csr.mhpmcounter5 + Config.hpmAdvance 5 s.draws }
      draws := s.draws + 1 }
  | .mstatus | .misa | .medeleg | .mideleg | .mie | .mtvec | .mcounteren
  | .mscratch | .mepc | .mcause | .mtval | .mip
  | .pmpcfg0 | .pmpaddr0 | .pmpaddr1 | .pmpaddr2 | .pmpaddr3
  | .minstret | .mhpmevent3 | .mhpmevent4 | .mhpmevent5
  | .uinstret | .uinstreth
  | .sstatus | .sie | .stvec | .sscratch | .sepc | .scause | .stval | .sip | .satp => s

/-- `CSR[c]`: the value a read returns, once a free-running counter is up to date (R41, R44 to R66). -/
def csrRead (c : Csr) (s : State) : Word :=
  match c with
  | .mstatus => s.csr.mstatus
  | .misa => s.csr.misa
  | .medeleg => s.csr.medeleg
  | .mideleg => s.csr.mideleg
  | .mie => s.csr.mie
  | .mtvec => s.csr.mtvec
  | .mcounteren => s.csr.mcounteren
  | .mscratch => s.csr.mscratch
  | .mepc => s.csr.mepc
  | .mcause => s.csr.mcause
  | .mtval => s.csr.mtval
  | .mip => s.csr.mip
  | .pmpcfg0 => s.csr.pmpcfg0
  | .pmpaddr0 => s.csr.pmpaddr0
  | .pmpaddr1 => s.csr.pmpaddr1
  | .pmpaddr2 => s.csr.pmpaddr2
  | .pmpaddr3 => s.csr.pmpaddr3
  | .mcycle | .ucycle => s.cycle.extractLsb' 0 32
  | .ucycleh => s.cycle.extractLsb' 32 32
  | .minstret | .uinstret => s.instret.extractLsb' 0 32
  | .uinstreth => s.instret.extractLsb' 32 32
  | .mhpmcounter3 => s.csr.mhpmcounter3
  | .mhpmcounter4 => s.csr.mhpmcounter4
  | .mhpmcounter5 => s.csr.mhpmcounter5
  | .mhpmevent3 => s.csr.mhpmevent3
  | .mhpmevent4 => s.csr.mhpmevent4
  | .mhpmevent5 => s.csr.mhpmevent5
  | .sstatus => s.csr.sstatus
  | .sie => s.csr.sie
  | .stvec => s.csr.stvec
  | .sscratch => s.csr.sscratch
  | .sepc => s.csr.sepc
  | .scause => s.csr.scause
  | .stval => s.csr.stval
  | .sip => s.csr.sip
  | .satp => s.csr.satp

/-- `CSR[c] <- v` (R41): all 32 bits of a storage CSR (D19), the low half of a counter (R55, R56),
nothing for `misa` (R45) and for the read-only views, which `csrCheck` lets no write reach (R59, R60). -/
def csrWrite (c : Csr) (v : Word) (s : State) : State :=
  match c with
  | .mstatus => { s with csr := { s.csr with mstatus := v } }
  | .misa => s
  | .medeleg => { s with csr := { s.csr with medeleg := v } }
  | .mideleg => { s with csr := { s.csr with mideleg := v } }
  | .mie => { s with csr := { s.csr with mie := v } }
  | .mtvec => { s with csr := { s.csr with mtvec := v } }
  | .mcounteren => { s with csr := { s.csr with mcounteren := v } }
  | .mscratch => { s with csr := { s.csr with mscratch := v } }
  | .mepc => { s with csr := { s.csr with mepc := v } }
  | .mcause => { s with csr := { s.csr with mcause := v } }
  | .mtval => { s with csr := { s.csr with mtval := v } }
  | .mip => { s with csr := { s.csr with mip := v } }
  | .pmpcfg0 => { s with csr := { s.csr with pmpcfg0 := v } }
  | .pmpaddr0 => { s with csr := { s.csr with pmpaddr0 := v } }
  | .pmpaddr1 => { s with csr := { s.csr with pmpaddr1 := v } }
  | .pmpaddr2 => { s with csr := { s.csr with pmpaddr2 := v } }
  | .pmpaddr3 => { s with csr := { s.csr with pmpaddr3 := v } }
  | .mcycle => { s with cycle := s.cycle.extractLsb' 32 32 ++ v }
  | .minstret => { s with instret := s.instret.extractLsb' 32 32 ++ v }
  | .mhpmcounter3 => { s with csr := { s.csr with mhpmcounter3 := v } }
  | .mhpmcounter4 => { s with csr := { s.csr with mhpmcounter4 := v } }
  | .mhpmcounter5 => { s with csr := { s.csr with mhpmcounter5 := v } }
  | .mhpmevent3 => { s with csr := { s.csr with mhpmevent3 := v } }
  | .mhpmevent4 => { s with csr := { s.csr with mhpmevent4 := v } }
  | .mhpmevent5 => { s with csr := { s.csr with mhpmevent5 := v } }
  | .ucycle | .uinstret | .ucycleh | .uinstreth => s
  | .sstatus => { s with csr := { s.csr with sstatus := v } }
  | .sie => { s with csr := { s.csr with sie := v } }
  | .stvec => { s with csr := { s.csr with stvec := v } }
  | .sscratch => { s with csr := { s.csr with sscratch := v } }
  | .sepc => { s with csr := { s.csr with sepc := v } }
  | .scause => { s with csr := { s.csr with scause := v } }
  | .stval => { s with csr := { s.csr with stval := v } }
  | .sip => { s with csr := { s.csr with sip := v } }
  | .satp => { s with csr := { s.csr with satp := v } }

/-- Steps 3 to 6 of R251 once the access is allowed: `update` makes the new value from the old one.
A write of `minstret` suppresses the instruction's own count (R56). -/
def csrCommit (c : Csr) (rd : RegNum) (willWrite : Bool) (update : Word → Word) (s : State) : Result :=
  let s1 := csrObserve c s
  let old := csrRead c s1
  let s2 := if willWrite then csrWrite c (update old) s1 else s1
  let s3 := s2.setX rd old
  if willWrite && c == .minstret then .next (s3.goTo (s3.pc + 4)) else finish s3

/-- The sequence of R251. `word` is the instruction itself, which `mtval` receives when the access is
refused (R263, R295; log 18). -/
def csrAccess (word : Word) (rd : RegNum) (a : CsrNum) (willWrite : Bool) (update : Word → Word)
    (s : State) : Result :=
  match csrCheck a willWrite s with
  | none => raise .illegalInstruction word s
  | some c => csrCommit c rd willWrite update s

end Sys2Proof.Machine
end

