-- ==== Sys2Proof/Machine/System.lean ====
section
/-! DEFINITION. System operations (47_system.md). When each CSR instruction writes is R262. -/

namespace Sys2Proof.Machine

/-- CSRRCI (R265). -/
def execCsrrci (rd : RegNum) (csr : CsrNum) (uimm : BitVec 5) (s : State) : Result :=
  csrAccess (encode (.csrrci rd csr uimm)) rd csr (uimm != 0) (fun old => old &&& ~~~ zimm uimm) s

/-- ECALL (R266): always traps, with the code of the current mode. -/
def execEcall (s : State) : Result := raise (.environmentCall s.priv) 0 s

/-- EBREAK (R267): always traps. -/
def execEbreak (s : State) : Result := raise .breakpoint 0 s

/-- CSRRW (R268). -/
def execCsrrw (rd : RegNum) (csr : CsrNum) (rs1 : RegNum) (s : State) : Result :=
  csrAccess (encode (.csrrw rd csr rs1)) rd csr true (fun _ => s.getX rs1) s

/-- CSRRS (R269). -/
def execCsrrs (rd : RegNum) (csr : CsrNum) (rs1 : RegNum) (s : State) : Result :=
  csrAccess (encode (.csrrs rd csr rs1)) rd csr (rs1 != 0) (fun old => old ||| s.getX rs1) s

/-- CSRRC (R270). -/
def execCsrrc (rd : RegNum) (csr : CsrNum) (rs1 : RegNum) (s : State) : Result :=
  csrAccess (encode (.csrrc rd csr rs1)) rd csr (rs1 != 0) (fun old => old &&& ~~~ s.getX rs1) s

/-- CSRRWI (R271). -/
def execCsrrwi (rd : RegNum) (csr : CsrNum) (uimm : BitVec 5) (s : State) : Result :=
  csrAccess (encode (.csrrwi rd csr uimm)) rd csr true (fun _ => zimm uimm) s

/-- CSRRSI (R272). -/
def execCsrrsi (rd : RegNum) (csr : CsrNum) (uimm : BitVec 5) (s : State) : Result :=
  csrAccess (encode (.csrrsi rd csr uimm)) rd csr (uimm != 0) (fun old => old ||| zimm uimm) s

end Sys2Proof.Machine
end

