-- ==== Sys2Proof/Machine/Fetch.lean ====
section
/-! DEFINITION. Fetching an instruction word (20_memory.md R87, R104), the states the spec asks a model
to refuse, and placing a word where the next fetch finds it. -/

namespace Sys2Proof.Machine

/-- The situations the spec asks a model to refuse before it runs anything: translation or protection
switched on (R54, R66, R96; log 11), or an enabled interrupt pending (R47, R305; log 12). -/
def notDescribed (s : State) : Option Refusal :=
  if s.csr.satp ≠ 0 then some .translationNotDescribed
  else if s.csr.pmpcfg0 ≠ 0 then some .protectionNotDescribed
  else if mieOf s.csr.mstatus && s.csr.mie &&& s.csr.mip != 0 then some .interruptNotDescribed
  else none

/-- Does the fetch at `a` touch a stale byte (R104)? -/
def staleAt (s : State) (a : Word) : Bool := (List.range 4).any fun i => s.stale.contains (a.toNat + i)

/-- `Fetch(pc)`: the word, and the state after it, which differs only when the word is a free value
(R87; R104 and I5: any value; log 9). -/
def fetch (s : State) : Except Exception (Word × State) :=
  if !aligned s.pc 4 then .error .instructionAddressMisaligned
  else if !responds s .fetch s.pc.toNat 4 then .error .instructionAccessFault
  else if staleAt s s.pc then .ok (Config.staleWord s.draws, { s with draws := s.draws + 1 })
  else .ok (ofBytes (Memory.readBytes s.mem s.pc.toNat 4), s)

/-- A word that decodes to no instruction raises Illegal instruction, `mtval` being the word
(30_encoding.md R135; R295). -/
def raiseIllegal (word : Word) (s : State) : Result := raise .illegalInstruction word s

/-- Does the denial keep the four bytes at `a` from being fetched? -/
def Denial.blocksFetch (d : Denial) (a : Nat) : Bool := (List.range 4).any fun i => d.covers .fetch (a + i)

/-- Put an instruction word where the next fetch reads it: `pc` on a multiple of 4 (it stays if it is on
one), the word's bytes there in the machine's byte order, none of them stale or denied to fetch. -/
def placeWord (s : State) (w : Word) : State :=
  let a := s.pc &&& 0xFFFFFFFC
  { s with
    pc := a
    mem := Memory.writeBytes s.mem a.toNat (bytesOf 4 w)
    stale := s.stale.filter fun b => !(decide (a.toNat ≤ b) && decide (b < a.toNat + 4))
    denied := s.denied.filter fun d => !d.blocksFetch a.toNat }

end Sys2Proof.Machine
end

