-- ==== Sys2Proof/Machine/Step.lean ====
section
/-! DEFINITION. One step: fetch, decode, execute, or the trap that takes their place (00_scope.md R15;
60_exceptions.md R285). -/

namespace Sys2Proof.Machine

/-- One step of the machine. A state the spec asks a model to refuse is refused before anything runs
(R54, R66, R305). -/
def step (s : State) : Host.Outcome State Fault Refusal :=
  match notDescribed s with
  | some r => .refused r
  | none =>
    match fetch s with
    | .error e => raise e s.pc s
    | .ok (word, s') =>
      match decode word with
      | .error _ => raiseIllegal word s'
      | .ok i => exec i s'

/-- `s` with the opcode-table word `w` stored where the next step fetches its instruction (log 19). -/
def State.withFetchWord (s : State) (nbits w : Nat) : State := placeWord s (tableWord nbits w)

end Sys2Proof.Machine
end

