-- ==== Sys2Proof/Machine/Asm.lean ====
section
/-! DEFINITION. The assembler's side of the instruction set: mnemonics and operand lines (30_encoding.md
R140), the pseudo-instructions and their expansions (R141, R142), and the ABI's names (10_state.md R22).
The hardware sees none of it (R141; 00_scope.md R18). -/

namespace Sys2Proof

/-- The mnemonic, in the capitals of the opcode table (R140). -/
def Instr.mnemonic (i : Instr) : String :=
  match i with
  | .add _ _ _ => "ADD"
  | .sub _ _ _ => "SUB"
  | .sll _ _ _ => "SLL"
  | .slt _ _ _ => "SLT"
  | .sltu _ _ _ => "SLTU"
  | .xor _ _ _ => "XOR"
  | .srl _ _ _ => "SRL"
  | .sra _ _ _ => "SRA"
  | .or _ _ _ => "OR"
  | .and _ _ _ => "AND"
  | .addi _ _ _ => "ADDI"
  | .slti _ _ _ => "SLTI"
  | .sltiu _ _ _ => "SLTIU"
  | .xori _ _ _ => "XORI"
  | .ori _ _ _ => "ORI"
  | .andi _ _ _ => "ANDI"
  | .slli _ _ _ => "SLLI"
  | .srli _ _ _ => "SRLI"
  | .srai _ _ _ => "SRAI"
  | .lb _ _ _ => "LB"
  | .lh _ _ _ => "LH"
  | .lw _ _ _ => "LW"
  | .lbu _ _ _ => "LBU"
  | .lhu _ _ _ => "LHU"
  | .sb _ _ _ => "SB"
  | .sh _ _ _ => "SH"
  | .sw _ _ _ => "SW"
  | .beq _ _ _ => "BEQ"
  | .bne _ _ _ => "BNE"
  | .blt _ _ _ => "BLT"
  | .bge _ _ _ => "BGE"
  | .bltu _ _ _ => "BLTU"
  | .bgeu _ _ _ => "BGEU"
  | .lui _ _ => "LUI"
  | .auipc _ _ => "AUIPC"
  | .jal _ _ => "JAL"
  | .jalr _ _ _ => "JALR"
  | .fence _ _ => "FENCE"
  | .fencei => "FENCEI"
  | .ecall => "ECALL"
  | .ebreak => "EBREAK"
  | .csrrw _ _ _ => "CSRRW"
  | .csrrs _ _ _ => "CSRRS"
  | .csrrc _ _ _ => "CSRRC"
  | .csrrwi _ _ _ => "CSRRWI"
  | .csrrsi _ _ _ => "CSRRSI"
  | .csrrci _ _ _ => "CSRRCI"

/-- A register operand, x0 to x31 (R140). -/
def regText (r : RegNum) : String := "x" ++ toString r.toNat

/-- A signed operand (R140). -/
def signedText {n : Nat} (v : BitVec n) : String := toString v.toInt

/-- An unsigned operand (R140). -/
def unsignedText {n : Nat} (v : BitVec n) : String := toString v.toNat

/-- The subset of `iorw` a fence names, from bit 3 down (R127; log 24); `0` for none. -/
def fenceSetText (v : BitVec 4) : String :=
  if v = 0 then "0"
  else (if v.getLsbD 3 then "i" else "") ++ (if v.getLsbD 2 then "o" else "")
    ++ (if v.getLsbD 1 then "r" else "") ++ (if v.getLsbD 0 then "w" else "")

/-- The operands, in the order of the assembler's operand lines (R140); a label is written as its
displacement (log 25). -/
def Instr.operands (i : Instr) : List String :=
  match i with
  | .add rd rs1 rs2 => [regText rd, regText rs1, regText rs2]
  | .sub rd rs1 rs2 => [regText rd, regText rs1, regText rs2]
  | .sll rd rs1 rs2 => [regText rd, regText rs1, regText rs2]
  | .slt rd rs1 rs2 => [regText rd, regText rs1, regText rs2]
  | .sltu rd rs1 rs2 => [regText rd, regText rs1, regText rs2]
  | .xor rd rs1 rs2 => [regText rd, regText rs1, regText rs2]
  | .srl rd rs1 rs2 => [regText rd, regText rs1, regText rs2]
  | .sra rd rs1 rs2 => [regText rd, regText rs1, regText rs2]
  | .or rd rs1 rs2 => [regText rd, regText rs1, regText rs2]
  | .and rd rs1 rs2 => [regText rd, regText rs1, regText rs2]
  | .addi rd rs1 imm => [regText rd, regText rs1, signedText imm]
  | .slti rd rs1 imm => [regText rd, regText rs1, signedText imm]
  | .sltiu rd rs1 imm => [regText rd, regText rs1, signedText imm]
  | .xori rd rs1 imm => [regText rd, regText rs1, signedText imm]
  | .ori rd rs1 imm => [regText rd, regText rs1, signedText imm]
  | .andi rd rs1 imm => [regText rd, regText rs1, signedText imm]
  | .slli rd rs1 shamt => [regText rd, regText rs1, unsignedText shamt]
  | .srli rd rs1 shamt => [regText rd, regText rs1, unsignedText shamt]
  | .srai rd rs1 shamt => [regText rd, regText rs1, unsignedText shamt]
  | .lb rd rs1 offset => [regText rd, signedText offset ++ "(" ++ regText rs1 ++ ")"]
  | .lh rd rs1 offset => [regText rd, signedText offset ++ "(" ++ regText rs1 ++ ")"]
  | .lw rd rs1 offset => [regText rd, signedText offset ++ "(" ++ regText rs1 ++ ")"]
  | .lbu rd rs1 offset => [regText rd, signedText offset ++ "(" ++ regText rs1 ++ ")"]
  | .lhu rd rs1 offset => [regText rd, signedText offset ++ "(" ++ regText rs1 ++ ")"]
  | .sb rs1 rs2 offset => [regText rs2, signedText offset ++ "(" ++ regText rs1 ++ ")"]
  | .sh rs1 rs2 offset => [regText rs2, signedText offset ++ "(" ++ regText rs1 ++ ")"]
  | .sw rs1 rs2 offset => [regText rs2, signedText offset ++ "(" ++ regText rs1 ++ ")"]
  | .beq rs1 rs2 offset => [regText rs1, regText rs2, signedText offset]
  | .bne rs1 rs2 offset => [regText rs1, regText rs2, signedText offset]
  | .blt rs1 rs2 offset => [regText rs1, regText rs2, signedText offset]
  | .bge rs1 rs2 offset => [regText rs1, regText rs2, signedText offset]
  | .bltu rs1 rs2 offset => [regText rs1, regText rs2, signedText offset]
  | .bgeu rs1 rs2 offset => [regText rs1, regText rs2, signedText offset]
  | .lui rd imm20 => [regText rd, unsignedText imm20]
  | .auipc rd imm20 => [regText rd, unsignedText imm20]
  | .jal rd offset => [regText rd, signedText offset]
  | .jalr rd rs1 offset => [regText rd, regText rs1, signedText offset]
  | .fence pred succ => [fenceSetText pred, fenceSetText succ]
  | .fencei => []
  | .ecall => []
  | .ebreak => []
  | .csrrw rd csr rs1 => [regText rd, unsignedText csr, regText rs1]
  | .csrrs rd csr rs1 => [regText rd, unsignedText csr, regText rs1]
  | .csrrc rd csr rs1 => [regText rd, unsignedText csr, regText rs1]
  | .csrrwi rd csr uimm => [regText rd, unsignedText csr, unsignedText uimm]
  | .csrrsi rd csr uimm => [regText rd, unsignedText csr, unsignedText uimm]
  | .csrrci rd csr uimm => [regText rd, unsignedText csr, unsignedText uimm]

/-! ### Pseudo-instructions (R141) -/

/-- NOP: no operation. -/
def pseudoNop : Instr := .addi 0 0 0
/-- MV rd, rs: copy register. -/
def pseudoMv (rd rs : RegNum) : Instr := .addi rd rs 0
/-- NOT rd, rs: bitwise NOT. -/
def pseudoNot (rd rs : RegNum) : Instr := .xori rd rs (-1)
/-- NEG rd, rs: negate register. -/
def pseudoNeg (rd rs : RegNum) : Instr := .sub rd 0 rs
/-- RET: return from subroutine. -/
def pseudoRet : Instr := .jalr 0 1 0
/-- J label: unconditional jump. -/
def pseudoJ (offset : BitVec 21) : Instr := .jal 0 offset
/-- JR rs: jump register. -/
def pseudoJr (rs : RegNum) : Instr := .jalr 0 rs 0

/-- `hi`: the upper 20 bits, rounded so that adding the sign-extended `lo` restores the value (R142). -/
def hiPart (v : Word) : BitVec 20 := (v + 0x800).extractLsb' 12 20
/-- `lo`: the low 12 bits (R142). -/
def loPart (v : Word) : BitVec 12 := v.extractLsb' 0 12

/-- LI rd, imm: the customary expansion (R142, D30; log 25). -/
def pseudoLi (rd : RegNum) (imm : Word) : List Instr :=
  if -2048 ≤ imm.toInt ∧ imm.toInt ≤ 2047 then [.addi rd 0 (loPart imm)]
  else if loPart imm = 0 then [.lui rd (hiPart imm)]
  else [.lui rd (hiPart imm), .addi rd rd (loPart imm)]

/-- LA rd, label: the customary expansion, `delta` being the label's distance from the AUIPC (R142). -/
def pseudoLa (rd : RegNum) (delta : Word) : List Instr :=
  [.auipc rd (hiPart delta), .addi rd rd (loPart delta)]

/-- CALL label: the customary expansion (R142). -/
def pseudoCall (delta : Word) : List Instr :=
  [.auipc 1 (hiPart delta), .jalr 1 1 (loPart delta)]

/-! ### ABI names (10_state.md R22); no effect on hardware (R18) -/

/-- What the two ABI tables say of a register: its name, whether table 1 calls it callee-saved, whether
table 2 calls it caller-saved, and whether it carries an argument. -/
structure AbiRow where
  name : String
  calleeSaved : Bool
  callerSaved : Bool
  argument : Bool
deriving DecidableEq, Repr

/-- x0 to x31, in order. -/
def abiTable : List AbiRow :=
  [⟨"zero", false, false, false⟩, ⟨"ra", false, false, false⟩,
   ⟨"sp", true, false, false⟩, ⟨"gp", true, false, false⟩,
   ⟨"tp", true, false, false⟩, ⟨"t0", false, true, false⟩,
   ⟨"t1", false, true, false⟩, ⟨"t2", false, true, false⟩,
   ⟨"s0", true, false, false⟩, ⟨"s1", true, false, false⟩,
   ⟨"a0", false, true, true⟩, ⟨"a1", false, true, true⟩,
   ⟨"a2", false, true, true⟩, ⟨"a3", false, true, true⟩,
   ⟨"a4", false, true, true⟩, ⟨"a5", false, true, true⟩,
   ⟨"a6", false, true, true⟩, ⟨"a7", false, true, true⟩,
   ⟨"s2", true, false, false⟩, ⟨"s3", true, false, false⟩,
   ⟨"s4", true, false, false⟩, ⟨"s5", true, false, false⟩,
   ⟨"s6", true, false, false⟩, ⟨"s7", true, false, false⟩,
   ⟨"s8", true, false, false⟩, ⟨"s9", true, false, false⟩,
   ⟨"s10", true, false, false⟩, ⟨"s11", true, false, false⟩,
   ⟨"t3", false, true, false⟩, ⟨"t4", false, true, false⟩,
   ⟨"t5", false, true, false⟩, ⟨"t6", false, true, false⟩]

end Sys2Proof
end

