-- ==== Sys2Proof/WellFormed.lean ====
section
/-! DEFINITION. Which terms of Instr an encoding exists for. Register numbers, immediates, shift
amounts, CSR addresses and fence sets are as wide as their fields, so every value of them is encodable;
the one check left is that bit 0 of a branch or JAL displacement is 0 (30_encoding.md R122, R124). -/

namespace Sys2Proof

/-- `i` has an encoding (R122: "bit 0 always 0"; R124 the same). -/
def Instr.wellFormed (i : Instr) : Bool :=
  match i with
  | .beq _ _ offset | .bne _ _ offset | .blt _ _ offset
  | .bge _ _ offset | .bltu _ _ offset | .bgeu _ _ offset => !offset.getLsbD 0
  | .jal _ offset => !offset.getLsbD 0
  | .add _ _ _ | .sub _ _ _ | .sll _ _ _ | .slt _ _ _ | .sltu _ _ _
  | .xor _ _ _ | .srl _ _ _ | .sra _ _ _ | .or _ _ _ | .and _ _ _
  | .addi _ _ _ | .slti _ _ _ | .sltiu _ _ _ | .xori _ _ _ | .ori _ _ _ | .andi _ _ _
  | .slli _ _ _ | .srli _ _ _ | .srai _ _ _
  | .lb _ _ _ | .lh _ _ _ | .lw _ _ _ | .lbu _ _ _ | .lhu _ _ _
  | .sb _ _ _ | .sh _ _ _ | .sw _ _ _
  | .lui _ _ | .auipc _ _ | .jalr _ _ _ | .fence _ _ | .fencei | .ecall | .ebreak
  | .csrrw _ _ _ | .csrrs _ _ _ | .csrrc _ _ _
  | .csrrwi _ _ _ | .csrrsi _ _ _ | .csrrci _ _ _ => true

end Sys2Proof
end

