-- ==== Sys2Proof/Safety.lean ====
section
/-! DEFINITION. The words claims are made in: what an instruction may leave changed, what a good state
is, and how a run ends. -/

namespace Sys2Proof

/-- A row of the opcode table: the words with `word &&& mask = pattern` are the instruction's. -/
structure OpcodeRow where
  mnemonic : String
  pattern : Word
  mask : Word
deriving DecidableEq, Repr

/-- The opcode table, in its order (30_encoding.md R130 to R133; spec/opcode_table.json). -/
def opcodeTable : List OpcodeRow :=
  [⟨"ADD", 0x00000033, 0xFE00707F⟩,
   ⟨"SUB", 0x40000033, 0xFE00707F⟩,
   ⟨"SLL", 0x00001033, 0xFE00707F⟩,
   ⟨"SLT", 0x00002033, 0xFE00707F⟩,
   ⟨"SLTU", 0x00003033, 0xFE00707F⟩,
   ⟨"XOR", 0x00004033, 0xFE00707F⟩,
   ⟨"SRL", 0x00005033, 0xFE00707F⟩,
   ⟨"SRA", 0x40005033, 0xFE00707F⟩,
   ⟨"OR", 0x00006033, 0xFE00707F⟩,
   ⟨"AND", 0x00007033, 0xFE00707F⟩,
   ⟨"ADDI", 0x00000013, 0x0000707F⟩,
   ⟨"SLTI", 0x00002013, 0x0000707F⟩,
   ⟨"SLTIU", 0x00003013, 0x0000707F⟩,
   ⟨"XORI", 0x00004013, 0x0000707F⟩,
   ⟨"ORI", 0x00006013, 0x0000707F⟩,
   ⟨"ANDI", 0x00007013, 0x0000707F⟩,
   ⟨"SLLI", 0x00001013, 0xFE00707F⟩,
   ⟨"SRLI", 0x00005013, 0xFE00707F⟩,
   ⟨"SRAI", 0x40005013, 0xFE00707F⟩,
   ⟨"LB", 0x00000003, 0x0000707F⟩,
   ⟨"LH", 0x00001003, 0x0000707F⟩,
   ⟨"LW", 0x00002003, 0x0000707F⟩,
   ⟨"LBU", 0x00004003, 0x0000707F⟩,
   ⟨"LHU", 0x00005003, 0x0000707F⟩,
   ⟨"SB", 0x00000023, 0x0000707F⟩,
   ⟨"SH", 0x00001023, 0x0000707F⟩,
   ⟨"SW", 0x00002023, 0x0000707F⟩,
   ⟨"BEQ", 0x00000063, 0x0000707F⟩,
   ⟨"BNE", 0x00001063, 0x0000707F⟩,
   ⟨"BLT", 0x00004063, 0x0000707F⟩,
   ⟨"BGE", 0x00005063, 0x0000707F⟩,
   ⟨"BLTU", 0x00006063, 0x0000707F⟩,
   ⟨"BGEU", 0x00007063, 0x0000707F⟩,
   ⟨"LUI", 0x00000037, 0x0000007F⟩,
   ⟨"AUIPC", 0x00000017, 0x0000007F⟩,
   ⟨"JAL", 0x0000006F, 0x0000007F⟩,
   ⟨"JALR", 0x00000067, 0x0000707F⟩,
   ⟨"FENCE", 0x0000000F, 0x0000707F⟩,
   ⟨"FENCEI", 0x0000100F, 0x0000707F⟩,
   ⟨"ECALL", 0x00000073, 0xFFFFFFFF⟩,
   ⟨"EBREAK", 0x00100073, 0xFFFFFFFF⟩,
   ⟨"CSRRW", 0x00001073, 0x0000707F⟩,
   ⟨"CSRRS", 0x00002073, 0x0000707F⟩,
   ⟨"CSRRC", 0x00003073, 0x0000707F⟩,
   ⟨"CSRRWI", 0x00005073, 0x0000707F⟩,
   ⟨"CSRRSI", 0x00006073, 0x0000707F⟩,
   ⟨"CSRRCI", 0x00007073, 0x0000707F⟩]

/-- Every word of this mask and pattern decodes to the instruction `build` makes of the word. -/
def ReadsAs (pattern mask : Word) (build : Word → Instr) : Prop :=
  ∀ w : Word, w &&& mask = pattern → decode w = .ok (build w)

end Sys2Proof

namespace Sys2Proof.Machine

/-! ### What changed and what did not -/

/-- Every general register reads as before. -/
def RegsKept (s t : State) : Prop := ∀ r, t.getX r = s.getX r

/-- Register `rd` reads `v`, unless it is x0; every other register reads as before (10_state.md R21). -/
def RegWritten (s t : State) (rd : RegNum) (v : Word) : Prop :=
  ∀ r, t.getX r = if r = 0#5 then 0 else if r = rd then v else s.getX r

/-- Every byte of memory reads as before. -/
def MemKept (s t : State) : Prop := ∀ a, Memory.read t.mem a = Memory.read s.mem a

/-- Every byte outside the `n` bytes from `a` reads as before. -/
def MemKeptOutside (s t : State) (a n : Nat) : Prop :=
  ∀ b, (b < a ∨ a + n ≤ b) → Memory.read t.mem b = Memory.read s.mem b

/-- Every CSR with storage of its own, the cycle counter, the mode, the platform's answers and the
count of free values are as before. -/
def SystemKept (s t : State) : Prop :=
  t.csr = s.csr ∧ t.cycle = s.cycle ∧ t.priv = s.priv ∧ t.denied = s.denied ∧ t.draws = s.draws

/-- The whole effect of an instruction that writes one register and goes on at `target`, but for the
count of completed instructions (R56), which CompletedInstructionsAreCounted states for all. -/
def OnlyRegWritten (s t : State) (rd : RegNum) (v target : Word) : Prop :=
  RegWritten s t rd v ∧ t.pc = target ∧ MemKept s t ∧ t.stale = s.stale ∧ SystemKept s t

/-- The whole effect of an instruction that only decides where to go on, but for that count. -/
def OnlyPcMoved (s t : State) (target : Word) : Prop :=
  RegsKept s t ∧ t.pc = target ∧ MemKept s t ∧ t.stale = s.stale ∧ SystemKept s t

/-- The effect of a store of `n` bytes at `a`, but for the values stored and that count: nothing else is
written, and exactly the bytes stored become stale (44_memory_ops.md R212). -/
def OnlyStored (s t : State) (a : Word) (n : Nat) : Prop :=
  RegsKept s t ∧ t.pc = s.pc + 4 ∧ MemKeptOutside s t a.toNat n ∧
    (∀ b, b ∈ t.stale ↔ b ∈ s.stale ∨ (a.toNat ≤ b ∧ b < a.toNat + n)) ∧ SystemKept s t

/-- Is the CSR one of the counters, or a view of one, that are not held in `State.csr`? -/
def Csr.isCounterView (c : Csr) : Bool :=
  match c with
  | .mcycle | .minstret | .ucycle | .uinstret | .ucycleh | .uinstreth => true
  | .mstatus | .misa | .medeleg | .mideleg | .mie | .mtvec | .mcounteren
  | .mscratch | .mepc | .mcause | .mtval | .mip
  | .pmpcfg0 | .pmpaddr0 | .pmpaddr1 | .pmpaddr2 | .pmpaddr3
  | .mhpmcounter3 | .mhpmcounter4 | .mhpmcounter5 | .mhpmevent3 | .mhpmevent4 | .mhpmevent5
  | .sstatus | .sie | .stvec | .sscratch | .sepc | .scause | .stval | .sip | .satp => false

/-- The CSR inventory (10_state.md R43), row by row in its order: the address, the register there, and the
storage a read of it returns (R44 to R66; the counters R55, R56, R59, R60). -/
def csrInventory (s : State) : List (CsrNum × Csr × Word) :=
  [(0x300, .mstatus, s.csr.mstatus),
   (0x301, .misa, s.csr.misa),
   (0x302, .medeleg, s.csr.medeleg),
   (0x303, .mideleg, s.csr.mideleg),
   (0x304, .mie, s.csr.mie),
   (0x305, .mtvec, s.csr.mtvec),
   (0x306, .mcounteren, s.csr.mcounteren),
   (0x340, .mscratch, s.csr.mscratch),
   (0x341, .mepc, s.csr.mepc),
   (0x342, .mcause, s.csr.mcause),
   (0x343, .mtval, s.csr.mtval),
   (0x344, .mip, s.csr.mip),
   (0x3A0, .pmpcfg0, s.csr.pmpcfg0),
   (0x3B0, .pmpaddr0, s.csr.pmpaddr0),
   (0x3B1, .pmpaddr1, s.csr.pmpaddr1),
   (0x3B2, .pmpaddr2, s.csr.pmpaddr2),
   (0x3B3, .pmpaddr3, s.csr.pmpaddr3),
   (0xB00, .mcycle, s.cycle.extractLsb' 0 32),
   (0xB02, .minstret, s.instret.extractLsb' 0 32),
   (0xB03, .mhpmcounter3, s.csr.mhpmcounter3),
   (0xB04, .mhpmcounter4, s.csr.mhpmcounter4),
   (0xB05, .mhpmcounter5, s.csr.mhpmcounter5),
   (0x323, .mhpmevent3, s.csr.mhpmevent3),
   (0x324, .mhpmevent4, s.csr.mhpmevent4),
   (0x325, .mhpmevent5, s.csr.mhpmevent5),
   (0xC00, .ucycle, s.cycle.extractLsb' 0 32),
   (0xC02, .uinstret, s.instret.extractLsb' 0 32),
   (0xC80, .ucycleh, s.cycle.extractLsb' 32 32),
   (0xC82, .uinstreth, s.instret.extractLsb' 32 32),
   (0x100, .sstatus, s.csr.sstatus),
   (0x104, .sie, s.csr.sie),
   (0x105, .stvec, s.csr.stvec),
   (0x140, .sscratch, s.csr.sscratch),
   (0x141, .sepc, s.csr.sepc),
   (0x142, .scause, s.csr.scause),
   (0x143, .stval, s.csr.stval),
   (0x144, .sip, s.csr.sip),
   (0x180, .satp, s.csr.satp)]

/-- The whole effect of a CSR instruction on CSR `c` that writes `written` (or nothing), its read having
brought a free-running counter up to date first (47_system.md R251; 10_state.md R45, R55, R56). That 0
follows 2^64 - 1 in the instruction counter is the model's choice (log 27). -/
def CsrEffect (s t : State) (c : Csr) (rd : RegNum) (written : Option Word) : Prop :=
  let s1 := csrObserve c s
  RegWritten s t rd (csrRead c s1) ∧ t.pc = s.pc + 4 ∧
    (∀ d, d.isCounterView = false →
      csrRead d t = if d = c ∧ c ≠ .misa then written.getD (csrRead d s1) else csrRead d s1) ∧
    t.cycle = (if c = .mcycle then s1.cycle.extractLsb' 32 32 ++ written.getD (csrRead c s1)
      else s1.cycle) ∧
    t.instret = (if c = .minstret ∧ written.isSome
      then s.instret.extractLsb' 32 32 ++ written.getD 0 else s.instret + 1) ∧
    MemKept s t ∧ t.stale = s.stale ∧ t.priv = s.priv ∧ t.denied = s.denied ∧ t.draws = s1.draws

/-- The eleven exceptions with their codes, row by row in the source's order (60_exceptions.md R280, its
columns code and name; the last three rows by the mode that runs ECALL). -/
def exceptionCodes : List (Exception × Word) :=
  [(.instructionAddressMisaligned, 0),
   (.instructionAccessFault, 1),
   (.illegalInstruction, 2),
   (.breakpoint, 3),
   (.loadAddressMisaligned, 4),
   (.loadAccessFault, 5),
   (.storeAddressMisaligned, 6),
   (.storeAccessFault, 7),
   (.environmentCall .user, 8),
   (.environmentCall .supervisor, 9),
   (.environmentCall .machine, 11)]

/-- The whole effect of taking exception `e` with trap value `info` (60_exceptions.md R290 to R293). -/
def TrapTaken (s t : State) (e : Exception) (info : Word) : Prop :=
  t.csr.mepc = e.savedPc s.pc ∧ t.csr.mcause = BitVec.ofNat 32 e.code ∧ t.csr.mtval = info ∧
    mppOf t.csr.mstatus = s.priv.enc ∧ mpieOf t.csr.mstatus = mieOf s.csr.mstatus ∧
    mieOf t.csr.mstatus = false ∧
    (∀ i, i ≠ 3 → i ≠ 7 → i ≠ 11 → i ≠ 12 → t.csr.mstatus.getLsbD i = s.csr.mstatus.getLsbD i) ∧
    (∀ d, d ≠ .mepc → d ≠ .mcause → d ≠ .mtval → d ≠ .mstatus → csrRead d t = csrRead d s) ∧
    t.priv = .machine ∧ t.pc = s.csr.mtvec ∧
    RegsKept s t ∧ MemKept s t ∧ t.stale = s.stale ∧ t.cycle = s.cycle ∧ t.instret = s.instret ∧
    t.denied = s.denied ∧ t.draws = s.draws

/-- The instruction raises an exception of its own in this state: a data access misaligned or refused by
the platform (44_memory_ops.md R211, R212), a CSR access refused (47_system.md R263), ECALL and EBREAK
(R266, R267); no other instruction raises one. -/
def raisesIn (i : Instr) (s : State) : Bool :=
  let noLoad (n : Nat) (a : Word) : Bool := !aligned a n || !responds s .load a.toNat n
  let noStore (n : Nat) (a : Word) : Bool := !aligned a n || !responds s .store a.toNat n
  match i with
  | .lb _ rs1 o | .lbu _ rs1 o => noLoad 1 (effectiveAddress s rs1 o)
  | .lh _ rs1 o | .lhu _ rs1 o => noLoad 2 (effectiveAddress s rs1 o)
  | .lw _ rs1 o => noLoad 4 (effectiveAddress s rs1 o)
  | .sb rs1 _ o => noStore 1 (effectiveAddress s rs1 o)
  | .sh rs1 _ o => noStore 2 (effectiveAddress s rs1 o)
  | .sw rs1 _ o => noStore 4 (effectiveAddress s rs1 o)
  | .ecall | .ebreak => true
  | .csrrw _ a _ | .csrrwi _ a _ => (csrCheck a true s).isNone
  | .csrrs _ a r | .csrrc _ a r | .csrrsi _ a r | .csrrci _ a r => (csrCheck a (r != 0#5) s).isNone
  | .add _ _ _ | .sub _ _ _ | .sll _ _ _ | .slt _ _ _ | .sltu _ _ _
  | .xor _ _ _ | .srl _ _ _ | .sra _ _ _ | .or _ _ _ | .and _ _ _
  | .addi _ _ _ | .slti _ _ _ | .sltiu _ _ _ | .xori _ _ _ | .ori _ _ _ | .andi _ _ _
  | .slli _ _ _ | .srli _ _ _ | .srai _ _ _ | .lui _ _ | .auipc _ _ | .jal _ _ | .jalr _ _ _
  | .beq _ _ _ | .bne _ _ _ | .blt _ _ _ | .bge _ _ _ | .bltu _ _ _ | .bgeu _ _ _
  | .fence _ _ | .fencei => false

/-- What the instruction writes to `minstret`: only a CSR instruction of address 0xB02 that writes does
(47_system.md R262, R265, R268 to R272). -/
def minstretWritten (i : Instr) (s : State) : Option Word :=
  let old : Word := s.instret.extractLsb' 0 32
  match i with
  | .csrrw _ a r => if a = 0xB02 then some (s.getX r) else none
  | .csrrs _ a r => if a = 0xB02 ∧ r ≠ 0 then some (old ||| s.getX r) else none
  | .csrrc _ a r => if a = 0xB02 ∧ r ≠ 0 then some (old &&& ~~~ s.getX r) else none
  | .csrrwi _ a u => if a = 0xB02 then some (u.setWidth 32) else none
  | .csrrsi _ a u => if a = 0xB02 ∧ u ≠ 0 then some (old ||| u.setWidth 32) else none
  | .csrrci _ a u => if a = 0xB02 ∧ u ≠ 0 then some (old &&& ~~~ u.setWidth 32) else none
  | .add _ _ _ | .sub _ _ _ | .sll _ _ _ | .slt _ _ _ | .sltu _ _ _
  | .xor _ _ _ | .srl _ _ _ | .sra _ _ _ | .or _ _ _ | .and _ _ _
  | .addi _ _ _ | .slti _ _ _ | .sltiu _ _ _ | .xori _ _ _ | .ori _ _ _ | .andi _ _ _
  | .slli _ _ _ | .srli _ _ _ | .srai _ _ _ | .lui _ _ | .auipc _ _ | .jal _ _ | .jalr _ _ _
  | .lb _ _ _ | .lh _ _ _ | .lw _ _ _ | .lbu _ _ _ | .lhu _ _ _ | .sb _ _ _ | .sh _ _ _ | .sw _ _ _
  | .beq _ _ _ | .bne _ _ _ | .blt _ _ _ | .bge _ _ _ | .bltu _ _ _ | .bgeu _ _ _
  | .fence _ _ | .fencei | .ecall | .ebreak => none

/-- The instruction counter after an instruction (10_state.md R56): a trap does not count, a write of
`minstret` replaces the low half in place of the count, everything else adds one; that 0 follows 2^64 - 1
is the model's choice (log 27). -/
def instretAfter (i : Instr) (s : State) : BitVec 64 :=
  if raisesIn i s then s.instret
  else
    match minstretWritten i s with
    | some v => s.instret.extractLsb' 32 32 ++ v
    | none => s.instret + 1

/-! ### Good states and runs -/

/-- The state's data are in canonical form: memory and the stale set. -/
def Canonical (s : State) : Prop :=
  Memory.wf s.mem = true ∧ staleWf s.stale = true ∧ ∀ a ∈ s.stale, a < 2 ^ 32

/-- The spec gives the next step a meaning (R54, R66, R305). -/
def Described (s : State) : Prop := notDescribed s = none

/-- Run instructions one after another, whatever the `pc` (to say what an expansion does). -/
def execAll (is : List Instr) (s : State) : Result :=
  match is with
  | [] => .next s
  | i :: rest =>
    match exec i s with
    | .next t => execAll rest t
    | .fault r => .fault r
    | .refused r => .refused r

/-- Run until `halted`, at most `n` steps: the open parameter `HALT_CONVENTION` is the argument
(70_reset_and_hazards.md R342, D34; log 20). -/
def runUntil (halted : State → Bool) (n : Nat) (s : State) : Result :=
  match n with
  | 0 => .next s
  | k + 1 =>
    if halted s then .next s
    else
      match step s with
      | .next t => runUntil halted k t
      | .fault r => .fault r
      | .refused r => .refused r

/-- One convention R342 names: the run ends at a jump to itself, the word 0x0000006F. -/
def atSelfJump (s : State) : Bool :=
  decide (ofBytes (Memory.readBytes s.mem s.pc.toNat 4) = 0x0000006F)

end Sys2Proof.Machine
end

