-- ==== Sys2Proof/Certificates/Slice0/Obligations.lean ====
section
/-! DEFINITION. The statements for the provers. A docstring names the rule of spec/ a statement
formalises; where a clause rests on a decision the spec marks as its own (D<n> of 92_eei_decisions.md) or
on a choice of the model (log <n>), the docstring says so. -/

open Sys2Proof Sys2Proof.Machine

/-! ### Encoding -/

/-- The bytes of an encoded well-formed instruction, whatever follows them, decode to it, with every
operand as it was (30_encoding.md; byte order: decision D1). -/
def Obligations.DecodeInvertsEncode : Prop :=
  ∀ (i : Instr) (rest : List Byte), i.wellFormed = true →
    decodeBytes (bytesOf 4 (encode i) ++ rest) = .ok (i, rest)

/-- A word that decodes gives a well-formed instruction whose encoding is that word, but for the bits a
fence ignores (decision D7; log 17), which are encoded as 0. -/
def Obligations.EncodeInvertsDecode : Prop :=
  ∀ (w : Word) (i : Instr), decode w = .ok i →
    i.wellFormed = true ∧
      encode i = if opcodeOf w = 0x0F#7 then
          (if funct3Of w = 0#3 then w &&& 0x0FF0707F#32 else w &&& 0x0000707F#32)
        else w

/-- A word fits a row of the opcode table exactly when it decodes to that row's instruction; so no word
fits two rows, and a word that fits none is illegal (decision D6). -/
def Obligations.DecodeMatchesOpcodeTable : Prop :=
  ∀ row ∈ opcodeTable, ∀ w : Word,
    w &&& row.mask = row.pattern ↔ ∃ i, decode w = .ok i ∧ i.mnemonic = row.mnemonic

/-- Words the spec writes out, one for each format and family, decode as it says. -/
def Obligations.SpecWordsDecode : Prop :=
  decode 0x002081B3 = .ok (.add 3 1 2) ∧ decode 0xFFF30293 = .ok (.addi 5 6 (-1)) ∧
  decode 0x123452B7 = .ok (.lui 5 0x12345) ∧ decode 0x0020C1B3 = .ok (.xor 3 1 2) ∧
  decode 0x40435293 = .ok (.srai 5 6 4) ∧ decode 0xFE209EE3 = .ok (.bne 1 2 (-4)) ∧
  decode 0x7E20CFE3 = .ok (.blt 1 2 4094) ∧ decode 0xFF9FF06F = .ok (.jal 0 (-8)) ∧
  decode 0xFFE280E7 = .ok (.jalr 1 5 (-2)) ∧ decode 0xFFC30283 = .ok (.lb 5 6 (-4)) ∧
  decode 0x7E732E23 = .ok (.sw 6 7 2044) ∧ decode 0x0FF0000F = .ok (.fence 15 15) ∧
  decode 0x00000073 = .ok .ecall ∧ decode 0x300472F3 = .ok (.csrrci 5 0x300 8)

/-- R122, R123, R124: which bit of the word each bit of a branch, U and JAL immediate is, and the range
of the two displacements; beside them the register numbers and the I- and S-type immediates (30_encoding.md,
immediates and operands). -/
def Obligations.ImmediateBitsComeFromTheirFields : Prop :=
  ∀ w : Word,
    ((immBOf w).getLsbD 12 = w.getLsbD 31 ∧ (immBOf w).getLsbD 11 = w.getLsbD 7 ∧
      (∀ k < 6, (immBOf w).getLsbD (5 + k) = w.getLsbD (25 + k)) ∧
      (∀ k < 4, (immBOf w).getLsbD (1 + k) = w.getLsbD (8 + k)) ∧ (immBOf w).getLsbD 0 = false ∧
      -4096 ≤ (immBOf w).toInt ∧ (immBOf w).toInt ≤ 4094) ∧
    (immUOf w ++ 0#12 : Word) = w &&& 0xFFFFF000#32 ∧
    ((immJOf w).getLsbD 20 = w.getLsbD 31 ∧
      (∀ k < 8, (immJOf w).getLsbD (12 + k) = w.getLsbD (12 + k)) ∧
      (immJOf w).getLsbD 11 = w.getLsbD 20 ∧
      (∀ k < 10, (immJOf w).getLsbD (1 + k) = w.getLsbD (21 + k)) ∧ (immJOf w).getLsbD 0 = false ∧
      -1048576 ≤ (immJOf w).toInt ∧ (immJOf w).toInt ≤ 1048574) ∧
    (∀ k < 5, (rdOf w).getLsbD k = w.getLsbD (7 + k) ∧ (rs1Of w).getLsbD k = w.getLsbD (15 + k) ∧
      (rs2Of w).getLsbD k = w.getLsbD (20 + k)) ∧
    (∀ k < 12, (immIOf w).getLsbD k = w.getLsbD (20 + k)) ∧
    (∀ k < 5, (immSOf w).getLsbD k = w.getLsbD (7 + k)) ∧
    (∀ k < 7, (immSOf w).getLsbD (5 + k) = w.getLsbD (25 + k))

/-! ### Integer operations -/

/-- R178, R179: ADD and SUB, encoding and effect; nothing else changes. -/
def Obligations.AddAndSubWriteSumAndDifference : Prop :=
  ReadsAs 0x00000033 0xFE00707F (fun w => .add (rdOf w) (rs1Of w) (rs2Of w)) ∧
  ReadsAs 0x40000033 0xFE00707F (fun w => .sub (rdOf w) (rs1Of w) (rs2Of w)) ∧
  ∀ (rd rs1 rs2 : RegNum) (s : State),
    (∃ t, exec (.add rd rs1 rs2) s = .next t ∧
      OnlyRegWritten s t rd (s.getX rs1 + s.getX rs2) (s.pc + 4)) ∧
    (∃ t, exec (.sub rd rs1 rs2) s = .next t ∧
      OnlyRegWritten s t rd (s.getX rs1 - s.getX rs2) (s.pc + 4))

/-- R173, R174: SLT compares as signed, SLTU as unsigned integers. -/
def Obligations.SltAndSltuWriteComparison : Prop :=
  ReadsAs 0x00002033 0xFE00707F (fun w => .slt (rdOf w) (rs1Of w) (rs2Of w)) ∧
  ReadsAs 0x00003033 0xFE00707F (fun w => .sltu (rdOf w) (rs1Of w) (rs2Of w)) ∧
  ∀ (rd rs1 rs2 : RegNum) (s : State),
    (∃ t, exec (.slt rd rs1 rs2) s = .next t ∧
      OnlyRegWritten s t rd (if (s.getX rs1).toInt < (s.getX rs2).toInt then 1 else 0) (s.pc + 4)) ∧
    (∃ t, exec (.sltu rd rs1 rs2) s = .next t ∧
      OnlyRegWritten s t rd (if (s.getX rs1).toNat < (s.getX rs2).toNat then 1 else 0) (s.pc + 4))

/-- R175, R176: SLTI and SLTIU; both sign-extend the immediate, SLTIU then compares as unsigned. -/
def Obligations.SltiAndSltiuWriteComparison : Prop :=
  ReadsAs 0x00002013 0x0000707F (fun w => .slti (rdOf w) (rs1Of w) (immIOf w)) ∧
  ReadsAs 0x00003013 0x0000707F (fun w => .sltiu (rdOf w) (rs1Of w) (immIOf w)) ∧
  ∀ (rd rs1 : RegNum) (imm : BitVec 12) (s : State),
    (∃ t, exec (.slti rd rs1 imm) s = .next t ∧
      OnlyRegWritten s t rd (if (s.getX rs1).toInt < imm.toInt then 1 else 0) (s.pc + 4)) ∧
    (∃ t, exec (.sltiu rd rs1 imm) s = .next t ∧
      OnlyRegWritten s t rd (if (s.getX rs1).toNat < (imm.signExtend 32).toNat then 1 else 0)
        (s.pc + 4))

/-- R180: ADDI. -/
def Obligations.AddiWritesSumWithImmediate : Prop :=
  ReadsAs 0x00000013 0x0000707F (fun w => .addi (rdOf w) (rs1Of w) (immIOf w)) ∧
  ∀ (rd rs1 : RegNum) (imm : BitVec 12) (s : State),
    ∃ t, exec (.addi rd rs1 imm) s = .next t ∧
      OnlyRegWritten s t rd (s.getX rs1 + imm.signExtend 32) (s.pc + 4)

/-- R177, R172: LUI and AUIPC; AUIPC adds to its own address. -/
def Obligations.LuiAndAuipcWriteUpperImmediate : Prop :=
  ReadsAs 0x00000037 0x0000007F (fun w => .lui (rdOf w) (immUOf w)) ∧
  ReadsAs 0x00000017 0x0000007F (fun w => .auipc (rdOf w) (immUOf w)) ∧
  ∀ (rd : RegNum) (imm20 : BitVec 20) (s : State),
    (∃ t, exec (.lui rd imm20) s = .next t ∧ OnlyRegWritten s t rd (imm20 ++ 0#12) (s.pc + 4)) ∧
    (∃ t, exec (.auipc rd imm20) s = .next t ∧
      OnlyRegWritten s t rd (s.pc + (imm20 ++ 0#12)) (s.pc + 4))

/-! ### Logical operations -/

/-- R201, R202, R203: XOR, OR and AND. -/
def Obligations.XorOrAndCombineRegisters : Prop :=
  ReadsAs 0x00004033 0xFE00707F (fun w => .xor (rdOf w) (rs1Of w) (rs2Of w)) ∧
  ReadsAs 0x00006033 0xFE00707F (fun w => .or (rdOf w) (rs1Of w) (rs2Of w)) ∧
  ReadsAs 0x00007033 0xFE00707F (fun w => .and (rdOf w) (rs1Of w) (rs2Of w)) ∧
  ∀ (rd rs1 rs2 : RegNum) (s : State),
    (∃ t, exec (.xor rd rs1 rs2) s = .next t ∧
      OnlyRegWritten s t rd (s.getX rs1 ^^^ s.getX rs2) (s.pc + 4)) ∧
    (∃ t, exec (.or rd rs1 rs2) s = .next t ∧
      OnlyRegWritten s t rd (s.getX rs1 ||| s.getX rs2) (s.pc + 4)) ∧
    (∃ t, exec (.and rd rs1 rs2) s = .next t ∧
      OnlyRegWritten s t rd (s.getX rs1 &&& s.getX rs2) (s.pc + 4))

/-- R204, R205, R206: ORI, XORI and ANDI, with the sign-extended immediate. -/
def Obligations.OriXoriAndiCombineImmediate : Prop :=
  ReadsAs 0x00006013 0x0000707F (fun w => .ori (rdOf w) (rs1Of w) (immIOf w)) ∧
  ReadsAs 0x00004013 0x0000707F (fun w => .xori (rdOf w) (rs1Of w) (immIOf w)) ∧
  ReadsAs 0x00007013 0x0000707F (fun w => .andi (rdOf w) (rs1Of w) (immIOf w)) ∧
  ∀ (rd rs1 : RegNum) (imm : BitVec 12) (s : State),
    (∃ t, exec (.ori rd rs1 imm) s = .next t ∧
      OnlyRegWritten s t rd (s.getX rs1 ||| imm.signExtend 32) (s.pc + 4)) ∧
    (∃ t, exec (.xori rd rs1 imm) s = .next t ∧
      OnlyRegWritten s t rd (s.getX rs1 ^^^ imm.signExtend 32) (s.pc + 4)) ∧
    (∃ t, exec (.andi rd rs1 imm) s = .next t ∧
      OnlyRegWritten s t rd (s.getX rs1 &&& imm.signExtend 32) (s.pc + 4))

/-! ### Shift operations -/

/-- R236, R235, R234: SLL, SRL and SRA by the low five bits of `rs2`, as numbers. -/
def Obligations.RegisterShiftsMultiplyAndDivide : Prop :=
  ReadsAs 0x00001033 0xFE00707F (fun w => .sll (rdOf w) (rs1Of w) (rs2Of w)) ∧
  ReadsAs 0x00005033 0xFE00707F (fun w => .srl (rdOf w) (rs1Of w) (rs2Of w)) ∧
  ReadsAs 0x40005033 0xFE00707F (fun w => .sra (rdOf w) (rs1Of w) (rs2Of w)) ∧
  ∀ (rd rs1 rs2 : RegNum) (s : State),
    (∃ t, exec (.sll rd rs1 rs2) s = .next t ∧
      OnlyRegWritten s t rd
        (BitVec.ofNat 32 ((s.getX rs1).toNat * 2 ^ ((s.getX rs2).toNat % 32))) (s.pc + 4)) ∧
    (∃ t, exec (.srl rd rs1 rs2) s = .next t ∧
      OnlyRegWritten s t rd
        (BitVec.ofNat 32 ((s.getX rs1).toNat / 2 ^ ((s.getX rs2).toNat % 32))) (s.pc + 4)) ∧
    (∃ t, exec (.sra rd rs1 rs2) s = .next t ∧
      OnlyRegWritten s t rd
        (BitVec.ofInt 32 ((s.getX rs1).toInt / 2 ^ ((s.getX rs2).toNat % 32))) (s.pc + 4))

/-- 45_shift.md, SLLI, SRLI and SRAI, as numbers; where the amount and the function field stand in the
word is the spec's decision D4. -/
def Obligations.ImmediateShiftsMultiplyAndDivide : Prop :=
  ReadsAs 0x00001013 0xFE00707F (fun w => .slli (rdOf w) (rs1Of w) (rs2Of w)) ∧
  ReadsAs 0x00005013 0xFE00707F (fun w => .srli (rdOf w) (rs1Of w) (rs2Of w)) ∧
  ReadsAs 0x40005013 0xFE00707F (fun w => .srai (rdOf w) (rs1Of w) (rs2Of w)) ∧
  ∀ (rd rs1 : RegNum) (shamt : BitVec 5) (s : State),
    (∃ t, exec (.slli rd rs1 shamt) s = .next t ∧
      OnlyRegWritten s t rd (BitVec.ofNat 32 ((s.getX rs1).toNat * 2 ^ shamt.toNat)) (s.pc + 4)) ∧
    (∃ t, exec (.srli rd rs1 shamt) s = .next t ∧
      OnlyRegWritten s t rd (BitVec.ofNat 32 ((s.getX rs1).toNat / 2 ^ shamt.toNat)) (s.pc + 4)) ∧
    (∃ t, exec (.srai rd rs1 shamt) s = .next t ∧
      OnlyRegWritten s t rd (BitVec.ofInt 32 ((s.getX rs1).toInt / 2 ^ shamt.toNat)) (s.pc + 4))

/-! ### Branches and jumps -/

/-- 40_branch.md, BEQ and BNE: where they go on, and that nothing else changes. A taken branch completes
whatever its target: that the fetch reports a misaligned one is the spec's decision D8 (log 14). -/
def Obligations.BeqAndBneBranchOnEquality : Prop :=
  ReadsAs 0x00000063 0x0000707F (fun w => .beq (rs1Of w) (rs2Of w) (immBOf w)) ∧
  ReadsAs 0x00001063 0x0000707F (fun w => .bne (rs1Of w) (rs2Of w) (immBOf w)) ∧
  ∀ (rs1 rs2 : RegNum) (offset : BitVec 13) (s : State),
    (∃ t, exec (.beq rs1 rs2 offset) s = .next t ∧
      OnlyPcMoved s t
        (if s.getX rs1 = s.getX rs2 then s.pc + offset.signExtend 32 else s.pc + 4)) ∧
    (∃ t, exec (.bne rs1 rs2 offset) s = .next t ∧
      OnlyPcMoved s t
        (if s.getX rs1 = s.getX rs2 then s.pc + 4 else s.pc + offset.signExtend 32))

/-- 40_branch.md, BLT and BGE: as signed integers; BGE is taken exactly when BLT is not. Misaligned
targets: decision D8 (log 14). -/
def Obligations.BltAndBgeBranchOnSignedOrder : Prop :=
  ReadsAs 0x00004063 0x0000707F (fun w => .blt (rs1Of w) (rs2Of w) (immBOf w)) ∧
  ReadsAs 0x00005063 0x0000707F (fun w => .bge (rs1Of w) (rs2Of w) (immBOf w)) ∧
  ∀ (rs1 rs2 : RegNum) (offset : BitVec 13) (s : State),
    (∃ t, exec (.blt rs1 rs2 offset) s = .next t ∧
      OnlyPcMoved s t
        (if (s.getX rs1).toInt < (s.getX rs2).toInt then s.pc + offset.signExtend 32
          else s.pc + 4)) ∧
    (∃ t, exec (.bge rs1 rs2 offset) s = .next t ∧
      OnlyPcMoved s t
        (if (s.getX rs1).toInt ≥ (s.getX rs2).toInt then s.pc + offset.signExtend 32
          else s.pc + 4))

/-- 40_branch.md, BLTU and BGEU: as unsigned integers. Misaligned targets: decision D8 (log 14). -/
def Obligations.BltuAndBgeuBranchOnUnsignedOrder : Prop :=
  ReadsAs 0x00006063 0x0000707F (fun w => .bltu (rs1Of w) (rs2Of w) (immBOf w)) ∧
  ReadsAs 0x00007063 0x0000707F (fun w => .bgeu (rs1Of w) (rs2Of w) (immBOf w)) ∧
  ∀ (rs1 rs2 : RegNum) (offset : BitVec 13) (s : State),
    (∃ t, exec (.bltu rs1 rs2 offset) s = .next t ∧
      OnlyPcMoved s t
        (if (s.getX rs1).toNat < (s.getX rs2).toNat then s.pc + offset.signExtend 32
          else s.pc + 4)) ∧
    (∃ t, exec (.bgeu rs1 rs2 offset) s = .next t ∧
      OnlyPcMoved s t
        (if (s.getX rs1).toNat ≥ (s.getX rs2).toNat then s.pc + offset.signExtend 32
          else s.pc + 4))

/-- 42_jump.md, JAL: links and jumps relative to its own address. Misaligned targets: decision D8
(log 14). -/
def Obligations.JalLinksAndJumps : Prop :=
  ReadsAs 0x0000006F 0x0000007F (fun w => .jal (rdOf w) (immJOf w)) ∧
  ∀ (rd : RegNum) (offset : BitVec 21) (s : State),
    ∃ t, exec (.jal rd offset) s = .next t ∧
      OnlyRegWritten s t rd (s.pc + 4) (s.pc + offset.signExtend 32)

/-- 42_jump.md, JALR: jumps to the old `rs1` plus the offset, bit 0 cleared, and links. That the old
value is meant is the spec's decision D2, misaligned targets D8 (log 14). -/
def Obligations.JalrLinksAndJumps : Prop :=
  ReadsAs 0x00000067 0x0000707F (fun w => .jalr (rdOf w) (rs1Of w) (immIOf w)) ∧
  ∀ (rd rs1 : RegNum) (offset : BitVec 12) (s : State),
    ∃ t, exec (.jalr rd rs1 offset) s = .next t ∧
      OnlyRegWritten s t rd (s.pc + 4) ((s.getX rs1 + offset.signExtend 32) &&& ~~~ 1#32)

/-! ### Loads and stores -/

/-- 20_memory.md, effective addresses: the base plus the signed offset, modulo 2^32 (decision D3). -/
def Obligations.EffectiveAddressWraps : Prop :=
  ∀ (s : State) (rs1 : RegNum) (offset : BitVec 12),
    ((effectiveAddress s rs1 offset).toNat : Int) =
      (((s.getX rs1).toNat : Int) + offset.toInt) % 2 ^ 32

/-- R214, R217: LB and LBU read the byte at the effective address, sign- and zero-extended; an address
that does not respond raises Load access fault. -/
def Obligations.ByteLoadsExtendTheByte : Prop :=
  ReadsAs 0x00000003 0x0000707F (fun w => .lb (rdOf w) (rs1Of w) (immIOf w)) ∧
  ReadsAs 0x00004003 0x0000707F (fun w => .lbu (rdOf w) (rs1Of w) (immIOf w)) ∧
  ∀ (rd rs1 : RegNum) (offset : BitVec 12) (s : State),
    let a := effectiveAddress s rs1 offset
    let b := Memory.read s.mem a.toNat
    (responds s .load a.toNat 1 = true →
      (∃ t, exec (.lb rd rs1 offset) s = .next t ∧ OnlyRegWritten s t rd (b.signExtend 32) (s.pc + 4)) ∧
      (∃ t, exec (.lbu rd rs1 offset) s = .next t ∧ OnlyRegWritten s t rd (b.setWidth 32) (s.pc + 4))) ∧
    (responds s .load a.toNat 1 = false →
      exec (.lb rd rs1 offset) s = raise .loadAccessFault a s ∧
      exec (.lbu rd rs1 offset) s = raise .loadAccessFault a s)

/-- 44_memory_ops.md, LH and LHU: the byte order is the spec's decision D1, natural alignment D9, and
that misaligned comes first D11. -/
def Obligations.HalfwordLoadsExtendTheHalfword : Prop :=
  ReadsAs 0x00001003 0x0000707F (fun w => .lh (rdOf w) (rs1Of w) (immIOf w)) ∧
  ReadsAs 0x00005003 0x0000707F (fun w => .lhu (rdOf w) (rs1Of w) (immIOf w)) ∧
  ∀ (rd rs1 : RegNum) (offset : BitVec 12) (s : State),
    let a := effectiveAddress s rs1 offset
    let h : BitVec 16 := Memory.read s.mem (a.toNat + 1) ++ Memory.read s.mem a.toNat
    (a.toNat % 2 = 0 → responds s .load a.toNat 2 = true →
      (∃ t, exec (.lh rd rs1 offset) s = .next t ∧ OnlyRegWritten s t rd (h.signExtend 32) (s.pc + 4)) ∧
      (∃ t, exec (.lhu rd rs1 offset) s = .next t ∧ OnlyRegWritten s t rd (h.setWidth 32) (s.pc + 4))) ∧
    (a.toNat % 2 ≠ 0 →
      exec (.lh rd rs1 offset) s = raise .loadAddressMisaligned a s ∧
      exec (.lhu rd rs1 offset) s = raise .loadAddressMisaligned a s) ∧
    (a.toNat % 2 = 0 → responds s .load a.toNat 2 = false →
      exec (.lh rd rs1 offset) s = raise .loadAccessFault a s ∧
      exec (.lhu rd rs1 offset) s = raise .loadAccessFault a s)

/-- 44_memory_ops.md, LW: decisions D1, D9 and D11 as for LH. -/
def Obligations.WordLoadsReadFourBytes : Prop :=
  ReadsAs 0x00002003 0x0000707F (fun w => .lw (rdOf w) (rs1Of w) (immIOf w)) ∧
  ∀ (rd rs1 : RegNum) (offset : BitVec 12) (s : State),
    let a := effectiveAddress s rs1 offset
    (a.toNat % 4 = 0 → responds s .load a.toNat 4 = true →
      ∃ t, exec (.lw rd rs1 offset) s = .next t ∧
        OnlyRegWritten s t rd
          (Memory.read s.mem (a.toNat + 3) ++ Memory.read s.mem (a.toNat + 2)
            ++ Memory.read s.mem (a.toNat + 1) ++ Memory.read s.mem a.toNat) (s.pc + 4)) ∧
    (a.toNat % 4 ≠ 0 → exec (.lw rd rs1 offset) s = raise .loadAddressMisaligned a s) ∧
    (a.toNat % 4 = 0 → responds s .load a.toNat 4 = false →
      exec (.lw rd rs1 offset) s = raise .loadAccessFault a s)

/-- 44_memory_ops.md, SB: the low byte of `rs2` is stored at the effective address; every other byte reads
as before; an address that does not respond raises Store access fault. That exactly that byte becomes stale
is the spec's decision D29. -/
def Obligations.SbStoresOneByte : Prop :=
  ReadsAs 0x00000023 0x0000707F (fun w => .sb (rs1Of w) (rs2Of w) (immSOf w)) ∧
  ∀ (rs1 rs2 : RegNum) (offset : BitVec 12) (s : State),
    let a := effectiveAddress s rs1 offset
    let v := s.getX rs2
    (responds s .store a.toNat 1 = true →
      ∃ t, exec (.sb rs1 rs2 offset) s = .next t ∧ OnlyStored s t a 1 ∧
        Memory.read t.mem a.toNat = v.extractLsb' 0 8) ∧
    (responds s .store a.toNat 1 = false →
      exec (.sb rs1 rs2 offset) s = raise .storeAccessFault a s)

/-- 44_memory_ops.md, SH: the byte order is the spec's decision D1, natural alignment D9, and that
misaligned comes first D11. -/
def Obligations.ShStoresTwoBytes : Prop :=
  ReadsAs 0x00001023 0x0000707F (fun w => .sh (rs1Of w) (rs2Of w) (immSOf w)) ∧
  ∀ (rs1 rs2 : RegNum) (offset : BitVec 12) (s : State),
    let a := effectiveAddress s rs1 offset
    let v := s.getX rs2
    (a.toNat % 2 = 0 → responds s .store a.toNat 2 = true →
      ∃ t, exec (.sh rs1 rs2 offset) s = .next t ∧ OnlyStored s t a 2 ∧
        Memory.read t.mem a.toNat = v.extractLsb' 0 8 ∧
        Memory.read t.mem (a.toNat + 1) = v.extractLsb' 8 8) ∧
    (a.toNat % 2 ≠ 0 → exec (.sh rs1 rs2 offset) s = raise .storeAddressMisaligned a s) ∧
    (a.toNat % 2 = 0 → responds s .store a.toNat 2 = false →
      exec (.sh rs1 rs2 offset) s = raise .storeAccessFault a s)

/-- 44_memory_ops.md, SW: decisions D1, D9 and D11 as for SH. -/
def Obligations.SwStoresFourBytes : Prop :=
  ReadsAs 0x00002023 0x0000707F (fun w => .sw (rs1Of w) (rs2Of w) (immSOf w)) ∧
  ∀ (rs1 rs2 : RegNum) (offset : BitVec 12) (s : State),
    let a := effectiveAddress s rs1 offset
    let v := s.getX rs2
    (a.toNat % 4 = 0 → responds s .store a.toNat 4 = true →
      ∃ t, exec (.sw rs1 rs2 offset) s = .next t ∧ OnlyStored s t a 4 ∧
        Memory.read t.mem a.toNat = v.extractLsb' 0 8 ∧
        Memory.read t.mem (a.toNat + 1) = v.extractLsb' 8 8 ∧
        Memory.read t.mem (a.toNat + 2) = v.extractLsb' 16 8 ∧
        Memory.read t.mem (a.toNat + 3) = v.extractLsb' 24 8) ∧
    (a.toNat % 4 ≠ 0 → exec (.sw rs1 rs2 offset) s = raise .storeAddressMisaligned a s) ∧
    (a.toNat % 4 = 0 → responds s .store a.toNat 4 = false →
      exec (.sw rs1 rs2 offset) s = raise .storeAccessFault a s)

/-- 20_memory.md, mixed widths: after a word is stored, loads of every width see its bytes (derived by
the spec; byte order: decision D1). -/
def Obligations.LoadsOfEveryWidthSeeTheStoredWord : Prop :=
  ∀ (s : State) (a v : Word), a.toNat % 4 = 0 → responds s .load a.toNat 4 = true →
    memRead (s.storeBytes a 4 v) a 4 = .ok v ∧
    memRead (s.storeBytes a 4 v) a 2 = .ok ((v.extractLsb' 0 16).setWidth 32) ∧
    memRead (s.storeBytes a 4 v) (a + 2) 2 = .ok ((v.extractLsb' 16 16).setWidth 32) ∧
    ∀ i < 4, memRead (s.storeBytes a 4 v) (a + BitVec.ofNat 32 i) 1 =
      .ok ((v.extractLsb' (8 * i) 8).setWidth 32)

/-! ### Synchronization -/

/-- 46_sync.md, FENCE: whatever `pred` and `succ` are, only `pc` moves and the stale set stays (decision
D28; log 21). Which bits of the word they are is the spec's decision D7. -/
def Obligations.FenceOnlyMovesPc : Prop :=
  ReadsAs 0x0000000F 0x0000707F (fun w => .fence (predOf w) (succOf w)) ∧
  (∀ w : Word, ∀ k < 4, (predOf w).getLsbD k = w.getLsbD (24 + k) ∧
    (succOf w).getLsbD k = w.getLsbD (20 + k)) ∧
  ∀ (pred succ : BitVec 4) (s : State),
    ∃ t, exec (.fence pred succ) s = .next t ∧ OnlyPcMoved s t (s.pc + 4)

/-- 46_sync.md, FENCEI: the stale set is emptied and nothing else changes (decision D29). -/
def Obligations.FenceiEmptiesStaleSet : Prop :=
  ReadsAs 0x0000100F 0x0000707F (fun _ => .fencei) ∧
  ∀ s : State, ∃ t, exec .fencei s = .next t ∧ t.stale = [] ∧
    RegsKept s t ∧ t.pc = s.pc + 4 ∧ MemKept s t ∧ SystemKept s t

/-- 46_sync.md: after SW, FENCEI and a jump there, the word fetched is the word stored (decisions D1,
D29; the platform must let the address be stored to and fetched). -/
def Obligations.FenceiMakesStoredWordFetchable : Prop :=
  ∀ (s : State) (rs1 rs2 : RegNum), (s.getX rs1).toNat % 4 = 0 →
    responds s .store (s.getX rs1).toNat 4 = true → responds s .fetch (s.getX rs1).toNat 4 = true →
    ∃ t u v, exec (.sw rs1 rs2 0) s = .next t ∧ exec .fencei t = .next u ∧
      exec (.jalr 0 rs1 0) u = .next v ∧ v.pc = s.getX rs1 ∧ fetch v = .ok (s.getX rs2, v)

/-- MODEL'S CHOICE among the treatments the spec allows (93_implementation_defined.md I5; log 9): a fetch
that touches a stale byte runs a free word, whatever that word is. -/
def Obligations.StaleFetchRunsFreeWord : Prop :=
  ∀ s : State, Described s → s.pc.toNat % 4 = 0 → responds s .fetch s.pc.toNat 4 = true →
    (∃ k < 4, s.pc.toNat + k ∈ s.stale) →
    (∀ i, decode (Config.staleWord s.draws) = .ok i →
      step s = exec i { s with draws := s.draws + 1 }) ∧
    (∀ r, decode (Config.staleWord s.draws) = .error r →
      step s = raise .illegalInstruction (Config.staleWord s.draws) { s with draws := s.draws + 1 })

/-! ### CSR instructions -/

/-- 47_system.md, CSRRW and CSRRWI on a CSR they may reach: the old value goes to `rd`, the new one to the
CSR, nothing else changes but `pc` and the counters; elsewhere Illegal instruction with the word. The
spec's decisions it rests on: operands read before anything is written (D2), the CSR field (D17), the access
check (D18, D36), all 32 bits writable (D19), `misa` (D20), the counters (D21, D22), the supervisor CSRs
(D23), the trap value (D12); logs 7, 8, 18, 24. MODEL'S CHOICE (log 27): the instruction counter, one more
unless `minstret` is written, goes from 2^64 - 1 to 0; the spec is silent there. -/
def Obligations.CsrrwAndCsrrwiReadThenWrite : Prop :=
  ReadsAs 0x00001073 0x0000707F (fun w => .csrrw (rdOf w) (immIOf w) (rs1Of w)) ∧
  ReadsAs 0x00005073 0x0000707F (fun w => .csrrwi (rdOf w) (immIOf w) (rs1Of w)) ∧
  ∀ (rd : RegNum) (a : CsrNum) (rs1 : RegNum) (uimm : BitVec 5) (s : State),
    (∀ c, csrCheck a true s = some c →
      (∃ t, exec (.csrrw rd a rs1) s = .next t ∧ CsrEffect s t c rd (some (s.getX rs1))) ∧
      (∃ t, exec (.csrrwi rd a uimm) s = .next t ∧ CsrEffect s t c rd (some (uimm.setWidth 32)))) ∧
    (csrCheck a true s = none →
      exec (.csrrw rd a rs1) s = raise .illegalInstruction (encode (.csrrw rd a rs1)) s ∧
      exec (.csrrwi rd a uimm) s = raise .illegalInstruction (encode (.csrrwi rd a uimm)) s)

/-- 47_system.md, CSRRS and CSRRSI: the old value goes to `rd`; the CSR gets the bits of the operand set,
unless the operand field is 0 and nothing is written. It rests on the spec's decisions D2 (operands read
before anything is written), D12, D17, D18, D19 (all 32 bits writable), D20 to D23 and D36, as CSRRW does;
logs 7, 8, 18, 24. MODEL'S CHOICE (log 27): the instruction counter, one more unless `minstret` is written,
goes from 2^64 - 1 to 0; the spec is silent there. -/
def Obligations.CsrrsAndCsrrsiReadThenSet : Prop :=
  ReadsAs 0x00002073 0x0000707F (fun w => .csrrs (rdOf w) (immIOf w) (rs1Of w)) ∧
  ReadsAs 0x00006073 0x0000707F (fun w => .csrrsi (rdOf w) (immIOf w) (rs1Of w)) ∧
  ∀ (rd : RegNum) (a : CsrNum) (rs1 : RegNum) (uimm : BitVec 5) (s : State),
    (∀ c, csrCheck a (rs1 != 0#5) s = some c →
      ∃ t, exec (.csrrs rd a rs1) s = .next t ∧ CsrEffect s t c rd
        (if rs1 = 0#5 then none else some (csrRead c (csrObserve c s) ||| s.getX rs1))) ∧
    (∀ c, csrCheck a (uimm != 0#5) s = some c →
      ∃ t, exec (.csrrsi rd a uimm) s = .next t ∧ CsrEffect s t c rd
        (if uimm = 0#5 then none else some (csrRead c (csrObserve c s) ||| uimm.setWidth 32))) ∧
    (csrCheck a (rs1 != 0#5) s = none →
      exec (.csrrs rd a rs1) s = raise .illegalInstruction (encode (.csrrs rd a rs1)) s) ∧
    (csrCheck a (uimm != 0#5) s = none →
      exec (.csrrsi rd a uimm) s = raise .illegalInstruction (encode (.csrrsi rd a uimm)) s)

/-- 47_system.md, CSRRC and CSRRCI: as CSRRS and CSRRSI, with the bits of the operand cleared. It rests on
the spec's decisions D2 (operands read before anything is written), D12, D17, D18, D19 (all 32 bits
writable), D20 to D23 and D36, as CSRRW does; logs 7, 8, 18, 24. MODEL'S CHOICE (log 27): the instruction
counter, one more unless `minstret` is written, goes from 2^64 - 1 to 0; the spec is silent there. -/
def Obligations.CsrrcAndCsrrciReadThenClear : Prop :=
  ReadsAs 0x00003073 0x0000707F (fun w => .csrrc (rdOf w) (immIOf w) (rs1Of w)) ∧
  ReadsAs 0x00007073 0x0000707F (fun w => .csrrci (rdOf w) (immIOf w) (rs1Of w)) ∧
  ∀ (rd : RegNum) (a : CsrNum) (rs1 : RegNum) (uimm : BitVec 5) (s : State),
    (∀ c, csrCheck a (rs1 != 0#5) s = some c →
      ∃ t, exec (.csrrc rd a rs1) s = .next t ∧ CsrEffect s t c rd
        (if rs1 = 0#5 then none else some (csrRead c (csrObserve c s) &&& ~~~ s.getX rs1))) ∧
    (∀ c, csrCheck a (uimm != 0#5) s = some c →
      ∃ t, exec (.csrrci rd a uimm) s = .next t ∧ CsrEffect s t c rd
        (if uimm = 0#5 then none else some (csrRead c (csrObserve c s) &&& ~~~ uimm.setWidth 32))) ∧
    (csrCheck a (rs1 != 0#5) s = none →
      exec (.csrrc rd a rs1) s = raise .illegalInstruction (encode (.csrrc rd a rs1)) s) ∧
    (csrCheck a (uimm != 0#5) s = none →
      exec (.csrrci rd a uimm) s = raise .illegalInstruction (encode (.csrrci rd a uimm)) s)

/-- 10_state.md, the access check, line by line, and the CSR inventory (decisions D18 and D36): it refuses
exactly an address that is none of the 38, a CSR above the current mode, a write of a read-only one, and a
user counter that `mcounteren` keeps from a mode below M. Where it answers a CSR, that is the one the
inventory lists at the address; and every CSR reads the storage the inventory gives it, in every state. -/
def Obligations.CsrCheckRefusesExactlyTheListedCases : Prop :=
  ∀ (a : CsrNum) (willWrite : Bool) (s : State),
    (csrCheck a willWrite s = none ↔
      a ∉ (csrInventory s).map (fun row => row.1) ∨
      s.priv.enc.toNat < a.toNat / 256 % 4 ∨
      (willWrite = true ∧ a.toNat / 1024 = 3) ∨
      (s.priv ≠ .machine ∧ (a = 0xC00 ∨ a = 0xC80) ∧ s.csr.mcounteren.getLsbD 0 = false) ∨
      (s.priv ≠ .machine ∧ (a = 0xC02 ∨ a = 0xC82) ∧ s.csr.mcounteren.getLsbD 2 = false)) ∧
    (∀ c, csrCheck a willWrite s = some c → (a, c, csrRead c s) ∈ csrInventory s) ∧
    (∀ c : Csr, (c.address, c, csrRead c s) ∈ csrInventory s)

/-- MODEL'S CHOICE of form for the spec's draws (10_state.md; decisions D21, D22; logs 7, 8): bringing a
counter up to date for a read adds to the free-running counter read the free value that the count of free
values selects, whatever it is, and one to that count; every other counter stays, and for every other CSR
nothing changes at all. -/
def Obligations.ObservingACsrChangesOnlyItsFreeCounter : Prop :=
  ∀ (c : Csr) (s : State),
    (csrObserve c s).x = s.x ∧ (csrObserve c s).pc = s.pc ∧ (csrObserve c s).priv = s.priv ∧
    (csrObserve c s).mem = s.mem ∧ (csrObserve c s).stale = s.stale ∧
    (csrObserve c s).instret = s.instret ∧ (csrObserve c s).denied = s.denied ∧
    (∀ d, d.isCounterView = false → d ≠ c → csrRead d (csrObserve c s) = csrRead d s) ∧
    (csrObserve c s).cycle = (if c = .mcycle ∨ c = .ucycle ∨ c = .ucycleh
      then s.cycle + Config.cycleAdvance s.draws else s.cycle) ∧
    (csrObserve c s).csr.mhpmcounter3 = (if c = .mhpmcounter3
      then s.csr.mhpmcounter3 + Config.hpmAdvance 3 s.draws else s.csr.mhpmcounter3) ∧
    (csrObserve c s).csr.mhpmcounter4 = (if c = .mhpmcounter4
      then s.csr.mhpmcounter4 + Config.hpmAdvance 4 s.draws else s.csr.mhpmcounter4) ∧
    (csrObserve c s).csr.mhpmcounter5 = (if c = .mhpmcounter5
      then s.csr.mhpmcounter5 + Config.hpmAdvance 5 s.draws else s.csr.mhpmcounter5) ∧
    (csrObserve c s = s ∨ (csrObserve c s).draws = s.draws + 1) ∧
    (c ∈ ([.mcycle, .ucycle, .ucycleh, .mhpmcounter3, .mhpmcounter4, .mhpmcounter5] : List Csr) ↔
      (csrObserve c s).draws = s.draws + 1)

/-! ### Exceptions -/

/-- 47_system.md, ECALL: it traps with the code of its mode, saving the address after it. The word and
`mtval` = 0 are the spec's decisions D5 and D12, the hypothesis its D25 (log 13). -/
def Obligations.EcallTrapsWithTheCodeOfItsMode : Prop :=
  decode 0x00000073 = .ok .ecall ∧
  ∀ s : State, (s.priv = .machine ∨ s.csr.medeleg.getLsbD (8 + s.priv.enc.toNat) = false) →
    ∃ t, exec .ecall s = .next t ∧ TrapTaken s t (.environmentCall s.priv) 0 ∧
      t.csr.mepc = s.pc + 4 ∧
      t.csr.mcause = (match s.priv with | .user => 8 | .supervisor => 9 | .machine => 11)

/-- 47_system.md, EBREAK: it traps with code 3, saving the address after it. The word and `mtval` = 0 are
the spec's decisions D5 and D12, the hypothesis its D25 (log 13). -/
def Obligations.EbreakTrapsWithCodeThree : Prop :=
  decode 0x00100073 = .ok .ebreak ∧
  ∀ s : State, (s.priv = .machine ∨ s.csr.medeleg.getLsbD 3 = false) →
    ∃ t, exec .ebreak s = .next t ∧ TrapTaken s t .breakpoint 0 ∧
      t.csr.mepc = s.pc + 4 ∧ t.csr.mcause = 3

/-- R291, R292, R293: what a trap saves. MPIE receives the MIE in force before MIE is cleared; `mepc` is
the next `pc` for ECALL and EBREAK, else the `pc`; `mcause` is the code, the number the source's table of
exceptions gives (exceptionCodes; 60_exceptions.md, exception causes); the handler is where `mtvec`, which
stays, points. -/
def Obligations.TrapSavesPcCauseAndInterruptEnable : Prop :=
  ∀ (e : Exception) (info : Word) (s t : State), raise e info s = .next t →
    mpieOf t.csr.mstatus = mieOf s.csr.mstatus ∧ mieOf t.csr.mstatus = false ∧
    t.csr.mtvec = s.csr.mtvec ∧ t.pc = s.csr.mtvec ∧
    (∀ m, e = .environmentCall m → t.csr.mepc = s.pc + 4) ∧
    (e = .breakpoint → t.csr.mepc = s.pc + 4) ∧
    ((∀ m, e ≠ .environmentCall m) → e ≠ .breakpoint → t.csr.mepc = s.pc) ∧
    t.csr.mcause.toNat = e.code ∧ (e.code ≤ 9 ∨ e.code = 11) ∧ (e, t.csr.mcause) ∈ exceptionCodes

/-- 60_exceptions.md, trap entry whole: what it writes and that nothing else changes. The places of the
`mstatus` fields and the mode of the handler are the spec's decisions D13 and D14 (log 24). -/
def Obligations.TrapEntryWritesOnlyItsState : Prop :=
  ∀ (e : Exception) (info : Word) (s : State),
    (s.priv = .machine ∨ s.csr.medeleg.getLsbD e.code = false) →
    ∃ t, raise e info s = .next t ∧ TrapTaken s t e info ∧
      t.csr.mstatus.getLsbD 3 = false ∧ t.csr.mstatus.getLsbD 7 = s.csr.mstatus.getLsbD 3 ∧
      t.csr.mstatus.extractLsb' 11 2 =
        (match s.priv with | .user => 0#2 | .supervisor => 1#2 | .machine => 3#2)

/-- 60_exceptions.md, delegation (decision D25; log 13): a trap below M with its bit of `medeleg` set is
refused by name. -/
def Obligations.DelegatedTrapIsRefused : Prop :=
  ∀ (e : Exception) (info : Word) (s : State), s.priv ≠ .machine →
    s.csr.medeleg.getLsbD e.code = true → raise e info s = .refused .delegationNotDescribed

/-- 30_encoding.md, illegal encodings (decisions D6, D12): a fetched word that is no instruction traps
with code 2 and `mtval` = the word, whatever free value the fetch may have met. -/
def Obligations.IllegalWordTrapsWithCodeTwo : Prop :=
  ∀ (s s' : State) (w : Word) (r : DecodeError), Described s → fetch s = .ok (w, s') →
    decode w = .error r → (s.priv = .machine ∨ s.csr.medeleg.getLsbD 2 = false) →
    ∃ t, step s = .next t ∧ TrapTaken s' t .illegalInstruction w ∧ t.csr.mcause = 2 ∧
      t.csr.mepc = s.pc ∧ t.csr.mtval = w

/-- 60_exceptions.md, codes 0 and 1 (decisions D8, D10, D12): the fetch reports a misaligned `pc`, and
then an address that cannot be fetched; both save and report that `pc`. -/
def Obligations.FetchFailureTrapsWithItsPc : Prop :=
  ∀ s : State, Described s →
    (s.pc.toNat % 4 ≠ 0 → (s.priv = .machine ∨ s.csr.medeleg.getLsbD 0 = false) →
      ∃ t, step s = .next t ∧ TrapTaken s t .instructionAddressMisaligned s.pc ∧
        t.csr.mepc = s.pc ∧ t.csr.mcause = 0) ∧
    (s.pc.toNat % 4 = 0 → responds s .fetch s.pc.toNat 4 = false →
      (s.priv = .machine ∨ s.csr.medeleg.getLsbD 1 = false) →
      ∃ t, step s = .next t ∧ TrapTaken s t .instructionAccessFault s.pc ∧
        t.csr.mepc = s.pc ∧ t.csr.mcause = 1)

/-- 60_exceptions.md, traps inside the handler (decision D33): a second trap overwrites the first; MPIE is
then 0 and MPP is M. -/
def Obligations.SecondTrapOverwritesTheFirst : Prop :=
  ∀ (e f : Exception) (info more : Word) (s t u : State),
    raise e info s = .next t → raise f more t = .next u →
    mpieOf u.csr.mstatus = false ∧ mppOf u.csr.mstatus = 3#2 ∧ u.csr.mepc = f.savedPc s.csr.mtvec ∧
      u.csr.mcause = BitVec.ofNat 32 f.code ∧ u.csr.mtval = more ∧ u.pc = s.csr.mtvec

/-- 60_exceptions.md (decisions D19, D33): with `pc` at a handler address that is not a multiple of 4,
every number of steps is well defined and stays there, counting nothing. -/
def Obligations.MisalignedHandlerLoopsForever : Prop :=
  ∀ (n : Nat) (s : State), Described s → s.priv = .machine → s.pc = s.csr.mtvec →
    s.csr.mtvec.toNat % 4 ≠ 0 →
    ∃ t, runUntil (fun _ => false) (n + 1) s = .next t ∧ t.pc = s.csr.mtvec ∧
      t.csr.mepc = s.csr.mtvec ∧ t.csr.mcause = 0 ∧ t.instret = s.instret

/-! ### Steps -/

/-- 10_state.md, the instruction counter (decision D21; log 24): after every instruction that answers a
next state, `instret` is as before if the instruction raised its own exception (and the next state is then
that trap's entry), has its low half replaced if a CSR instruction of address 0xB02 wrote it, and is one
more in every other case. MODEL'S CHOICE (log 27): one more than 2^64 - 1 is 0. -/
def Obligations.CompletedInstructionsAreCounted : Prop :=
  ∀ (i : Instr) (s t : State), exec i s = .next t →
    t.instret = instretAfter i s ∧ (raisesIn i s = true → ∃ e info, t = trapEntry e info s)

/-- 00_scope.md: when the bytes at `pc` can be fetched and decode to an instruction, the step is exactly
that instruction's. -/
def Obligations.StepRunsTheDecodedInstruction : Prop :=
  ∀ (s : State) (i : Instr), Described s → s.pc.toNat % 4 = 0 →
    responds s .fetch s.pc.toNat 4 = true → (∀ k < 4, s.pc.toNat + k ∉ s.stale) →
    decodeBytes (Memory.readBytes s.mem s.pc.toNat 4) = .ok (i, []) → step s = exec i s

/-- MODEL'S HELPER (log 19): the word that `withFetchWord` places is the one the next step runs, in every
state the spec describes, and registers, CSRs, mode and counters are as before. -/
def Obligations.PlacedWordIsTheNextRun : Prop :=
  ∀ (s : State) (nbits w : Nat) (i : Instr), Described s → decodeTableWord nbits w = some i →
    step (s.withFetchWord nbits w) = exec i (s.withFetchWord nbits w) ∧
    RegsKept s (s.withFetchWord nbits w) ∧ SystemKept { s with denied := (s.withFetchWord nbits w).denied }
      (s.withFetchWord nbits w) ∧
    (s.withFetchWord nbits w).instret = s.instret ∧
    (s.pc.toNat % 4 = 0 → (s.withFetchWord nbits w).pc = s.pc)

/-- 10_state.md and 60_exceptions.md (decisions D24, D26; logs 11, 12): the states a step refuses, each by
its name; any other refusal is a delegated trap (D25; log 13). -/
def Obligations.StepRefusesOnlyWhatIsNotDescribed : Prop :=
  ∀ s : State,
    (s.csr.satp ≠ 0 → step s = .refused .translationNotDescribed) ∧
    (s.csr.satp = 0 → s.csr.pmpcfg0 ≠ 0 → step s = .refused .protectionNotDescribed) ∧
    (s.csr.satp = 0 → s.csr.pmpcfg0 = 0 → s.csr.mstatus.getLsbD 3 = true →
      s.csr.mie &&& s.csr.mip ≠ 0 → step s = .refused .interruptNotDescribed) ∧
    (s.csr.satp = 0 → s.csr.pmpcfg0 = 0 →
      (s.csr.mstatus.getLsbD 3 = false ∨ s.csr.mie &&& s.csr.mip = 0) →
      ∀ r, step s = .refused r → r = .delegationNotDescribed ∧ s.priv ≠ .machine)

/-! ### Reset -/

/-- 10_state.md, the reset table's values (decision D27); the values the table leaves unspecified are the
model's (logs 1 to 5) and not stated here. -/
def Obligations.ResetLeavesTheTablesValues : Prop :=
  State.reset.getX 0#5 = 0 ∧ State.reset.priv = .machine ∧ mieOf State.reset.csr.mstatus = false ∧
  State.reset.csr.medeleg = 0 ∧ State.reset.csr.mideleg = 0 ∧ State.reset.csr.mie = 0 ∧
  State.reset.csr.mip = 0 ∧ State.reset.csr.sie = 0 ∧ State.reset.csr.sip = 0 ∧
  State.reset.csr.pmpcfg0 = 0 ∧ State.reset.csr.satp = 0 ∧ State.reset.stale = [] ∧
  Described State.reset

/-- The state after reset is in canonical form (the invariant below). -/
def Obligations.ResetIsCanonical : Prop := Canonical State.reset

/-! ### What every step keeps -/

/-- From every state in canonical form a step leads to one: memory lists rising addresses of the address
space and no byte an unlisted address reads as, and the stale set lists rising addresses of it. -/
def Obligations.StepKeepsCanonicalForm : Prop :=
  ∀ s t : State, Canonical s → step s = .next t → Canonical t

/-- 60_exceptions.md, trap return (decision D15): no step lowers the mode; it stays or becomes M. -/
def Obligations.NoStepLowersTheMode : Prop :=
  ∀ s t : State, step s = .next t → t.priv = s.priv ∨ t.priv = .machine

/-- Isolation (10_state.md, access check; decisions D15, D18): a step that begins and ends in U-mode
changes no CSR that has storage, and counts exactly itself (modulo 2^64: the model's choice, log 27). -/
def Obligations.UserModeChangesNoCsr : Prop :=
  ∀ s t : State, s.priv = .user → step s = .next t → t.priv = .user →
    t.csr = s.csr ∧ t.instret = s.instret + 1

/-- Isolation (10_state.md, access check; decisions D15, D18, D23): a step that begins and ends in S-mode
changes no machine-level CSR that has storage. -/
def Obligations.SupervisorModeChangesNoMachineCsr : Prop :=
  ∀ s t : State, s.priv = .supervisor → step s = .next t → t.priv = .supervisor →
    ∀ d : Csr, d.address.toNat / 256 % 4 = 3 → d.isCounterView = false → csrRead d t = csrRead d s

/-- 20_memory.md: a byte of memory changes only by a store instruction, and a byte that changed is stale
after the step (decision D29). -/
def Obligations.MemoryChangesOnlyByStoresAndIsStale : Prop :=
  ∀ s t : State, step s = .next t → ∀ a, Memory.read t.mem a ≠ Memory.read s.mem a →
    a ∈ t.stale ∧ ∃ w u i, fetch s = .ok (w, u) ∧ decode w = .ok i ∧ i.mnemonic ∈ ["SB", "SH", "SW"]

/-- 20_memory.md (decision D29): a stale address stays stale through every step but a FENCEI. -/
def Obligations.OnlyFenceiMakesStaleBytesFresh : Prop :=
  ∀ s t : State, step s = .next t → ∀ a, a ∈ s.stale → a ∉ t.stale →
    ∃ w u, fetch s = .ok (w, u) ∧ decode w = .ok .fencei

/-- 60_exceptions.md, preciseness, and 10_state.md, the instruction counter (decision D21): every step runs a
fetched instruction that completes and is counted; or runs one of address 0xB02 that writes `minstret`, from
M-mode, and puts what it writes in the low half; or is one whole trap entry, of a fetch that failed, of a
word that is no instruction, or of an instruction that raises, and makes no write of the instruction's own.
MODEL'S CHOICE (log 27): one more than 2^64 - 1 is 0. -/
def Obligations.StepCompletesOrTrapsPrecisely : Prop :=
  ∀ s t : State, step s = .next t →
    (∃ w u i, fetch s = .ok (w, u) ∧ decode w = .ok i ∧ raisesIn i u = false ∧
      minstretWritten i u = none ∧ t.instret = s.instret + 1) ∨
    (∃ w u i v, fetch s = .ok (w, u) ∧ decode w = .ok i ∧ raisesIn i u = false ∧
      minstretWritten i u = some v ∧ s.priv = .machine ∧
      t.instret = s.instret.extractLsb' 32 32 ++ v ∧ t.pc = s.pc + 4) ∨
    (∃ u e info, (u = s ∨ u = { s with draws := s.draws + 1 }) ∧ TrapTaken u t e info ∧
      ((fetch s = .error e ∧ u = s) ∨
        ∃ w, fetch s = .ok (w, u) ∧
          ((∃ r, decode w = .error r) ∨ ∃ i, decode w = .ok i ∧ raisesIn i u = true)))

/-- 10_state.md (decisions D10, D20): no step changes `misa` or which addresses respond. -/
def Obligations.StepKeepsMisaAndPlatform : Prop :=
  ∀ s t : State, step s = .next t → t.csr.misa = s.csr.misa ∧ t.denied = s.denied

/-! ### Pseudo-instructions -/

/-- 30_encoding.md, the customary expansions (decision D30; log 25): LI leaves the constant in `rd`, LA
the label's address, CALL jumps to the label with the address after it in x1; other registers and memory
are as before. -/
def Obligations.PseudoExpansionsDoWhatTheySay : Prop :=
  ∀ (rd : RegNum) (v : Word) (s : State),
    (∃ t, execAll (pseudoLi rd v) s = .next t ∧ RegWritten s t rd v ∧ MemKept s t ∧ SystemKept s t ∧
      t.pc = s.pc + 4 * BitVec.ofNat 32 (pseudoLi rd v).length) ∧
    (∃ t, execAll (pseudoLa rd v) s = .next t ∧ RegWritten s t rd (s.pc + v) ∧ MemKept s t ∧
      SystemKept s t ∧ t.pc = s.pc + 8) ∧
    (∃ t, execAll (pseudoCall v) s = .next t ∧ RegWritten s t 1#5 (s.pc + 8) ∧ MemKept s t ∧
      SystemKept s t ∧ t.pc = (s.pc + v) &&& ~~~ 1#32)
end

