-- ==== Sys2Proof/Laws/State.lean ====
section
/-! SUPPORT. One lemma for each field and each update of the state, so that no proof unfolds a record
update. -/

namespace Sys2Proof.Machine

/-! ### The end of an instruction -/

@[simp] theorem State.goTo_x (s : State) (a : Word) : (s.goTo a).x = s.x := rfl
@[simp] theorem State.goTo_pc (s : State) (a : Word) : (s.goTo a).pc = a := rfl
@[simp] theorem State.goTo_priv (s : State) (a : Word) : (s.goTo a).priv = s.priv := rfl
@[simp] theorem State.goTo_csr (s : State) (a : Word) : (s.goTo a).csr = s.csr := rfl
@[simp] theorem State.goTo_cycle (s : State) (a : Word) : (s.goTo a).cycle = s.cycle := rfl
@[simp] theorem State.goTo_instret (s : State) (a : Word) : (s.goTo a).instret = s.instret := rfl
@[simp] theorem State.goTo_mem (s : State) (a : Word) : (s.goTo a).mem = s.mem := rfl
@[simp] theorem State.goTo_stale (s : State) (a : Word) : (s.goTo a).stale = s.stale := rfl
@[simp] theorem State.goTo_denied (s : State) (a : Word) : (s.goTo a).denied = s.denied := rfl
@[simp] theorem State.goTo_draws (s : State) (a : Word) : (s.goTo a).draws = s.draws := rfl

@[simp] theorem State.retire_x (s : State) (a : Word) : (s.retire a).x = s.x := rfl
@[simp] theorem State.retire_pc (s : State) (a : Word) : (s.retire a).pc = a := rfl
@[simp] theorem State.retire_priv (s : State) (a : Word) : (s.retire a).priv = s.priv := rfl
@[simp] theorem State.retire_csr (s : State) (a : Word) : (s.retire a).csr = s.csr := rfl
@[simp] theorem State.retire_cycle (s : State) (a : Word) : (s.retire a).cycle = s.cycle := rfl
@[simp] theorem State.retire_instret (s : State) (a : Word) : (s.retire a).instret = s.instret + 1 := rfl
@[simp] theorem State.retire_mem (s : State) (a : Word) : (s.retire a).mem = s.mem := rfl
@[simp] theorem State.retire_stale (s : State) (a : Word) : (s.retire a).stale = s.stale := rfl
@[simp] theorem State.retire_denied (s : State) (a : Word) : (s.retire a).denied = s.denied := rfl
@[simp] theorem State.retire_draws (s : State) (a : Word) : (s.retire a).draws = s.draws := rfl

/-! ### Writing a general register -/

@[simp] theorem State.setX_pc (s : State) (r : RegNum) (v : Word) : (s.setX r v).pc = s.pc := by unfold State.setX; split <;> rfl
@[simp] theorem State.setX_priv (s : State) (r : RegNum) (v : Word) : (s.setX r v).priv = s.priv := by unfold State.setX; split <;> rfl
@[simp] theorem State.setX_csr (s : State) (r : RegNum) (v : Word) : (s.setX r v).csr = s.csr := by unfold State.setX; split <;> rfl
@[simp] theorem State.setX_cycle (s : State) (r : RegNum) (v : Word) : (s.setX r v).cycle = s.cycle := by unfold State.setX; split <;> rfl
@[simp] theorem State.setX_instret (s : State) (r : RegNum) (v : Word) : (s.setX r v).instret = s.instret := by unfold State.setX; split <;> rfl
@[simp] theorem State.setX_mem (s : State) (r : RegNum) (v : Word) : (s.setX r v).mem = s.mem := by unfold State.setX; split <;> rfl
@[simp] theorem State.setX_stale (s : State) (r : RegNum) (v : Word) : (s.setX r v).stale = s.stale := by unfold State.setX; split <;> rfl
@[simp] theorem State.setX_denied (s : State) (r : RegNum) (v : Word) : (s.setX r v).denied = s.denied := by unfold State.setX; split <;> rfl
@[simp] theorem State.setX_draws (s : State) (r : RegNum) (v : Word) : (s.setX r v).draws = s.draws := by unfold State.setX; split <;> rfl

/-! ### Storing -/

@[simp] theorem State.storeBytes_x (s : State) (a : Word) (n : Nat) (v : Word) : (s.storeBytes a n v).x = s.x := rfl
@[simp] theorem State.storeBytes_pc (s : State) (a : Word) (n : Nat) (v : Word) : (s.storeBytes a n v).pc = s.pc := rfl
@[simp] theorem State.storeBytes_priv (s : State) (a : Word) (n : Nat) (v : Word) : (s.storeBytes a n v).priv = s.priv := rfl
@[simp] theorem State.storeBytes_csr (s : State) (a : Word) (n : Nat) (v : Word) : (s.storeBytes a n v).csr = s.csr := rfl
@[simp] theorem State.storeBytes_cycle (s : State) (a : Word) (n : Nat) (v : Word) : (s.storeBytes a n v).cycle = s.cycle := rfl
@[simp] theorem State.storeBytes_instret (s : State) (a : Word) (n : Nat) (v : Word) : (s.storeBytes a n v).instret = s.instret := rfl
@[simp] theorem State.storeBytes_mem (s : State) (a : Word) (n : Nat) (v : Word) : (s.storeBytes a n v).mem = Memory.writeBytes s.mem a.toNat (bytesOf n v) := rfl
@[simp] theorem State.storeBytes_stale (s : State) (a : Word) (n : Nat) (v : Word) : (s.storeBytes a n v).stale = addStaleRange s.stale a.toNat n := rfl
@[simp] theorem State.storeBytes_denied (s : State) (a : Word) (n : Nat) (v : Word) : (s.storeBytes a n v).denied = s.denied := rfl
@[simp] theorem State.storeBytes_draws (s : State) (a : Word) (n : Nat) (v : Word) : (s.storeBytes a n v).draws = s.draws := rfl

/-! ### Trap entry -/

@[simp] theorem trapEntry_x (e : Exception) (i : Word) (s : State) : (trapEntry e i s).x = s.x := rfl
@[simp] theorem trapEntry_pc (e : Exception) (i : Word) (s : State) : (trapEntry e i s).pc = s.csr.mtvec := rfl
@[simp] theorem trapEntry_priv (e : Exception) (i : Word) (s : State) : (trapEntry e i s).priv = .machine := rfl
@[simp] theorem trapEntry_cycle (e : Exception) (i : Word) (s : State) : (trapEntry e i s).cycle = s.cycle := rfl
@[simp] theorem trapEntry_instret (e : Exception) (i : Word) (s : State) : (trapEntry e i s).instret = s.instret := rfl
@[simp] theorem trapEntry_mem (e : Exception) (i : Word) (s : State) : (trapEntry e i s).mem = s.mem := rfl
@[simp] theorem trapEntry_stale (e : Exception) (i : Word) (s : State) : (trapEntry e i s).stale = s.stale := rfl
@[simp] theorem trapEntry_denied (e : Exception) (i : Word) (s : State) : (trapEntry e i s).denied = s.denied := rfl
@[simp] theorem trapEntry_draws (e : Exception) (i : Word) (s : State) : (trapEntry e i s).draws = s.draws := rfl

@[simp] theorem trapEntry_mepc (e : Exception) (i : Word) (s : State) : (trapEntry e i s).csr.mepc = e.savedPc s.pc := rfl
@[simp] theorem trapEntry_mcause (e : Exception) (i : Word) (s : State) :
    (trapEntry e i s).csr.mcause = BitVec.ofNat 32 e.code := rfl
@[simp] theorem trapEntry_mtval (e : Exception) (i : Word) (s : State) : (trapEntry e i s).csr.mtval = i := rfl
@[simp] theorem trapEntry_mstatus (e : Exception) (i : Word) (s : State) :
    (trapEntry e i s).csr.mstatus = mstatusOnTrap s.csr.mstatus s.priv := rfl
@[simp] theorem trapEntry_misa (e : Exception) (i : Word) (s : State) : (trapEntry e i s).csr.misa = s.csr.misa := rfl
@[simp] theorem trapEntry_medeleg (e : Exception) (i : Word) (s : State) : (trapEntry e i s).csr.medeleg = s.csr.medeleg := rfl
@[simp] theorem trapEntry_mideleg (e : Exception) (i : Word) (s : State) : (trapEntry e i s).csr.mideleg = s.csr.mideleg := rfl
@[simp] theorem trapEntry_mie (e : Exception) (i : Word) (s : State) : (trapEntry e i s).csr.mie = s.csr.mie := rfl
@[simp] theorem trapEntry_mtvec (e : Exception) (i : Word) (s : State) : (trapEntry e i s).csr.mtvec = s.csr.mtvec := rfl
@[simp] theorem trapEntry_mcounteren (e : Exception) (i : Word) (s : State) : (trapEntry e i s).csr.mcounteren = s.csr.mcounteren := rfl
@[simp] theorem trapEntry_mscratch (e : Exception) (i : Word) (s : State) : (trapEntry e i s).csr.mscratch = s.csr.mscratch := rfl
@[simp] theorem trapEntry_mip (e : Exception) (i : Word) (s : State) : (trapEntry e i s).csr.mip = s.csr.mip := rfl
@[simp] theorem trapEntry_pmpcfg0 (e : Exception) (i : Word) (s : State) : (trapEntry e i s).csr.pmpcfg0 = s.csr.pmpcfg0 := rfl
@[simp] theorem trapEntry_pmpaddr0 (e : Exception) (i : Word) (s : State) : (trapEntry e i s).csr.pmpaddr0 = s.csr.pmpaddr0 := rfl
@[simp] theorem trapEntry_pmpaddr1 (e : Exception) (i : Word) (s : State) : (trapEntry e i s).csr.pmpaddr1 = s.csr.pmpaddr1 := rfl
@[simp] theorem trapEntry_pmpaddr2 (e : Exception) (i : Word) (s : State) : (trapEntry e i s).csr.pmpaddr2 = s.csr.pmpaddr2 := rfl
@[simp] theorem trapEntry_pmpaddr3 (e : Exception) (i : Word) (s : State) : (trapEntry e i s).csr.pmpaddr3 = s.csr.pmpaddr3 := rfl
@[simp] theorem trapEntry_mhpmcounter3 (e : Exception) (i : Word) (s : State) : (trapEntry e i s).csr.mhpmcounter3 = s.csr.mhpmcounter3 := rfl
@[simp] theorem trapEntry_mhpmcounter4 (e : Exception) (i : Word) (s : State) : (trapEntry e i s).csr.mhpmcounter4 = s.csr.mhpmcounter4 := rfl
@[simp] theorem trapEntry_mhpmcounter5 (e : Exception) (i : Word) (s : State) : (trapEntry e i s).csr.mhpmcounter5 = s.csr.mhpmcounter5 := rfl
@[simp] theorem trapEntry_mhpmevent3 (e : Exception) (i : Word) (s : State) : (trapEntry e i s).csr.mhpmevent3 = s.csr.mhpmevent3 := rfl
@[simp] theorem trapEntry_mhpmevent4 (e : Exception) (i : Word) (s : State) : (trapEntry e i s).csr.mhpmevent4 = s.csr.mhpmevent4 := rfl
@[simp] theorem trapEntry_mhpmevent5 (e : Exception) (i : Word) (s : State) : (trapEntry e i s).csr.mhpmevent5 = s.csr.mhpmevent5 := rfl
@[simp] theorem trapEntry_sstatus (e : Exception) (i : Word) (s : State) : (trapEntry e i s).csr.sstatus = s.csr.sstatus := rfl
@[simp] theorem trapEntry_sie (e : Exception) (i : Word) (s : State) : (trapEntry e i s).csr.sie = s.csr.sie := rfl
@[simp] theorem trapEntry_stvec (e : Exception) (i : Word) (s : State) : (trapEntry e i s).csr.stvec = s.csr.stvec := rfl
@[simp] theorem trapEntry_sscratch (e : Exception) (i : Word) (s : State) : (trapEntry e i s).csr.sscratch = s.csr.sscratch := rfl
@[simp] theorem trapEntry_sepc (e : Exception) (i : Word) (s : State) : (trapEntry e i s).csr.sepc = s.csr.sepc := rfl
@[simp] theorem trapEntry_scause (e : Exception) (i : Word) (s : State) : (trapEntry e i s).csr.scause = s.csr.scause := rfl
@[simp] theorem trapEntry_stval (e : Exception) (i : Word) (s : State) : (trapEntry e i s).csr.stval = s.csr.stval := rfl
@[simp] theorem trapEntry_sip (e : Exception) (i : Word) (s : State) : (trapEntry e i s).csr.sip = s.csr.sip := rfl
@[simp] theorem trapEntry_satp (e : Exception) (i : Word) (s : State) : (trapEntry e i s).csr.satp = s.csr.satp := rfl

/-! ### Reading a CSR: a free-running counter is brought up to date -/

@[simp] theorem csrObserve_x (c : Csr) (s : State) : (csrObserve c s).x = s.x := by cases c <;> rfl
@[simp] theorem csrObserve_pc (c : Csr) (s : State) : (csrObserve c s).pc = s.pc := by cases c <;> rfl
@[simp] theorem csrObserve_priv (c : Csr) (s : State) : (csrObserve c s).priv = s.priv := by cases c <;> rfl
@[simp] theorem csrObserve_instret (c : Csr) (s : State) : (csrObserve c s).instret = s.instret := by cases c <;> rfl
@[simp] theorem csrObserve_mem (c : Csr) (s : State) : (csrObserve c s).mem = s.mem := by cases c <;> rfl
@[simp] theorem csrObserve_stale (c : Csr) (s : State) : (csrObserve c s).stale = s.stale := by cases c <;> rfl
@[simp] theorem csrObserve_denied (c : Csr) (s : State) : (csrObserve c s).denied = s.denied := by cases c <;> rfl

/-! ### Writing a CSR -/

@[simp] theorem csrWrite_x (c : Csr) (v : Word) (s : State) : (csrWrite c v s).x = s.x := by cases c <;> rfl
@[simp] theorem csrWrite_pc (c : Csr) (v : Word) (s : State) : (csrWrite c v s).pc = s.pc := by cases c <;> rfl
@[simp] theorem csrWrite_priv (c : Csr) (v : Word) (s : State) : (csrWrite c v s).priv = s.priv := by cases c <;> rfl
@[simp] theorem csrWrite_mem (c : Csr) (v : Word) (s : State) : (csrWrite c v s).mem = s.mem := by cases c <;> rfl
@[simp] theorem csrWrite_stale (c : Csr) (v : Word) (s : State) : (csrWrite c v s).stale = s.stale := by cases c <;> rfl
@[simp] theorem csrWrite_denied (c : Csr) (v : Word) (s : State) : (csrWrite c v s).denied = s.denied := by cases c <;> rfl
@[simp] theorem csrWrite_draws (c : Csr) (v : Word) (s : State) : (csrWrite c v s).draws = s.draws := by cases c <;> rfl

/-! ### Placing a word for the next fetch -/

@[simp] theorem placeWord_x (s : State) (w : Word) : (placeWord s w).x = s.x := rfl
@[simp] theorem placeWord_priv (s : State) (w : Word) : (placeWord s w).priv = s.priv := rfl
@[simp] theorem placeWord_csr (s : State) (w : Word) : (placeWord s w).csr = s.csr := rfl
@[simp] theorem placeWord_cycle (s : State) (w : Word) : (placeWord s w).cycle = s.cycle := rfl
@[simp] theorem placeWord_instret (s : State) (w : Word) : (placeWord s w).instret = s.instret := rfl
@[simp] theorem placeWord_draws (s : State) (w : Word) : (placeWord s w).draws = s.draws := rfl
@[simp] theorem placeWord_pc (s : State) (w : Word) : (placeWord s w).pc = s.pc &&& 0xFFFFFFFC := rfl

end Sys2Proof.Machine
end

