-- ==== Sys2Proof/Laws/Regs.lean ====
section
/-! SUPPORT. Reading and writing general registers (10_state.md R21). -/

namespace Sys2Proof.Machine

@[simp] theorem getX_zero (s : State) : s.getX 0#5 = 0 := rfl

/-- A register read depends on the stored file alone. -/
theorem getX_congr {s t : State} (h : t.x = s.x) (r : RegNum) : t.getX r = s.getX r := by
  simp only [State.getX, h]

/-- Two registers other than x0 stand at one place only if they are one register. -/
theorem regIndex_inj {q r : RegNum} (hq : q ≠ 0#5) (hr : r ≠ 0#5) (h : regIndex q = regIndex r) :
    q = r := by
  have h' : q.toNat - 1 = r.toNat - 1 := congrArg Fin.val h
  have q0 : q.toNat ≠ 0 := fun e => hq (BitVec.eq_of_toNat_eq (by simpa using e))
  have r0 : r.toNat ≠ 0 := fun e => hr (BitVec.eq_of_toNat_eq (by simpa using e))
  exact BitVec.eq_of_toNat_eq (by omega)

/-- What every register reads after a write: x0 is 0, the one written has the value (R21). -/
theorem getX_setX (s : State) (r q : RegNum) (v : Word) :
    (s.setX r v).getX q = if q = 0#5 then 0 else if q = r then v else s.getX q := by
  by_cases hq : q = 0#5
  · simp [State.getX, hq]
  · by_cases hr : r = 0#5
    · subst hr; simp [State.setX, State.getX, hq]
    · by_cases hqr : q = r
      · subst hqr; simp [State.setX, State.getX, hq]
      · have hne : (regIndex r).val ≠ (regIndex q).val :=
          fun e => hqr (regIndex_inj hq hr (Fin.ext e.symm))
        have : (s.x.set (regIndex r) v (regIndex r).isLt)[(regIndex q).val] = s.x[(regIndex q).val] :=
          Vector.getElem_set_ne _ _ hne
        rw [if_neg hq, if_neg hqr, State.setX, if_neg hr]
        simpa [State.getX, hq] using this

@[simp] theorem getX_retire (s : State) (a : Word) (r : RegNum) : (s.retire a).getX r = s.getX r := rfl
@[simp] theorem getX_goTo (s : State) (a : Word) (r : RegNum) : (s.goTo a).getX r = s.getX r := rfl
@[simp] theorem getX_trapEntry (e : Exception) (i : Word) (s : State) (r : RegNum) :
    (trapEntry e i s).getX r = s.getX r := rfl
@[simp] theorem getX_storeBytes (s : State) (a : Word) (n : Nat) (v : Word) (r : RegNum) :
    (s.storeBytes a n v).getX r = s.getX r := rfl
@[simp] theorem getX_csrObserve (c : Csr) (s : State) (r : RegNum) :
    (csrObserve c s).getX r = s.getX r := getX_congr (csrObserve_x c s) r
@[simp] theorem getX_csrWrite (c : Csr) (v : Word) (s : State) (r : RegNum) :
    (csrWrite c v s).getX r = s.getX r := getX_congr (csrWrite_x c v s) r

end Sys2Proof.Machine
end

