-- ==== Sys2Proof/Laws/Csr.lean ====
section
/-! SUPPORT. The CSRs: addresses, the access check, reading after writing, and all that a CSR
instruction can do (10_state.md R41 to R66; 47_system.md R251). -/

namespace Sys2Proof.Machine

/-- Every CSR is found at its address. -/
theorem csrAt_address (c : Csr) : csrAt c.address = some c := by cases c <;> rfl

/-- What is found at an address has that address. -/
theorem address_of_csrAt {a : CsrNum} {c : Csr} (h : csrAt a = some c) : c.address = a := by
  simpa using List.find?_some h

/-- All that an allowed access says (R42). -/
theorem csrCheck_some {a : CsrNum} {w : Bool} {s : State} {c : Csr} :
    csrCheck a w s = some c ↔
      csrAt a = some c ∧ ¬ s.priv.enc < csrLevel a ∧ (w && csrReadOnly a) = false ∧
        counterOpen c s = true := by
  unfold csrCheck
  cases h : csrAt a with
  | none => simp
  | some d =>
    simp only [Option.some.injEq]
    split
    · simp [*]
    · split
      · simp_all
      · split
        · constructor
          · simp
          · rintro ⟨rfl, _, _, h4⟩; simp_all
        · constructor
          · intro h; cases h; simp_all
          · rintro ⟨rfl, _⟩; rfl

/-- A write is never allowed to the read-only views. -/
theorem csrCheck_write {a : CsrNum} {s : State} {c : Csr} (h : csrCheck a true s = some c) :
    c ≠ .ucycle ∧ c ≠ .uinstret ∧ c ≠ .ucycleh ∧ c ≠ .uinstreth := by
  have h' := csrCheck_some.mp h
  have ha := address_of_csrAt h'.1
  have hr : csrReadOnly a = false := by simpa using h'.2.2.1
  subst ha
  refine ⟨?_, ?_, ?_, ?_⟩ <;> (rintro rfl; exact absurd hr (by decide))

/-- A CSR with storage of its own reads the value just written, `misa` excepted; every other such CSR
reads as before. -/
theorem csrRead_csrWrite (c d : Csr) (v : Word) (s : State) (hd : d.isCounterView = false) :
    csrRead d (csrWrite c v s) = if d = c ∧ c ≠ .misa then v else csrRead d s := by
  cases d <;> first
    | (exact absurd hd (by decide))
    | (cases c <;> rfl)

/-- The end of an instruction and the write of a general register change no CSR with storage. -/
theorem csrRead_congr {s t : State} (d : Csr) (hd : d.isCounterView = false) (h : t.csr = s.csr) :
    csrRead d t = csrRead d s := by
  cases d <;> first
    | (exact absurd hd (by decide))
    | (simp only [csrRead, h])

/-- The cycle counter after a write of a CSR. -/
theorem csrWrite_cycle (c : Csr) (v : Word) (s : State) :
    (csrWrite c v s).cycle = if c = .mcycle then s.cycle.extractLsb' 32 32 ++ v else s.cycle := by
  cases c <;> rfl

/-- The instruction counter after a write of a CSR. -/
theorem csrWrite_instret (c : Csr) (v : Word) (s : State) :
    (csrWrite c v s).instret = if c = .minstret then s.instret.extractLsb' 32 32 ++ v else s.instret := by
  cases c <;> rfl

/-- The state a CSR instruction leaves once its access is allowed. -/
def csrAfter (c : Csr) (rd : RegNum) (willWrite : Bool) (update : Word → Word) (s : State) : State :=
  let s1 := csrObserve c s
  let s2 := if willWrite then csrWrite c (update (csrRead c s1)) s1 else s1
  let s3 := s2.setX rd (csrRead c s1)
  if willWrite && c == .minstret then s3.goTo (s3.pc + 4) else s3.retire (s3.pc + 4)

/-- The fields a CSR instruction leaves alone. -/
@[simp] theorem csrAfter_mem (c : Csr) (rd : RegNum) (w : Bool) (f : Word → Word) (s : State) :
    (csrAfter c rd w f s).mem = s.mem := by
  unfold csrAfter; cases w <;> by_cases hc : c = .minstret <;> simp [hc]
@[simp] theorem csrAfter_stale (c : Csr) (rd : RegNum) (w : Bool) (f : Word → Word) (s : State) :
    (csrAfter c rd w f s).stale = s.stale := by
  unfold csrAfter; cases w <;> by_cases hc : c = .minstret <;> simp [hc]
@[simp] theorem csrAfter_priv (c : Csr) (rd : RegNum) (w : Bool) (f : Word → Word) (s : State) :
    (csrAfter c rd w f s).priv = s.priv := by
  unfold csrAfter; cases w <;> by_cases hc : c = .minstret <;> simp [hc]
@[simp] theorem csrAfter_denied (c : Csr) (rd : RegNum) (w : Bool) (f : Word → Word) (s : State) :
    (csrAfter c rd w f s).denied = s.denied := by
  unfold csrAfter; cases w <;> by_cases hc : c = .minstret <;> simp [hc]
@[simp] theorem csrAfter_pc (c : Csr) (rd : RegNum) (w : Bool) (f : Word → Word) (s : State) :
    (csrAfter c rd w f s).pc = s.pc + 4 := by
  unfold csrAfter; cases w <;> by_cases hc : c = .minstret <;> simp [hc]

/-- The instruction counter after a CSR instruction: the low half written, or one more (R56). -/
theorem csrAfter_instret (c : Csr) (rd : RegNum) (w : Bool) (f : Word → Word) (s : State) :
    (csrAfter c rd w f s).instret =
      if w = true ∧ c = .minstret then s.instret.extractLsb' 32 32 ++ f (s.instret.extractLsb' 0 32)
      else s.instret + 1 := by
  unfold csrAfter
  cases w <;> by_cases hc : c = .minstret <;> simp [hc, csrWrite_instret, csrRead]

/-- The CSRs after a CSR instruction are those after its write, or after its read. -/
theorem csrAfter_csr (c : Csr) (rd : RegNum) (w : Bool) (f : Word → Word) (s : State) :
    (csrAfter c rd w f s).csr =
      (if w then csrWrite c (f (csrRead c (csrObserve c s))) (csrObserve c s) else csrObserve c s).csr := by
  unfold csrAfter; cases w <;> by_cases hc : c = .minstret <;> simp [hc]

/-- A CSR instruction whose access is allowed always completes. -/
theorem csrCommit_eq (c : Csr) (rd : RegNum) (w : Bool) (f : Word → Word) (s : State) :
    csrCommit c rd w f s = .next (csrAfter c rd w f s) := by
  unfold csrCommit csrAfter finish
  cases w
  · rfl
  · by_cases hc : c = .minstret
    · subst hc; rfl
    · simp [hc]

/-- All that a CSR instruction can do when it answers a next state. -/
theorem csrAccess_next {word : Word} {rd : RegNum} {a : CsrNum} {w : Bool} {f : Word → Word}
    {s t : State} (h : csrAccess word rd a w f s = .next t) :
    (csrCheck a w s = none ∧ raise .illegalInstruction word s = .next t) ∨
      ∃ c, csrCheck a w s = some c ∧ t = csrAfter c rd w f s := by
  unfold csrAccess at h
  split at h
  · exact .inl ⟨‹_›, h⟩
  · rw [csrCommit_eq] at h
    exact .inr ⟨_, ‹_›, by simpa using h.symm⟩

end Sys2Proof.Machine
end

