-- ==== Sys2Proof/Laws/Encode.lean ====
section
/-! SUPPORT. The fields of an encoded word, format by format (30_encoding.md R111 to R116), and the
fields of a word that fits a mask and pattern of the opcode table. -/

namespace Sys2Proof

/-! ### Fields of encoded words -/

@[simp] theorem opcodeOf_encodeR (f7 : BitVec 7) (f3 : BitVec 3) (rd rs1 rs2 : RegNum) :
    opcodeOf (encodeR f7 f3 rd rs1 rs2) = 0x33#7 := by
  apply BitVec.eq_of_getLsbD_eq; intro i hi
  simp only [opcodeOf, encodeR, BitVec.getLsbD_extractLsb', BitVec.getLsbD_append]
  interval_cases i <;> simp
@[simp] theorem funct3Of_encodeR (f7 : BitVec 7) (f3 : BitVec 3) (rd rs1 rs2 : RegNum) :
    funct3Of (encodeR f7 f3 rd rs1 rs2) = f3 := by
  apply BitVec.eq_of_getLsbD_eq; intro i hi
  simp only [funct3Of, encodeR, BitVec.getLsbD_extractLsb', BitVec.getLsbD_append]
  interval_cases i <;> simp
@[simp] theorem funct7Of_encodeR (f7 : BitVec 7) (f3 : BitVec 3) (rd rs1 rs2 : RegNum) :
    funct7Of (encodeR f7 f3 rd rs1 rs2) = f7 := by
  apply BitVec.eq_of_getLsbD_eq; intro i hi
  simp only [funct7Of, encodeR, BitVec.getLsbD_extractLsb', BitVec.getLsbD_append]
  interval_cases i <;> simp
@[simp] theorem rdOf_encodeR (f7 : BitVec 7) (f3 : BitVec 3) (rd rs1 rs2 : RegNum) :
    rdOf (encodeR f7 f3 rd rs1 rs2) = rd := by
  apply BitVec.eq_of_getLsbD_eq; intro i hi
  simp only [rdOf, encodeR, BitVec.getLsbD_extractLsb', BitVec.getLsbD_append]
  interval_cases i <;> simp
@[simp] theorem rs1Of_encodeR (f7 : BitVec 7) (f3 : BitVec 3) (rd rs1 rs2 : RegNum) :
    rs1Of (encodeR f7 f3 rd rs1 rs2) = rs1 := by
  apply BitVec.eq_of_getLsbD_eq; intro i hi
  simp only [rs1Of, encodeR, BitVec.getLsbD_extractLsb', BitVec.getLsbD_append]
  interval_cases i <;> simp
@[simp] theorem rs2Of_encodeR (f7 : BitVec 7) (f3 : BitVec 3) (rd rs1 rs2 : RegNum) :
    rs2Of (encodeR f7 f3 rd rs1 rs2) = rs2 := by
  apply BitVec.eq_of_getLsbD_eq; intro i hi
  simp only [rs2Of, encodeR, BitVec.getLsbD_extractLsb', BitVec.getLsbD_append]
  interval_cases i <;> simp

@[simp] theorem opcodeOf_encodeI (op : BitVec 7) (f3 : BitVec 3) (rd rs1 : RegNum) (imm : BitVec 12) :
    opcodeOf (encodeI op f3 rd rs1 imm) = op := by
  apply BitVec.eq_of_getLsbD_eq; intro i hi
  simp only [opcodeOf, encodeI, BitVec.getLsbD_extractLsb', BitVec.getLsbD_append]
  interval_cases i <;> simp
@[simp] theorem funct3Of_encodeI (op : BitVec 7) (f3 : BitVec 3) (rd rs1 : RegNum) (imm : BitVec 12) :
    funct3Of (encodeI op f3 rd rs1 imm) = f3 := by
  apply BitVec.eq_of_getLsbD_eq; intro i hi
  simp only [funct3Of, encodeI, BitVec.getLsbD_extractLsb', BitVec.getLsbD_append]
  interval_cases i <;> simp
@[simp] theorem rdOf_encodeI (op : BitVec 7) (f3 : BitVec 3) (rd rs1 : RegNum) (imm : BitVec 12) :
    rdOf (encodeI op f3 rd rs1 imm) = rd := by
  apply BitVec.eq_of_getLsbD_eq; intro i hi
  simp only [rdOf, encodeI, BitVec.getLsbD_extractLsb', BitVec.getLsbD_append]
  interval_cases i <;> simp
@[simp] theorem rs1Of_encodeI (op : BitVec 7) (f3 : BitVec 3) (rd rs1 : RegNum) (imm : BitVec 12) :
    rs1Of (encodeI op f3 rd rs1 imm) = rs1 := by
  apply BitVec.eq_of_getLsbD_eq; intro i hi
  simp only [rs1Of, encodeI, BitVec.getLsbD_extractLsb', BitVec.getLsbD_append]
  interval_cases i <;> simp
@[simp] theorem immIOf_encodeI (op : BitVec 7) (f3 : BitVec 3) (rd rs1 : RegNum) (imm : BitVec 12) :
    immIOf (encodeI op f3 rd rs1 imm) = imm := by
  apply BitVec.eq_of_getLsbD_eq; intro i hi
  simp only [immIOf, encodeI, BitVec.getLsbD_extractLsb', BitVec.getLsbD_append]
  interval_cases i <;> simp

@[simp] theorem opcodeOf_encodeShift (f7 : BitVec 7) (f3 : BitVec 3) (rd rs1 : RegNum) (shamt : BitVec 5) :
    opcodeOf (encodeShift f7 f3 rd rs1 shamt) = 0x13#7 := by
  apply BitVec.eq_of_getLsbD_eq; intro i hi
  simp only [opcodeOf, encodeShift, BitVec.getLsbD_extractLsb', BitVec.getLsbD_append]
  interval_cases i <;> simp
@[simp] theorem funct3Of_encodeShift (f7 : BitVec 7) (f3 : BitVec 3) (rd rs1 : RegNum) (shamt : BitVec 5) :
    funct3Of (encodeShift f7 f3 rd rs1 shamt) = f3 := by
  apply BitVec.eq_of_getLsbD_eq; intro i hi
  simp only [funct3Of, encodeShift, BitVec.getLsbD_extractLsb', BitVec.getLsbD_append]
  interval_cases i <;> simp
@[simp] theorem funct7Of_encodeShift (f7 : BitVec 7) (f3 : BitVec 3) (rd rs1 : RegNum) (shamt : BitVec 5) :
    funct7Of (encodeShift f7 f3 rd rs1 shamt) = f7 := by
  apply BitVec.eq_of_getLsbD_eq; intro i hi
  simp only [funct7Of, encodeShift, BitVec.getLsbD_extractLsb', BitVec.getLsbD_append]
  interval_cases i <;> simp
@[simp] theorem rdOf_encodeShift (f7 : BitVec 7) (f3 : BitVec 3) (rd rs1 : RegNum) (shamt : BitVec 5) :
    rdOf (encodeShift f7 f3 rd rs1 shamt) = rd := by
  apply BitVec.eq_of_getLsbD_eq; intro i hi
  simp only [rdOf, encodeShift, BitVec.getLsbD_extractLsb', BitVec.getLsbD_append]
  interval_cases i <;> simp
@[simp] theorem rs1Of_encodeShift (f7 : BitVec 7) (f3 : BitVec 3) (rd rs1 : RegNum) (shamt : BitVec 5) :
    rs1Of (encodeShift f7 f3 rd rs1 shamt) = rs1 := by
  apply BitVec.eq_of_getLsbD_eq; intro i hi
  simp only [rs1Of, encodeShift, BitVec.getLsbD_extractLsb', BitVec.getLsbD_append]
  interval_cases i <;> simp
@[simp] theorem rs2Of_encodeShift (f7 : BitVec 7) (f3 : BitVec 3) (rd rs1 : RegNum) (shamt : BitVec 5) :
    rs2Of (encodeShift f7 f3 rd rs1 shamt) = shamt := by
  apply BitVec.eq_of_getLsbD_eq; intro i hi
  simp only [rs2Of, encodeShift, BitVec.getLsbD_extractLsb', BitVec.getLsbD_append]
  interval_cases i <;> simp

@[simp] theorem opcodeOf_encodeS (f3 : BitVec 3) (rs1 rs2 : RegNum) (imm : BitVec 12) :
    opcodeOf (encodeS f3 rs1 rs2 imm) = 0x23#7 := by
  apply BitVec.eq_of_getLsbD_eq; intro i hi
  simp only [opcodeOf, encodeS, BitVec.getLsbD_extractLsb', BitVec.getLsbD_append]
  interval_cases i <;> simp
@[simp] theorem funct3Of_encodeS (f3 : BitVec 3) (rs1 rs2 : RegNum) (imm : BitVec 12) :
    funct3Of (encodeS f3 rs1 rs2 imm) = f3 := by
  apply BitVec.eq_of_getLsbD_eq; intro i hi
  simp only [funct3Of, encodeS, BitVec.getLsbD_extractLsb', BitVec.getLsbD_append]
  interval_cases i <;> simp
@[simp] theorem rs1Of_encodeS (f3 : BitVec 3) (rs1 rs2 : RegNum) (imm : BitVec 12) :
    rs1Of (encodeS f3 rs1 rs2 imm) = rs1 := by
  apply BitVec.eq_of_getLsbD_eq; intro i hi
  simp only [rs1Of, encodeS, BitVec.getLsbD_extractLsb', BitVec.getLsbD_append]
  interval_cases i <;> simp
@[simp] theorem rs2Of_encodeS (f3 : BitVec 3) (rs1 rs2 : RegNum) (imm : BitVec 12) :
    rs2Of (encodeS f3 rs1 rs2 imm) = rs2 := by
  apply BitVec.eq_of_getLsbD_eq; intro i hi
  simp only [rs2Of, encodeS, BitVec.getLsbD_extractLsb', BitVec.getLsbD_append]
  interval_cases i <;> simp
@[simp] theorem immSOf_encodeS (f3 : BitVec 3) (rs1 rs2 : RegNum) (imm : BitVec 12) :
    immSOf (encodeS f3 rs1 rs2 imm) = imm := by
  apply BitVec.eq_of_getLsbD_eq; intro i hi
  simp only [immSOf, encodeS, BitVec.getLsbD_extractLsb', BitVec.getLsbD_append]
  interval_cases i <;> simp

@[simp] theorem opcodeOf_encodeB (f3 : BitVec 3) (rs1 rs2 : RegNum) (offset : BitVec 13) :
    opcodeOf (encodeB f3 rs1 rs2 offset) = 0x63#7 := by
  apply BitVec.eq_of_getLsbD_eq; intro i hi
  simp only [opcodeOf, encodeB, BitVec.getLsbD_extractLsb', BitVec.getLsbD_append]
  interval_cases i <;> simp
@[simp] theorem funct3Of_encodeB (f3 : BitVec 3) (rs1 rs2 : RegNum) (offset : BitVec 13) :
    funct3Of (encodeB f3 rs1 rs2 offset) = f3 := by
  apply BitVec.eq_of_getLsbD_eq; intro i hi
  simp only [funct3Of, encodeB, BitVec.getLsbD_extractLsb', BitVec.getLsbD_append]
  interval_cases i <;> simp
@[simp] theorem rs1Of_encodeB (f3 : BitVec 3) (rs1 rs2 : RegNum) (offset : BitVec 13) :
    rs1Of (encodeB f3 rs1 rs2 offset) = rs1 := by
  apply BitVec.eq_of_getLsbD_eq; intro i hi
  simp only [rs1Of, encodeB, BitVec.getLsbD_extractLsb', BitVec.getLsbD_append]
  interval_cases i <;> simp
@[simp] theorem rs2Of_encodeB (f3 : BitVec 3) (rs1 rs2 : RegNum) (offset : BitVec 13) :
    rs2Of (encodeB f3 rs1 rs2 offset) = rs2 := by
  apply BitVec.eq_of_getLsbD_eq; intro i hi
  simp only [rs2Of, encodeB, BitVec.getLsbD_extractLsb', BitVec.getLsbD_append]
  interval_cases i <;> simp
/-- The displacement comes back whole if its bit 0, which has no place, is 0. -/
theorem immBOf_encodeB (f3 : BitVec 3) (rs1 rs2 : RegNum) (offset : BitVec 13)
    (h : offset.getLsbD 0 = false) : immBOf (encodeB f3 rs1 rs2 offset) = offset := by
  apply BitVec.eq_of_getLsbD_eq; intro i hi
  simp only [immBOf, encodeB, BitVec.getLsbD_extractLsb', BitVec.getLsbD_append]
  interval_cases i <;> first | (simp; done) | simpa using h

@[simp] theorem opcodeOf_encodeU (op : BitVec 7) (rd : RegNum) (imm20 : BitVec 20) :
    opcodeOf (encodeU op rd imm20) = op := by
  apply BitVec.eq_of_getLsbD_eq; intro i hi
  simp only [opcodeOf, encodeU, BitVec.getLsbD_extractLsb', BitVec.getLsbD_append]
  interval_cases i <;> simp
@[simp] theorem rdOf_encodeU (op : BitVec 7) (rd : RegNum) (imm20 : BitVec 20) :
    rdOf (encodeU op rd imm20) = rd := by
  apply BitVec.eq_of_getLsbD_eq; intro i hi
  simp only [rdOf, encodeU, BitVec.getLsbD_extractLsb', BitVec.getLsbD_append]
  interval_cases i <;> simp
@[simp] theorem immUOf_encodeU (op : BitVec 7) (rd : RegNum) (imm20 : BitVec 20) :
    immUOf (encodeU op rd imm20) = imm20 := by
  apply BitVec.eq_of_getLsbD_eq; intro i hi
  simp only [immUOf, encodeU, BitVec.getLsbD_extractLsb', BitVec.getLsbD_append]
  interval_cases i <;> simp

@[simp] theorem opcodeOf_encodeJ (rd : RegNum) (offset : BitVec 21) :
    opcodeOf (encodeJ rd offset) = 0x6F#7 := by
  apply BitVec.eq_of_getLsbD_eq; intro i hi
  simp only [opcodeOf, encodeJ, BitVec.getLsbD_extractLsb', BitVec.getLsbD_append]
  interval_cases i <;> simp
@[simp] theorem rdOf_encodeJ (rd : RegNum) (offset : BitVec 21) :
    rdOf (encodeJ rd offset) = rd := by
  apply BitVec.eq_of_getLsbD_eq; intro i hi
  simp only [rdOf, encodeJ, BitVec.getLsbD_extractLsb', BitVec.getLsbD_append]
  interval_cases i <;> simp
/-- The displacement comes back whole if its bit 0, which has no place, is 0. -/
theorem immJOf_encodeJ (rd : RegNum) (offset : BitVec 21)
    (h : offset.getLsbD 0 = false) : immJOf (encodeJ rd offset) = offset := by
  apply BitVec.eq_of_getLsbD_eq; intro i hi
  simp only [immJOf, encodeJ, BitVec.getLsbD_extractLsb', BitVec.getLsbD_append]
  interval_cases i <;> first | (simp; done) | simpa using h

/-! ### Fields of a word that fits a mask and pattern -/

/-- A field that the mask keeps whole is the pattern's. -/
theorem field_of_masked {w mask pattern : Word} (h : w &&& mask = pattern) (lo n : Nat)
    (hm : mask.extractLsb' lo n = BitVec.allOnes n) :
    w.extractLsb' lo n = pattern.extractLsb' lo n := by
  rw [← h, BitVec.extractLsb'_and, hm, BitVec.and_allOnes]

/-- A word of a row that fixes only the opcode. -/
theorem opcode_of_masked {w mask pattern : Word} (h : w &&& mask = pattern)
    (hm : mask.extractLsb' 0 7 = BitVec.allOnes 7) : opcodeOf w = opcodeOf pattern :=
  field_of_masked h 0 7 hm

/-- A word of a row that fixes funct3. -/
theorem funct3_of_masked {w mask pattern : Word} (h : w &&& mask = pattern)
    (hm : mask.extractLsb' 12 3 = BitVec.allOnes 3) : funct3Of w = funct3Of pattern :=
  field_of_masked h 12 3 hm

/-- A word of a row that fixes `inst[31:25]`. -/
theorem funct7_of_masked {w mask pattern : Word} (h : w &&& mask = pattern)
    (hm : mask.extractLsb' 25 7 = BitVec.allOnes 7) : funct7Of w = funct7Of pattern :=
  field_of_masked h 25 7 hm

end Sys2Proof
end

