-- ==== Sys2Proof/Laws/Memory.lean ====
section
/-! SUPPORT. Memory and the stale set: what a read returns after a write, and that every operation
keeps the canonical form (20_memory.md R80, R86, R89, R104). -/

namespace Sys2Proof.Machine

/-! ### Reading after writing -/

theorem read_erase (m : Memory) (a b : Nat) :
    Memory.read (Memory.erase m a) b = if b = a then Config.unlistedByte else Memory.read m b := by
  induction m with
  | nil => simp [Memory.erase, Memory.read]
  | cons c rest ih =>
    simp only [Memory.erase, List.filter_cons] at ih ⊢
    by_cases hc : c.1 = a
    · have hc' : (c.1 != a) = false := by simp [hc]
      rw [hc', if_neg (by decide), ih]
      by_cases hb : b = a
      · simp [hb]
      · simp [hb, Memory.read, hc, Ne.symm hb]
    · have hc' : (c.1 != a) = true := by simp [hc]
      rw [hc', if_pos rfl]
      simp only [Memory.read, ih]
      by_cases hb : c.1 = b
      · have : b ≠ a := fun e => hc (hb.trans e)
        simp [hb, this]
      · simp [hb]

theorem read_place (m : Memory) (a b : Nat) (v : Byte) (h : ∀ c ∈ m, c.1 ≠ a) :
    Memory.read (Memory.place m a v) b = if b = a then v else Memory.read m b := by
  induction m with
  | nil => simp [Memory.place, Memory.read, eq_comm]
  | cons c rest ih =>
    simp only [Memory.place]
    by_cases hlt : a < c.1
    · simp [hlt, Memory.read, eq_comm (a := a)]
    · have hc : c.1 ≠ a := h c (by simp)
      rw [if_neg hlt]
      simp only [Memory.read, ih fun d hd => h d (by simp [hd])]
      by_cases hb : c.1 = b
      · have : b ≠ a := fun e => hc (hb.trans e)
        simp [hb, this]
      · simp [hb]

theorem erase_no_entry (m : Memory) (a : Nat) : ∀ c ∈ Memory.erase m a, c.1 ≠ a := by
  intro c hc
  simpa using (List.mem_filter.mp hc).2

/-- A byte reads as the last write to it. -/
theorem read_write (m : Memory) (a b : Nat) (v : Byte) :
    Memory.read (Memory.write m a v) b = if b = a then v else Memory.read m b := by
  unfold Memory.write
  by_cases hv : v = Config.unlistedByte
  · rw [if_pos hv, read_erase, hv]
  · rw [if_neg hv, read_place _ _ _ _ (erase_no_entry m a), read_erase]
    by_cases hb : b = a <;> simp [hb]

/-- After writing bytes from `a`, the bytes there are the ones written and the others are as before. -/
theorem read_writeBytes (bs : List Byte) (m : Memory) (a b : Nat) :
    Memory.read (Memory.writeBytes m a bs) b =
      if h : a ≤ b ∧ b < a + bs.length then bs[b - a]'(by omega) else Memory.read m b := by
  induction bs generalizing m a with
  | nil => simp [Memory.writeBytes]
  | cons v rest ih =>
    simp only [Memory.writeBytes, ih, read_write, List.length_cons]
    by_cases h1 : a + 1 ≤ b ∧ b < a + 1 + rest.length
    · have h2 : a ≤ b ∧ b < a + (rest.length + 1) := by omega
      rw [dif_pos h1, dif_pos h2]
      have e : b - a = (b - (a + 1)) + 1 := by omega
      simp [e]
    · rw [dif_neg h1]
      by_cases hb : b = a
      · have h2 : a ≤ b ∧ b < a + (rest.length + 1) := by omega
        rw [dif_pos h2]; simp [hb]
      · have h2 : ¬(a ≤ b ∧ b < a + (rest.length + 1)) := by omega
        rw [dif_neg h2]; simp [hb]

theorem read_writeBytes_outside (bs : List Byte) (m : Memory) (a b : Nat)
    (h : b < a ∨ a + bs.length ≤ b) :
    Memory.read (Memory.writeBytes m a bs) b = Memory.read m b := by
  rw [read_writeBytes, dif_neg (by omega)]

/-! ### Words and bytes -/

@[simp] theorem inByteOrder_eq (bs : List Byte) : inByteOrder bs = bs := rfl

@[simp] theorem bytesOf_length (n : Nat) (v : Word) : (bytesOf n v).length = n := by
  simp [bytesOf]

theorem bytesOf_getElem (n : Nat) (v : Word) (i : Nat) (h : i < (bytesOf n v).length) :
    (bytesOf n v)[i] = v.extractLsb' (8 * i) 8 := by
  simp [bytesOf]

/-- One byte, zero-extended. -/
theorem ofBytes_one (b0 : Byte) : ofBytes [b0] = b0.setWidth 32 := by
  apply BitVec.eq_of_getLsbD_eq
  intro i hi
  simp [ofBytes, joinBytes]

/-- Two bytes, the second above the first, zero-extended. -/
theorem ofBytes_two (b0 b1 : Byte) : ofBytes [b0, b1] = (b1 ++ b0 : BitVec 16).setWidth 32 := by
  apply BitVec.eq_of_getLsbD_eq
  intro i hi
  simp only [ofBytes, joinBytes, inByteOrder_eq, BitVec.getLsbD_or, BitVec.getLsbD_setWidth,
    BitVec.getLsbD_shiftLeft, BitVec.getLsbD_append]
  interval_cases i <;> simp

/-- Four bytes, each above the one before it. -/
theorem ofBytes_four (b0 b1 b2 b3 : Byte) :
    ofBytes [b0, b1, b2, b3] = (b3 ++ b2 ++ b1 ++ b0 : BitVec 32) := by
  apply BitVec.eq_of_getLsbD_eq
  intro i hi
  simp only [ofBytes, joinBytes, inByteOrder_eq, BitVec.getLsbD_or, BitVec.getLsbD_setWidth,
    BitVec.getLsbD_shiftLeft, BitVec.getLsbD_append]
  interval_cases i <;> simp

theorem bytesOf_four (v : Word) :
    bytesOf 4 v = [v.extractLsb' 0 8, v.extractLsb' 8 8, v.extractLsb' 16 8, v.extractLsb' 24 8] := rfl

/-- A word put down as bytes and read back is the word. -/
theorem ofBytes_bytesOf (v : Word) : ofBytes (bytesOf 4 v) = v := by
  rw [bytesOf_four, ofBytes_four]
  apply BitVec.eq_of_getLsbD_eq
  intro i hi
  simp only [BitVec.getLsbD_append, BitVec.getLsbD_extractLsb']
  interval_cases i <;> simp

/-- Bytes written from `a` and read back from `a` are the bytes. -/
theorem readBytes_writeBytes (bs : List Byte) (m : Memory) (a : Nat) :
    Memory.readBytes (Memory.writeBytes m a bs) a bs.length = bs := by
  apply List.ext_getElem
  · simp [Memory.readBytes]
  · intro i h1 h2
    simp only [Memory.readBytes, List.getElem_map, List.getElem_range]
    rw [read_writeBytes, dif_pos (by omega)]
    simp

theorem readBytes_one (m : Memory) (a : Nat) : Memory.readBytes m a 1 = [Memory.read m a] := rfl
theorem readBytes_two (m : Memory) (a : Nat) :
    Memory.readBytes m a 2 = [Memory.read m a, Memory.read m (a + 1)] := rfl
theorem readBytes_four (m : Memory) (a : Nat) :
    Memory.readBytes m a 4 =
      [Memory.read m a, Memory.read m (a + 1), Memory.read m (a + 2), Memory.read m (a + 3)] := rfl

/-! ### The canonical form of memory -/

theorem wf_iff (m : Memory) :
    Memory.wf m = true ↔
      m.Pairwise (fun p q => p.1 < q.1) ∧ ∀ c ∈ m, c.1 < 2 ^ 32 ∧ c.2 ≠ Config.unlistedByte := by
  simp [Memory.wf]

theorem wf_nil : Memory.wf [] = true := rfl

theorem erase_wf {m : Memory} (a : Nat) (h : Memory.wf m = true) : Memory.wf (Memory.erase m a) = true := by
  rw [wf_iff] at h ⊢
  exact ⟨h.1.filter _, fun c hc => h.2 c (List.mem_of_mem_filter hc)⟩

theorem mem_place {m : Memory} {a : Nat} {v : Byte} {c : Host.Cell} (h : c ∈ Memory.place m a v) :
    c = (a, v) ∨ c ∈ m := by
  induction m with
  | nil => simpa [Memory.place] using h
  | cons d rest ih =>
    simp only [Memory.place] at h
    split at h
    · simpa using h
    · rcases List.mem_cons.mp h with h | h
      · exact .inr (h ▸ List.mem_cons_self)
      · exact (ih h).imp_right (List.mem_cons_of_mem _)

theorem place_wf {m : Memory} {a : Nat} {v : Byte} (h : Memory.wf m = true) (ha : a < 2 ^ 32)
    (hv : v ≠ Config.unlistedByte) (hno : ∀ c ∈ m, c.1 ≠ a) : Memory.wf (Memory.place m a v) = true := by
  rw [wf_iff] at h ⊢
  refine ⟨?_, fun c hc => ?_⟩
  · replace h := h.1
    induction m with
    | nil => simp [Memory.place]
    | cons d rest ih =>
      have hd := List.pairwise_cons.mp h
      simp only [Memory.place]
      split
      · rename_i hlt
        refine List.pairwise_cons.mpr ⟨fun c hc => ?_, h⟩
        rcases List.mem_cons.mp hc with rfl | hc
        · exact hlt
        · exact Nat.lt_trans hlt (hd.1 c hc)
      · rename_i hlt
        have hda : d.1 < a := by
          have := hno d (by simp)
          omega
        refine List.pairwise_cons.mpr ⟨fun c hc => ?_, ih (fun c hc => hno c (by simp [hc])) hd.2⟩
        rcases mem_place hc with rfl | hc
        · exact hda
        · exact hd.1 c hc
  · rcases mem_place hc with rfl | hc
    · exact ⟨ha, hv⟩
    · exact h.2 c hc

/-- Writing a byte of the address space keeps the canonical form. -/
theorem write_wf {m : Memory} {a : Nat} (v : Byte) (h : Memory.wf m = true) (ha : a < 2 ^ 32) :
    Memory.wf (Memory.write m a v) = true := by
  unfold Memory.write
  split
  · exact erase_wf a h
  · exact place_wf (erase_wf a h) ha ‹_› (erase_no_entry m a)

/-- Writing bytes of the address space keeps the canonical form. -/
theorem writeBytes_wf (bs : List Byte) {m : Memory} {a : Nat} (h : Memory.wf m = true)
    (ha : a + bs.length ≤ 2 ^ 32) : Memory.wf (Memory.writeBytes m a bs) = true := by
  induction bs generalizing m a with
  | nil => exact h
  | cons v rest ih =>
    simp only [List.length_cons] at ha
    exact ih (write_wf v h (by omega)) (by omega)

/-- Memory after reset has the canonical form. -/
theorem reset_mem_wf : Memory.wf State.reset.mem = true := rfl

/-! ### Alignment -/

/-- An aligned access of 1, 2 or 4 bytes lies inside the address space (R90). -/
theorem aligned_inside {a : Word} {n : Nat} (h : aligned a n = true) (hn : n = 1 ∨ n = 2 ∨ n = 4) :
    a.toNat + n ≤ 2 ^ 32 := by
  have h' : a.toNat % n = 0 := by simpa [aligned] using h
  have := a.isLt
  rcases hn with rfl | rfl | rfl <;> omega

/-! ### The stale set -/

theorem mem_addStale (l : List Nat) (a b : Nat) : b ∈ addStale l a ↔ b ∈ l ∨ b = a := by
  induction l with
  | nil => simp [addStale]
  | cons c rest ih =>
    simp only [addStale]
    split
    · simp only [List.mem_cons]; tauto
    · split
      · rename_i h; subst h; simp only [List.mem_cons]; tauto
      · simp only [List.mem_cons, ih]; tauto

/-- Exactly the range is added. -/
theorem mem_addStaleRange (n : Nat) (l : List Nat) (a b : Nat) :
    b ∈ addStaleRange l a n ↔ b ∈ l ∨ (a ≤ b ∧ b < a + n) := by
  induction n generalizing l a with
  | zero => simp [addStaleRange]
  | succ k ih =>
    simp only [addStaleRange, ih, mem_addStale]
    constructor
    · rintro ((h | h) | h)
      · exact .inl h
      · right; omega
      · right; omega
    · rintro (h | h)
      · exact .inl (.inl h)
      · by_cases hb : b = a
        · exact .inl (.inr hb)
        · right; omega

theorem staleWf_iff (l : List Nat) : staleWf l = true ↔ l.Pairwise (· < ·) := by simp [staleWf]

theorem addStale_wf {l : List Nat} (a : Nat) (h : staleWf l = true) : staleWf (addStale l a) = true := by
  rw [staleWf_iff] at h ⊢
  induction l with
  | nil => simp [addStale]
  | cons c rest ih =>
    have hc := List.pairwise_cons.mp h
    simp only [addStale]
    split
    · rename_i hlt
      refine List.pairwise_cons.mpr ⟨fun b hb => ?_, h⟩
      rcases List.mem_cons.mp hb with rfl | hb
      · exact hlt
      · exact Nat.lt_trans hlt (hc.1 b hb)
    · split
      · exact h
      · refine List.pairwise_cons.mpr ⟨fun b hb => ?_, ih hc.2⟩
        rcases (mem_addStale rest a b).mp hb with hb | rfl
        · exact hc.1 b hb
        · omega

theorem addStaleRange_wf (n : Nat) {l : List Nat} (a : Nat) (h : staleWf l = true) :
    staleWf (addStaleRange l a n) = true := by
  induction n generalizing l a with
  | zero => exact h
  | succ k ih => exact ih (a + 1) (addStale_wf a h)

end Sys2Proof.Machine
end

