-- ==== Sys2Proof/Laws/Trap.lean ====
section
/-! SUPPORT. Taking an exception: the bits of `mstatus`, and all that raise can do (60_exceptions.md
R290 to R293). -/

namespace Sys2Proof.Machine

/-- Bit by bit, what the steps 4 to 6 of trap entry leave in `mstatus` (R290). -/
theorem mstatusOnTrap_bit (v : Word) (m : Mode) (i : Nat) :
    (mstatusOnTrap v m).getLsbD i =
      if i = 3 then false
      else if i = 7 then v.getLsbD 3
      else if i = 11 then m.enc.getLsbD 0
      else if i = 12 then m.enc.getLsbD 1
      else v.getLsbD i := by
  by_cases hi : i < 32
  · simp only [mstatusOnTrap, setMie, setMpie, setMpp, mieOf, BitVec.getLsbD_append,
      BitVec.getLsbD_extractLsb', BitVec.getLsbD_ofBool]
    interval_cases i <;> simp
  · rw [BitVec.getLsbD_of_ge _ _ (by omega), if_neg (by omega), if_neg (by omega), if_neg (by omega),
      if_neg (by omega), BitVec.getLsbD_of_ge _ _ (by omega)]

theorem mieOf_onTrap (v : Word) (m : Mode) : mieOf (mstatusOnTrap v m) = false := by
  rw [mieOf, mstatusOnTrap_bit, if_pos rfl]

theorem mpieOf_onTrap (v : Word) (m : Mode) : mpieOf (mstatusOnTrap v m) = mieOf v := by
  rw [mpieOf, mstatusOnTrap_bit, if_neg (by decide), if_pos rfl, mieOf]

theorem mppOf_onTrap (v : Word) (m : Mode) : mppOf (mstatusOnTrap v m) = m.enc := by
  apply BitVec.eq_of_getLsbD_eq
  intro i hi
  simp only [mppOf, BitVec.getLsbD_extractLsb', mstatusOnTrap_bit]
  interval_cases i <;> simp

/-- A trap in M-mode is never delegated. -/
theorem delegated_machine {e : Exception} {s : State} (h : s.priv = .machine) : delegated e s = false := by
  simp [delegated, h]

/-- All that raise can do when it answers a next state. -/
theorem raise_next {e : Exception} {info : Word} {s t : State} :
    raise e info s = .next t ↔ delegated e s = false ∧ t = trapEntry e info s := by
  unfold raise
  split
  · simp [*]
  · rename_i hd
    simp only [Host.Outcome.next.injEq]
    constructor
    · rintro rfl; exact ⟨by simpa using hd, rfl⟩
    · rintro ⟨_, rfl⟩; rfl

/-- A trap that is not delegated is taken. -/
theorem raise_of_not_delegated {e : Exception} {s : State} (info : Word) (h : delegated e s = false) :
    raise e info s = .next (trapEntry e info s) := raise_next.mpr ⟨h, rfl⟩

/-- A delegated trap is refused. -/
theorem raise_delegated {e : Exception} {s : State} (info : Word) (h : delegated e s = true) :
    raise e info s = .refused .delegationNotDescribed := by simp [raise, h]

end Sys2Proof.Machine
end

