-- ==== Sys2Proof/Laws/Exec.lean ====
section
/-! SUPPORT. All that each shape of instruction can do, and what every instruction keeps because the
operations it is made of keep it. -/

namespace Sys2Proof.Machine

/-- A jump completes at its target (D8, the fetch reports a misaligned one). -/
theorem jumpTo_eq (target : Word) (link : State → State) (s : State) :
    jumpTo target link s = .next ((link s).retire target) := rfl

theorem finish_eq (s : State) : finish s = .next (s.retire (s.pc + 4)) := rfl

/-- A result is written and the next instruction follows. -/
theorem writeResult_eq (rd : RegNum) (v : Word) (s : State) :
    writeResult rd v s = .next ((s.setX rd v).retire (s.pc + 4)) := by
  simp [writeResult, finish]

/-- A branch only moves `pc`. -/
theorem branch_eq (taken : Word → Word → Bool) (rs1 rs2 : RegNum) (offset : BitVec 13) (s : State) :
    branch taken rs1 rs2 offset s =
      .next (s.retire
        (if taken (s.getX rs1) (s.getX rs2) then s.pc + offset.signExtend 32 else s.pc + 4)) := by
  unfold branch
  split <;> rfl

/-- An aligned read of addresses that respond returns the bytes. -/
theorem memRead_ok {s : State} {a : Word} {n : Nat} (ha : aligned a n = true)
    (hr : responds s .load a.toNat n = true) :
    memRead s a n = .ok (ofBytes (Memory.readBytes s.mem a.toNat n)) := by
  simp [memRead, ha, hr]

theorem memRead_misaligned {s : State} {a : Word} {n : Nat} (ha : aligned a n = false) :
    memRead s a n = .error .loadAddressMisaligned := by
  simp [memRead, ha]

theorem memRead_fault {s : State} {a : Word} {n : Nat} (ha : aligned a n = true)
    (hr : responds s .load a.toNat n = false) : memRead s a n = .error .loadAccessFault := by
  simp [memRead, ha, hr]

/-- An aligned write to addresses that respond is done. -/
theorem memWrite_ok {s : State} {a : Word} {n : Nat} (v : Word) (ha : aligned a n = true)
    (hr : responds s .store a.toNat n = true) : memWrite s a n v = .ok (s.storeBytes a n v) := by
  simp [memWrite, ha, hr]

theorem memWrite_misaligned {s : State} {a : Word} {n : Nat} (v : Word) (ha : aligned a n = false) :
    memWrite s a n v = .error .storeAddressMisaligned := by
  simp [memWrite, ha]

theorem memWrite_fault {s : State} {a : Word} {n : Nat} (v : Word) (ha : aligned a n = true)
    (hr : responds s .store a.toNat n = false) : memWrite s a n v = .error .storeAccessFault := by
  simp [memWrite, ha, hr]

/-- All that a load can do when it answers a next state. -/
theorem load_next {n : Nat} {f : Word → Word} {rd rs1 : RegNum} {o : BitVec 12} {s t : State}
    (h : load n f rd rs1 o s = .next t) :
    (∃ e, raise e (effectiveAddress s rs1 o) s = .next t) ∨
      ∃ v, memRead s (effectiveAddress s rs1 o) n = .ok v ∧
        t = (s.setX rd (f v)).retire (s.pc + 4) := by
  simp only [load] at h
  split at h
  · exact .inl ⟨_, h⟩
  · rw [writeResult_eq] at h
    exact .inr ⟨_, ‹_›, by simpa using h.symm⟩

/-- All that a store can do when it answers a next state. -/
theorem store_next {n : Nat} {rs1 rs2 : RegNum} {o : BitVec 12} {s t : State}
    (h : store n rs1 rs2 o s = .next t) :
    (∃ e, raise e (effectiveAddress s rs1 o) s = .next t) ∨
      (aligned (effectiveAddress s rs1 o) n = true ∧
        responds s .store (effectiveAddress s rs1 o).toNat n = true ∧
        t = (s.storeBytes (effectiveAddress s rs1 o) n (s.getX rs2)).retire (s.pc + 4)) := by
  simp only [store, memWrite] at h
  split at h
  · exact .inl ⟨_, h⟩
  · rename_i hs
    split at hs
    · cases hs
    · split at hs
      · cases hs
      · cases hs
        rw [finish_eq] at h
        exact .inr ⟨by simp_all, by simp_all, by simpa using h.symm⟩

/-- All that an instruction can do. It traps; or it completes having at most written one register; or it
stores aligned bytes; or it empties the stale set; or it reaches a CSR it may reach. -/
theorem exec_cases {i : Instr} {s t : State} (h : exec i s = .next t) :
    (∃ e info, delegated e s = false ∧ t = trapEntry e info s) ∨
    (∃ rd v target, t = (s.setX rd v).retire target) ∨
    (∃ a n v, (n = 1 ∨ n = 2 ∨ n = 4) ∧ aligned a n = true ∧
      t = (s.storeBytes a n v).retire (s.pc + 4)) ∨
    (i = .fencei ∧ t = ({ s with stale := [] } : State).retire (s.pc + 4)) ∨
    (∃ a rd w f c, csrCheck a w s = some c ∧ t = csrAfter c rd w f s) := by
  have trap : ∀ {e info}, raise e info s = .next t →
      (∃ e info, delegated e s = false ∧ t = trapEntry e info s) := fun h => ⟨_, _, raise_next.mp h⟩
  have wr : ∀ {rd v}, writeResult rd v s = .next t → (∃ rd v target, t = (s.setX rd v).retire target) := by
    intro rd v h
    rw [writeResult_eq] at h
    exact ⟨rd, v, _, by simpa using h.symm⟩
  have noReg : ∀ {target}, t = s.retire target → (∃ rd v target, t = (s.setX rd v).retire target) :=
    fun h => ⟨0#5, 0, _, h⟩
  have br : ∀ {p rs1 rs2 o}, branch p rs1 rs2 o s = .next t →
      (∃ rd v target, t = (s.setX rd v).retire target) := by
    intro p rs1 rs2 o h
    rw [branch_eq] at h
    exact noReg (by simpa using h.symm)
  have ld : ∀ {n f rd rs1 o}, load n f rd rs1 o s = .next t →
      (∃ e info, delegated e s = false ∧ t = trapEntry e info s) ∨
      (∃ rd v target, t = (s.setX rd v).retire target) := by
    intro n f rd rs1 o h
    rcases load_next h with ⟨e, h⟩ | ⟨v, _, rfl⟩
    · exact .inl (trap h)
    · exact .inr ⟨_, _, _, rfl⟩
  cases i
  case add => exact .inr (.inl (wr h))
  case sub => exact .inr (.inl (wr h))
  case sll => exact .inr (.inl (wr h))
  case slt => exact .inr (.inl (wr h))
  case sltu => exact .inr (.inl (wr h))
  case xor => exact .inr (.inl (wr h))
  case srl => exact .inr (.inl (wr h))
  case sra => exact .inr (.inl (wr h))
  case or => exact .inr (.inl (wr h))
  case and => exact .inr (.inl (wr h))
  case addi => exact .inr (.inl (wr h))
  case slti => exact .inr (.inl (wr h))
  case sltiu => exact .inr (.inl (wr h))
  case xori => exact .inr (.inl (wr h))
  case ori => exact .inr (.inl (wr h))
  case andi => exact .inr (.inl (wr h))
  case slli => exact .inr (.inl (wr h))
  case srli => exact .inr (.inl (wr h))
  case srai => exact .inr (.inl (wr h))
  case lui => exact .inr (.inl (wr h))
  case auipc => exact .inr (.inl (wr h))
  case lb => exact (ld h).imp_right .inl
  case lh => exact (ld h).imp_right .inl
  case lw => exact (ld h).imp_right .inl
  case lbu => exact (ld h).imp_right .inl
  case lhu => exact (ld h).imp_right .inl
  case sb =>
    rcases store_next h with ⟨e, h⟩ | ⟨ha, _, ht⟩
    · exact .inl (trap h)
    · exact .inr (.inr (.inl ⟨_, 1, _, by simp, ha, ht⟩))
  case sh =>
    rcases store_next h with ⟨e, h⟩ | ⟨ha, _, ht⟩
    · exact .inl (trap h)
    · exact .inr (.inr (.inl ⟨_, 2, _, by simp, ha, ht⟩))
  case sw =>
    rcases store_next h with ⟨e, h⟩ | ⟨ha, _, ht⟩
    · exact .inl (trap h)
    · exact .inr (.inr (.inl ⟨_, 4, _, by simp, ha, ht⟩))
  case beq => exact .inr (.inl (br h))
  case bne => exact .inr (.inl (br h))
  case blt => exact .inr (.inl (br h))
  case bge => exact .inr (.inl (br (p := fun a b => !lessSigned a b) h))
  case bltu => exact .inr (.inl (br h))
  case bgeu => exact .inr (.inl (br (p := fun a b => !lessUnsigned a b) h))
  case jal =>
    simp only [exec, execJal, jumpTo_eq, Host.Outcome.next.injEq] at h
    exact .inr (.inl ⟨_, _, _, h.symm⟩)
  case jalr =>
    simp only [exec, execJalr, jumpTo_eq, Host.Outcome.next.injEq] at h
    exact .inr (.inl ⟨_, _, _, h.symm⟩)
  case fence =>
    simp only [exec, execFence, finish_eq, Host.Outcome.next.injEq] at h
    exact .inr (.inl (noReg h.symm))
  case fencei =>
    simp only [exec, execFencei, finish_eq, Host.Outcome.next.injEq] at h
    exact .inr (.inr (.inr (.inl ⟨rfl, h.symm⟩)))
  case ecall => exact .inl (trap h)
  case ebreak => exact .inl (trap h)
  all_goals
    rcases csrAccess_next h with ⟨_, h⟩ | ⟨c, hc, ht⟩
    · exact .inl (trap h)
    · exact .inr (.inr (.inr (.inr ⟨_, _, _, _, c, hc, ht⟩)))

/-- No instruction is refused for want of a meaning: a refusal is a delegated trap, which
M-mode has none of. -/
theorem exec_refused {i : Instr} {s : State} {r : Refusal} (h : exec i s = .refused r) :
    r = .delegationNotDescribed ∧ s.priv ≠ .machine := by
  have rs : ∀ {e info}, raise e info s = .refused r → r = .delegationNotDescribed ∧ s.priv ≠ .machine := by
    intro e info h
    unfold raise at h
    split at h
    · rename_i hd
      simp only [delegated, Bool.and_eq_true, bne_iff_ne, ne_eq] at hd
      exact ⟨by simpa using h.symm, hd.1⟩
    · cases h
  have ld : ∀ {n f rd rs1 o}, load n f rd rs1 o s = .refused r → r = .delegationNotDescribed ∧ s.priv ≠ .machine := by
    intro n f rd rs1 o h
    simp only [load] at h
    split at h
    · exact rs h
    · rw [writeResult_eq] at h; cases h
  have st : ∀ {n rs1 rs2 o}, store n rs1 rs2 o s = .refused r → r = .delegationNotDescribed ∧ s.priv ≠ .machine := by
    intro n rs1 rs2 o h
    simp only [store] at h
    split at h
    · exact rs h
    · cases h
  have br : ∀ {p rs1 rs2 o}, branch p rs1 rs2 o s = .refused r → r = .delegationNotDescribed ∧ s.priv ≠ .machine := by
    intro p rs1 rs2 o h
    rw [branch_eq] at h; cases h
  have cs : ∀ {word rd a w f}, csrAccess word rd a w f s = .refused r → r = .delegationNotDescribed ∧ s.priv ≠ .machine := by
    intro word rd a w f h
    unfold csrAccess at h
    split at h
    · exact rs h
    · rw [csrCommit_eq] at h; cases h
  cases i
  case bge => exact br (p := fun a b => !lessSigned a b) h
  case bgeu => exact br (p := fun a b => !lessUnsigned a b) h
  all_goals first
    | (exact rs h) | (exact ld h) | (exact st h) | (exact br h) | (exact cs h) | (cases h)

end Sys2Proof.Machine
end

