-- ==== Sys2Proof/Laws/PerInstr.lean ====
section
/-! SUPPORT. Statements for all instructions, one lemma for each constructor. -/

namespace Sys2Proof.Laws

/-- The family: the opcode of every encoded instruction ends in 11 (30_encoding.md R135: "all eleven
assigned opcodes end in 11"). -/
def EncodedOpcode.Statement (i : Instr) : Prop := (opcodeOf (encode i)).extractLsb' 0 2 = 3#2

/-- It is enough that the word's opcode ends so. -/
theorem ends_in_11 {w : Word} {op : BitVec 7} (h : opcodeOf w = op) (ho : op.extractLsb' 0 2 = 3#2) :
    (opcodeOf w).extractLsb' 0 2 = 3#2 := by rw [h, ho]

theorem EncodedOpcode.add (rd rs1 rs2 : RegNum) :
    EncodedOpcode.Statement (.add rd rs1 rs2) := ends_in_11 (opcodeOf_encodeR _ _ _ _ _) rfl
theorem EncodedOpcode.sub (rd rs1 rs2 : RegNum) :
    EncodedOpcode.Statement (.sub rd rs1 rs2) := ends_in_11 (opcodeOf_encodeR _ _ _ _ _) rfl
theorem EncodedOpcode.sll (rd rs1 rs2 : RegNum) :
    EncodedOpcode.Statement (.sll rd rs1 rs2) := ends_in_11 (opcodeOf_encodeR _ _ _ _ _) rfl
theorem EncodedOpcode.slt (rd rs1 rs2 : RegNum) :
    EncodedOpcode.Statement (.slt rd rs1 rs2) := ends_in_11 (opcodeOf_encodeR _ _ _ _ _) rfl
theorem EncodedOpcode.sltu (rd rs1 rs2 : RegNum) :
    EncodedOpcode.Statement (.sltu rd rs1 rs2) := ends_in_11 (opcodeOf_encodeR _ _ _ _ _) rfl
theorem EncodedOpcode.xor (rd rs1 rs2 : RegNum) :
    EncodedOpcode.Statement (.xor rd rs1 rs2) := ends_in_11 (opcodeOf_encodeR _ _ _ _ _) rfl
theorem EncodedOpcode.srl (rd rs1 rs2 : RegNum) :
    EncodedOpcode.Statement (.srl rd rs1 rs2) := ends_in_11 (opcodeOf_encodeR _ _ _ _ _) rfl
theorem EncodedOpcode.sra (rd rs1 rs2 : RegNum) :
    EncodedOpcode.Statement (.sra rd rs1 rs2) := ends_in_11 (opcodeOf_encodeR _ _ _ _ _) rfl
theorem EncodedOpcode.or (rd rs1 rs2 : RegNum) :
    EncodedOpcode.Statement (.or rd rs1 rs2) := ends_in_11 (opcodeOf_encodeR _ _ _ _ _) rfl
theorem EncodedOpcode.and (rd rs1 rs2 : RegNum) :
    EncodedOpcode.Statement (.and rd rs1 rs2) := ends_in_11 (opcodeOf_encodeR _ _ _ _ _) rfl
theorem EncodedOpcode.addi (rd rs1 : RegNum) (imm : BitVec 12) :
    EncodedOpcode.Statement (.addi rd rs1 imm) := ends_in_11 (opcodeOf_encodeI _ _ _ _ _) rfl
theorem EncodedOpcode.slti (rd rs1 : RegNum) (imm : BitVec 12) :
    EncodedOpcode.Statement (.slti rd rs1 imm) := ends_in_11 (opcodeOf_encodeI _ _ _ _ _) rfl
theorem EncodedOpcode.sltiu (rd rs1 : RegNum) (imm : BitVec 12) :
    EncodedOpcode.Statement (.sltiu rd rs1 imm) := ends_in_11 (opcodeOf_encodeI _ _ _ _ _) rfl
theorem EncodedOpcode.xori (rd rs1 : RegNum) (imm : BitVec 12) :
    EncodedOpcode.Statement (.xori rd rs1 imm) := ends_in_11 (opcodeOf_encodeI _ _ _ _ _) rfl
theorem EncodedOpcode.ori (rd rs1 : RegNum) (imm : BitVec 12) :
    EncodedOpcode.Statement (.ori rd rs1 imm) := ends_in_11 (opcodeOf_encodeI _ _ _ _ _) rfl
theorem EncodedOpcode.andi (rd rs1 : RegNum) (imm : BitVec 12) :
    EncodedOpcode.Statement (.andi rd rs1 imm) := ends_in_11 (opcodeOf_encodeI _ _ _ _ _) rfl
theorem EncodedOpcode.slli (rd rs1 : RegNum) (shamt : BitVec 5) :
    EncodedOpcode.Statement (.slli rd rs1 shamt) := ends_in_11 (opcodeOf_encodeShift _ _ _ _ _) rfl
theorem EncodedOpcode.srli (rd rs1 : RegNum) (shamt : BitVec 5) :
    EncodedOpcode.Statement (.srli rd rs1 shamt) := ends_in_11 (opcodeOf_encodeShift _ _ _ _ _) rfl
theorem EncodedOpcode.srai (rd rs1 : RegNum) (shamt : BitVec 5) :
    EncodedOpcode.Statement (.srai rd rs1 shamt) := ends_in_11 (opcodeOf_encodeShift _ _ _ _ _) rfl
theorem EncodedOpcode.lb (rd rs1 : RegNum) (offset : BitVec 12) :
    EncodedOpcode.Statement (.lb rd rs1 offset) := ends_in_11 (opcodeOf_encodeI _ _ _ _ _) rfl
theorem EncodedOpcode.lh (rd rs1 : RegNum) (offset : BitVec 12) :
    EncodedOpcode.Statement (.lh rd rs1 offset) := ends_in_11 (opcodeOf_encodeI _ _ _ _ _) rfl
theorem EncodedOpcode.lw (rd rs1 : RegNum) (offset : BitVec 12) :
    EncodedOpcode.Statement (.lw rd rs1 offset) := ends_in_11 (opcodeOf_encodeI _ _ _ _ _) rfl
theorem EncodedOpcode.lbu (rd rs1 : RegNum) (offset : BitVec 12) :
    EncodedOpcode.Statement (.lbu rd rs1 offset) := ends_in_11 (opcodeOf_encodeI _ _ _ _ _) rfl
theorem EncodedOpcode.lhu (rd rs1 : RegNum) (offset : BitVec 12) :
    EncodedOpcode.Statement (.lhu rd rs1 offset) := ends_in_11 (opcodeOf_encodeI _ _ _ _ _) rfl
theorem EncodedOpcode.sb (rs1 rs2 : RegNum) (offset : BitVec 12) :
    EncodedOpcode.Statement (.sb rs1 rs2 offset) := ends_in_11 (opcodeOf_encodeS _ _ _ _) rfl
theorem EncodedOpcode.sh (rs1 rs2 : RegNum) (offset : BitVec 12) :
    EncodedOpcode.Statement (.sh rs1 rs2 offset) := ends_in_11 (opcodeOf_encodeS _ _ _ _) rfl
theorem EncodedOpcode.sw (rs1 rs2 : RegNum) (offset : BitVec 12) :
    EncodedOpcode.Statement (.sw rs1 rs2 offset) := ends_in_11 (opcodeOf_encodeS _ _ _ _) rfl
theorem EncodedOpcode.beq (rs1 rs2 : RegNum) (offset : BitVec 13) :
    EncodedOpcode.Statement (.beq rs1 rs2 offset) := ends_in_11 (opcodeOf_encodeB _ _ _ _) rfl
theorem EncodedOpcode.bne (rs1 rs2 : RegNum) (offset : BitVec 13) :
    EncodedOpcode.Statement (.bne rs1 rs2 offset) := ends_in_11 (opcodeOf_encodeB _ _ _ _) rfl
theorem EncodedOpcode.blt (rs1 rs2 : RegNum) (offset : BitVec 13) :
    EncodedOpcode.Statement (.blt rs1 rs2 offset) := ends_in_11 (opcodeOf_encodeB _ _ _ _) rfl
theorem EncodedOpcode.bge (rs1 rs2 : RegNum) (offset : BitVec 13) :
    EncodedOpcode.Statement (.bge rs1 rs2 offset) := ends_in_11 (opcodeOf_encodeB _ _ _ _) rfl
theorem EncodedOpcode.bltu (rs1 rs2 : RegNum) (offset : BitVec 13) :
    EncodedOpcode.Statement (.bltu rs1 rs2 offset) := ends_in_11 (opcodeOf_encodeB _ _ _ _) rfl
theorem EncodedOpcode.bgeu (rs1 rs2 : RegNum) (offset : BitVec 13) :
    EncodedOpcode.Statement (.bgeu rs1 rs2 offset) := ends_in_11 (opcodeOf_encodeB _ _ _ _) rfl
theorem EncodedOpcode.lui (rd : RegNum) (imm20 : BitVec 20) :
    EncodedOpcode.Statement (.lui rd imm20) := ends_in_11 (opcodeOf_encodeU _ _ _) rfl
theorem EncodedOpcode.auipc (rd : RegNum) (imm20 : BitVec 20) :
    EncodedOpcode.Statement (.auipc rd imm20) := ends_in_11 (opcodeOf_encodeU _ _ _) rfl
theorem EncodedOpcode.jal (rd : RegNum) (offset : BitVec 21) :
    EncodedOpcode.Statement (.jal rd offset) := ends_in_11 (opcodeOf_encodeJ _ _) rfl
theorem EncodedOpcode.jalr (rd rs1 : RegNum) (offset : BitVec 12) :
    EncodedOpcode.Statement (.jalr rd rs1 offset) := ends_in_11 (opcodeOf_encodeI _ _ _ _ _) rfl
theorem EncodedOpcode.fence (pred succ : BitVec 4) :
    EncodedOpcode.Statement (.fence pred succ) := ends_in_11 (opcodeOf_encodeI _ _ _ _ _) rfl
theorem EncodedOpcode.fencei : EncodedOpcode.Statement .fencei := by rfl
theorem EncodedOpcode.ecall : EncodedOpcode.Statement .ecall := by rfl
theorem EncodedOpcode.ebreak : EncodedOpcode.Statement .ebreak := by rfl
theorem EncodedOpcode.csrrw (rd : RegNum) (csr : CsrNum) (rs1 : RegNum) :
    EncodedOpcode.Statement (.csrrw rd csr rs1) := ends_in_11 (opcodeOf_encodeI _ _ _ _ _) rfl
theorem EncodedOpcode.csrrs (rd : RegNum) (csr : CsrNum) (rs1 : RegNum) :
    EncodedOpcode.Statement (.csrrs rd csr rs1) := ends_in_11 (opcodeOf_encodeI _ _ _ _ _) rfl
theorem EncodedOpcode.csrrc (rd : RegNum) (csr : CsrNum) (rs1 : RegNum) :
    EncodedOpcode.Statement (.csrrc rd csr rs1) := ends_in_11 (opcodeOf_encodeI _ _ _ _ _) rfl
theorem EncodedOpcode.csrrwi (rd : RegNum) (csr : CsrNum) (uimm : BitVec 5) :
    EncodedOpcode.Statement (.csrrwi rd csr uimm) := ends_in_11 (opcodeOf_encodeI _ _ _ _ _) rfl
theorem EncodedOpcode.csrrsi (rd : RegNum) (csr : CsrNum) (uimm : BitVec 5) :
    EncodedOpcode.Statement (.csrrsi rd csr uimm) := ends_in_11 (opcodeOf_encodeI _ _ _ _ _) rfl
theorem EncodedOpcode.csrrci (rd : RegNum) (csr : CsrNum) (uimm : BitVec 5) :
    EncodedOpcode.Statement (.csrrci rd csr uimm) := ends_in_11 (opcodeOf_encodeI _ _ _ _ _) rfl

end Sys2Proof.Laws
end

