-- ==== Sys2Proof/Laws/Step.lean ====
section
/-! SUPPORT. All that one step can do. -/

namespace Sys2Proof.Machine

/-- The state a fetch leaves: itself, unless the word was a free value. -/
theorem fetch_ok {s s' : State} {w : Word} (h : fetch s = .ok (w, s')) :
    s' = s ∨ s' = { s with draws := s.draws + 1 } := by
  unfold fetch at h
  split at h
  · cases h
  · split at h
    · cases h
    · split at h <;> (cases h; simp)

/-- A fetch whose address is aligned, responds and is not stale returns the bytes in memory. -/
theorem fetch_fresh {s : State} (ha : aligned s.pc 4 = true)
    (hr : responds s .fetch s.pc.toNat 4 = true) (hs : staleAt s s.pc = false) :
    fetch s = .ok (ofBytes (Memory.readBytes s.mem s.pc.toNat 4), s) := by
  simp [fetch, ha, hr, hs]

theorem fetch_misaligned {s : State} (ha : aligned s.pc 4 = false) :
    fetch s = .error .instructionAddressMisaligned := by simp [fetch, ha]

theorem fetch_fault {s : State} (ha : aligned s.pc 4 = true)
    (hr : responds s .fetch s.pc.toNat 4 = false) : fetch s = .error .instructionAccessFault := by
  simp [fetch, ha, hr]

/-- All that a step can do when it answers a next state: a trap of the fetch or of an illegal word, or
an instruction, from `s` or from `s` with one more free value met. -/
theorem step_cases {s t : State} (h : step s = .next t) :
    notDescribed s = none ∧
    ((∃ e, fetch s = .error e ∧ delegated e s = false ∧ t = trapEntry e s.pc s) ∨
     (∃ w s', fetch s = .ok (w, s') ∧
       ((∃ r, decode w = .error r ∧ delegated .illegalInstruction s' = false ∧
          t = trapEntry .illegalInstruction w s') ∨
        (∃ i, decode w = .ok i ∧ exec i s' = .next t)))) := by
  unfold step at h
  split at h
  · cases h
  · refine ⟨‹_›, ?_⟩
    split at h
    · exact .inl ⟨_, ‹_›, raise_next.mp h⟩
    · refine .inr ⟨_, _, ‹_›, ?_⟩
      split at h
      · exact .inl ⟨_, ‹_›, raise_next.mp h⟩
      · exact .inr ⟨_, ‹_›, h⟩

/-- A property that every operation a step is made of keeps is kept by the step. `P` may name the state
the step starts from, so a relation between the two states is proved the same way. -/
theorem step_keeps (P : State → Prop) {s t : State}
    (draw : ∀ u, P u → P { u with draws := u.draws + 1 })
    (trap : ∀ u e info, P u → P (trapEntry e info u))
    (reg : ∀ u rd v target, P u → P ((u.setX rd v).retire target))
    (put : ∀ u a n v, (n = 1 ∨ n = 2 ∨ n = 4) → aligned a n = true → P u →
      P ((u.storeBytes a n v).retire (u.pc + 4)))
    (flush : ∀ u : State, P u → P (({ u with stale := [] } : State).retire (u.pc + 4)))
    (csr : ∀ u a rd w f c, csrCheck a w u = some c → P u → P (csrAfter c rd w f u))
    (hs : P s) (h : step s = .next t) : P t := by
  obtain ⟨_, ⟨e, _, _, rfl⟩ | ⟨w, s', hf, hx⟩⟩ := step_cases h
  · exact trap _ _ _ hs
  · have hs' : P s' := by
      rcases fetch_ok hf with rfl | rfl
      · exact hs
      · exact draw _ hs
    rcases hx with ⟨_, _, _, rfl⟩ | ⟨i, _, hi⟩
    · exact trap _ _ _ hs'
    · rcases exec_cases hi with ⟨e, info, _, rfl⟩ | ⟨rd, v, target, rfl⟩ | ⟨a, n, v, hn, ha, rfl⟩ |
        ⟨_, rfl⟩ | ⟨a, rd, w, f, c, hc, rfl⟩
      · exact trap _ _ _ hs'
      · exact reg _ _ _ _ hs'
      · exact put _ _ _ _ hn ha hs'
      · exact flush _ hs'
      · exact csr _ _ _ _ _ _ hc hs'

end Sys2Proof.Machine
end

