-- ==== Sys2Proof/Tests/Slice0.lean ====
section
/-! SUPPORT. The model's own tests: what WellFormed refuses, words written out bit by bit from the spec's
encodings, one step of every instruction on the vectors of 95_test_vectors.md, and for every obligation
that has hypotheses a state and operands that meet them. -/

namespace Sys2Proof.Tests

open Sys2Proof Sys2Proof.Machine

/-! ### Well-formedness (R122, R124: bit 0 of a displacement is 0) -/

theorem test_wf_refuses_odd_beq : (Instr.beq 1 2 3).wellFormed = false := by decide
theorem test_wf_refuses_odd_bne : (Instr.bne 1 2 (-1)).wellFormed = false := by decide
theorem test_wf_refuses_odd_blt : (Instr.blt 1 2 4095).wellFormed = false := by decide
theorem test_wf_refuses_odd_bge : (Instr.bge 1 2 1).wellFormed = false := by decide
theorem test_wf_refuses_odd_bltu : (Instr.bltu 1 2 5).wellFormed = false := by decide
theorem test_wf_refuses_odd_bgeu : (Instr.bgeu 1 2 (-4095)).wellFormed = false := by decide
theorem test_wf_refuses_odd_jal : (Instr.jal 1 0xFFFFF).wellFormed = false := by decide

/-! ### Decoding: fields from the left, as the formats draw them -/

/-- R-type (R111), funct3 and funct7 of R131 and R132. -/
theorem test_decode_register_arithmetic :
    decode 0b0000000_01010_10001_000_00011_0110011 = .ok (.add 3 17 10) ∧
    decode 0b0100000_01010_10001_000_00011_0110011 = .ok (.sub 3 17 10) ∧
    decode 0b0000000_01010_10001_010_00011_0110011 = .ok (.slt 3 17 10) ∧
    decode 0b0000000_01010_10001_011_00011_0110011 = .ok (.sltu 3 17 10) := by decide

/-- R-type (R111), funct3 and funct7 of R131 and R132. -/
theorem test_decode_register_logic_and_shift :
    decode 0b0000000_10000_00001_100_11111_0110011 = .ok (.xor 31 1 16) ∧
    decode 0b0000000_10000_00001_110_11111_0110011 = .ok (.or 31 1 16) ∧
    decode 0b0000000_10000_00001_111_11111_0110011 = .ok (.and 31 1 16) ∧
    decode 0b0000000_10000_00001_001_11111_0110011 = .ok (.sll 31 1 16) ∧
    decode 0b0000000_10000_00001_101_11111_0110011 = .ok (.srl 31 1 16) ∧
    decode 0b0100000_10000_00001_101_11111_0110011 = .ok (.sra 31 1 16) := by decide

/-- I-type (R112, R120). -/
theorem test_decode_immediate_arithmetic :
    decode 0b100000000000_00110_000_00101_0010011 = .ok (.addi 5 6 (-2048)) ∧
    decode 0b011111111111_00110_010_00101_0010011 = .ok (.slti 5 6 2047) ∧
    decode 0b111111111111_00110_011_00101_0010011 = .ok (.sltiu 5 6 (-1)) ∧
    decode 0b000000000001_00110_100_00101_0010011 = .ok (.xori 5 6 1) ∧
    decode 0b111111111110_00110_110_00101_0010011 = .ok (.ori 5 6 (-2)) ∧
    decode 0b010000000000_00110_111_00101_0010011 = .ok (.andi 5 6 1024) := by decide

/-- the amount in inst[24:20], the function field above it (R125, R132). -/
theorem test_decode_immediate_shifts :
    decode 0b0000000_11111_00110_001_00101_0010011 = .ok (.slli 5 6 31) ∧
    decode 0b0000000_00001_00110_101_00101_0010011 = .ok (.srli 5 6 1) ∧
    decode 0b0100000_10000_00110_101_00101_0010011 = .ok (.srai 5 6 16) := by decide

/-- I-type (R112), opcode 0x03. -/
theorem test_decode_loads :
    decode 0b111111111100_00110_000_00101_0000011 = .ok (.lb 5 6 (-4)) ∧
    decode 0b000000000010_00110_001_00101_0000011 = .ok (.lh 5 6 2) ∧
    decode 0b011111111100_00110_010_00101_0000011 = .ok (.lw 5 6 2044) ∧
    decode 0b111111111111_00110_100_00101_0000011 = .ok (.lbu 5 6 (-1)) ∧
    decode 0b100000000000_00110_101_00101_0000011 = .ok (.lhu 5 6 (-2048)) := by decide

/-- S-type (R113, R121), the immediate in two pieces. -/
theorem test_decode_stores :
    decode 0b1111111_00111_00110_000_11111_0100011 = .ok (.sb 6 7 (-1)) ∧
    decode 0b0000000_00111_00110_001_11110_0100011 = .ok (.sh 6 7 30) ∧
    decode 0b0111111_00111_00110_010_00000_0100011 = .ok (.sw 6 7 2016) := by decide

/-- B-type (R114, R122), the displacement in four pieces. -/
theorem test_decode_branches :
    decode 0b1_000000_00010_00001_000_0000_0_1100011 = .ok (.beq 1 2 (-4096)) ∧
    decode 0b0_000000_00010_00001_001_0000_1_1100011 = .ok (.bne 1 2 2048) ∧
    decode 0b0_111111_00010_00001_100_1111_1_1100011 = .ok (.blt 1 2 4094) ∧
    decode 0b0_000000_00010_00001_101_1111_0_1100011 = .ok (.bge 1 2 30) ∧
    decode 0b0_111111_00010_00001_110_0000_0_1100011 = .ok (.bltu 1 2 2016) ∧
    decode 0b1_111111_00010_00001_111_1111_1_1100011 = .ok (.bgeu 1 2 (-2)) := by decide

/-- U-type (R115, R123). -/
theorem test_decode_upper_immediates :
    decode 0b00010010001101000101_00101_0110111 = .ok (.lui 5 0x12345) ∧
    decode 0b10000000000000000001_11111_0010111 = .ok (.auipc 31 0x80001) := by decide

/-- J-type (R116, R124), the displacement in four pieces; JALR is I-type. -/
theorem test_decode_jumps :
    decode 0b1_0000000000_0_00000000_00001_1101111 = .ok (.jal 1 (-0x100000)) ∧
    decode 0b0_0000000000_1_00000000_00000_1101111 = .ok (.jal 0 0x800) ∧
    decode 0b0_0000000000_0_11111111_00010_1101111 = .ok (.jal 2 0xFF000) ∧
    decode 0b0_1111111111_0_00000000_00011_1101111 = .ok (.jal 3 0x7FE) ∧
    decode 0b111111111110_00101_000_00001_1100111 = .ok (.jalr 1 5 (-2)) := by decide

/-- pred and succ of R127; the other bits are ignored (R240). -/
theorem test_decode_fences :
    decode 0b000010100101_00000_000_00000_0001111 = .ok (.fence 0xA 0x5) ∧
    decode 0b100011111111_00110_000_00101_0001111 = .ok (.fence 0xF 0xF) ∧
    decode 0b000000000000_00000_001_00000_0001111 = .ok .fencei ∧
    decode 0b111111111111_11111_001_11111_0001111 = .ok .fencei := by decide

/-- the two whole words of R133. -/
theorem test_decode_calls :
    decode 0b000000000000_00000_000_00000_1110011 = .ok .ecall ∧
    decode 0b000000000001_00000_000_00000_1110011 = .ok .ebreak := by decide

/-- the CSR address in inst[31:20], the operand in inst[19:15] (R126). -/
theorem test_decode_csr :
    decode 0b001101000000_00110_001_00101_1110011 = .ok (.csrrw 5 0x340 6) ∧
    decode 0b110010000010_00000_010_00101_1110011 = .ok (.csrrs 5 0xC82 0) ∧
    decode 0b001100000000_11111_011_00101_1110011 = .ok (.csrrc 5 0x300 31) ∧
    decode 0b001100000101_11111_101_00101_1110011 = .ok (.csrrwi 5 0x305 31) ∧
    decode 0b000110000000_00001_110_00101_1110011 = .ok (.csrrsi 5 0x180 1) ∧
    decode 0b001110110011_01000_111_00101_1110011 = .ok (.csrrci 5 0x3B3 8) := by decide

/-- Words of no row, each refused by its name (R131 to R133, R135). -/
theorem test_decode_refuses :
    decode 0 = .error .unassignedOpcode ∧ decode 0xFFFFFFFF = .error .unassignedOpcode ∧
    decode 0x0020A463 = .error .unassignedFunct3 ∧ decode 0x00033283 = .error .unassignedFunct3 ∧
    decode 0x00733023 = .error .unassignedFunct3 ∧ decode 0x0000200F = .error .unassignedFunct3 ∧
    decode 0x340042F3 = .error .unassignedFunct3 ∧ decode 0x00009067 = .error .unassignedFunct3 ∧
    decode 0x022081B3 = .error .unassignedFunct7 ∧ decode 0x402091B3 = .error .unassignedFunct7 ∧
    decode 0x40131293 = .error .unassignedFunct7 ∧ decode 0x02135293 = .error .unassignedFunct7 ∧
    decode 0x30200073 = .error .unassignedSystemWord ∧ decode 0x000000F3 = .error .unassignedSystemWord ∧
    decodeBytes [0x13, 0, 0] = .error .truncated := by decide

/-- The bytes of a word lie least significant first (R85). -/
theorem test_decode_bytes :
    decodeBytes [0xB3, 0x81, 0x20, 0x00, 0xFF] = .ok (.add 3 1 2, [0xFF]) ∧
    bytesOf 4 0x002081B3 = [0xB3, 0x81, 0x20, 0x00] := by decide

/-! ### One step: the vectors of 95_test_vectors.md -/

/-- Where the vectors start. -/
def start : State := { State.reset with pc := 0x1000 }

/-- The start with one register set. -/
def with1 (r : RegNum) (v : Word) : State := start.setX r v

/-- The start with two registers set. -/
def with2 (r : RegNum) (v : Word) (q : RegNum) (w : Word) : State := (start.setX r v).setX q w

/-- The start with the vectors' data bytes at 0x2000 and two registers set. -/
def withData (r : RegNum) (v : Word) (q : RegNum) (w : Word) : State :=
  { with2 r v q w with mem := [(0x2000, 0x78), (0x2001, 0x56), (0x2002, 0x34), (0x2003, 0x92)] }

/-- The state after one step on a word, if there is one. -/
def after (s : State) (w : Nat) : Option State :=
  match step (s.withFetchWord 32 w) with
  | .next t => some t
  | .fault _ => none
  | .refused _ => none

/-- A register and the `pc` after one step on a word. -/
def got (s : State) (w : Nat) (r : RegNum) : Option (Word × Word) :=
  (after s w).map fun t => (t.getX r, t.pc)

/-- The bytes at 0x2000 after one step on a word. -/
def gotData (s : State) (w : Nat) : Option (List Byte) :=
  (after s w).map fun t => Memory.readBytes t.mem 0x2000 4

/-- What trap entry left, and the instruction counter: `mepc`, `mcause`, `mtval`, `mstatus`, `pc`. -/
def gotTrap (s : State) (w : Nat) : Option (List Word × BitVec 64) :=
  (after s w).map fun t => ([t.csr.mepc, t.csr.mcause, t.csr.mtval, t.csr.mstatus, t.pc], t.instret)

/-- A state with the handler at 0x100. -/
def handled (s : State) : State := { s with csr := { s.csr with mtvec := 0x100 } }

theorem test_add :
    got (with2 1 0x7FFFFFFF 2 1) 0x002081B3 3 = some (0x80000000, 0x1004) ∧
    got (with2 1 5 2 6) 0x00208033 0 = some (0, 0x1004) := by decide
theorem test_sub :
    got (with2 1 0 2 1) 0x402081B3 3 = some (0xFFFFFFFF, 0x1004) := by decide
theorem test_addi :
    got (with1 6 0x800) 0x80030293 5 = some (0, 0x1004) := by decide
theorem test_slt :
    got (with2 1 0x7FFFFFFF 2 0x80000000) 0x0020A1B3 3 = some (0, 0x1004) ∧
    got (with2 1 0xFFFFFFFF 2 1) 0x0020A1B3 3 = some (1, 0x1004) := by decide
theorem test_sltu :
    got (with2 1 0xFFFFFFFF 2 1) 0x0020B1B3 3 = some (0, 0x1004) ∧
    got (with2 1 0 2 5) 0x002031B3 3 = some (1, 0x1004) := by decide
theorem test_slti :
    got (with1 6 0x80000000) 0xFFF32293 5 = some (1, 0x1004) := by decide
theorem test_sltiu :
    got (with1 6 0xFFFFFFFE) 0xFFF33293 5 = some (1, 0x1004) := by decide
theorem test_lui :
    got (with1 1 0) 0x123452B7 5 = some (0x12345000, 0x1004) := by decide
theorem test_auipc :
    got (with1 1 0) 0x00001297 5 = some (0x2000, 0x1004) := by decide
theorem test_xor :
    got (with2 1 0xFF00FF00 2 0x0FF00FF0) 0x0020C1B3 3 = some (0xF0F0F0F0, 0x1004) := by decide
theorem test_or :
    got (with2 1 0xFF00FF00 2 0x0FF00FF0) 0x0020E1B3 3 = some (0xFFF0FFF0, 0x1004) := by decide
theorem test_and :
    got (with2 1 0xFF00FF00 2 0x0FF00FF0) 0x0020F1B3 3 = some (0x0F000F00, 0x1004) := by decide
theorem test_xori :
    got (with1 6 0x12345678) 0xFFF34293 5 = some (0xEDCBA987, 0x1004) := by decide
theorem test_ori :
    got (with1 6 1) 0x80036293 5 = some (0xFFFFF801, 0x1004) := by decide
theorem test_andi :
    got (with1 6 0x12345678) 0xFF037293 5 = some (0x12345670, 0x1004) := by decide
theorem test_sll :
    got (with2 1 1 2 0x3F) 0x002091B3 3 = some (0x80000000, 0x1004) := by decide
theorem test_srl :
    got (with2 1 0x80000000 2 0x24) 0x0020D1B3 3 = some (0x08000000, 0x1004) := by decide
theorem test_sra :
    got (with2 1 0x80000000 2 0x24) 0x4020D1B3 3 = some (0xF8000000, 0x1004) := by decide
theorem test_slli :
    got (with1 6 3) 0x01F31293 5 = some (0x80000000, 0x1004) := by decide
theorem test_srli :
    got (with1 6 0x80000010) 0x00435293 5 = some (0x08000001, 0x1004) := by decide
theorem test_srai :
    got (with1 6 0x80000010) 0x40435293 5 = some (0xF8000001, 0x1004) := by decide
theorem test_beq :
    got (with2 1 5 2 5) 0x00208463 1 = some (5, 0x1008) ∧
    got (with2 1 5 2 6) 0x00208463 1 = some (5, 0x1004) := by decide
theorem test_bne :
    got (with2 1 5 2 6) 0xFE209EE3 1 = some (5, 0xFFC) ∧
    got (with2 1 5 2 5) 0xFE209EE3 1 = some (5, 0x1004) := by decide
theorem test_blt :
    got (with2 1 0xFFFFFFFF 2 0) 0x7E20CFE3 2 = some (0, 0x1FFE) ∧
    got (with2 1 0 2 0xFFFFFFFF) 0x0020C863 1 = some (0, 0x1004) := by decide
theorem test_bge :
    got (with2 1 0 2 0) 0x8020D063 1 = some (0, 0) ∧
    got (with2 1 0x80000000 2 0x7FFFFFFF) 0x8020D063 2 = some (0x7FFFFFFF, 0x1004) := by decide
theorem test_bltu :
    got (with2 1 0 2 0xFFFFFFFF) 0x0020E0E3 1 = some (0, 0x1800) ∧
    got (with2 1 0xFFFFFFFF 2 0) 0x0020E0E3 2 = some (0, 0x1004) := by decide
theorem test_bgeu :
    got (with2 1 0xFFFFFFFF 2 0) 0x0020F863 2 = some (0, 0x1010) ∧
    got (with2 1 0 2 1) 0x0020F863 1 = some (0, 0x1004) := by decide
theorem test_jal :
    got (with1 5 0) 0x7FFFF0EF 1 = some (0x1004, 0x100FFE) ∧
    got (with1 5 0) 0xFF9FF06F 0 = some (0, 0xFF8) := by decide
theorem test_jalr :
    got (with1 5 0x2007) 0xFFE280E7 1 = some (0x1004, 0x2004) ∧
    got (with1 1 0x3000) 0x004080E7 1 = some (0x1004, 0x3004) := by decide
theorem test_lw :
    got (withData 6 0x2004 7 0) 0xFFC32283 5 = some (0x92345678, 0x1004) := by decide
theorem test_lh :
    got (withData 6 0x2000 7 0) 0x00231283 5 = some (0xFFFF9234, 0x1004) ∧
    got (withData 6 0x2000 7 0) 0x00031283 5 = some (0x5678, 0x1004) := by decide
theorem test_lhu :
    got (withData 6 0x2000 7 0) 0x00235283 5 = some (0x9234, 0x1004) := by decide
theorem test_lb :
    got (withData 6 0x2000 7 0) 0x00330283 5 = some (0xFFFFFF92, 0x1004) ∧
    got (withData 6 0x2000 7 0) 0x00130283 5 = some (0x56, 0x1004) := by decide
theorem test_lbu :
    got (withData 6 0x2000 7 0) 0x00334283 5 = some (0x92, 0x1004) := by decide
theorem test_lw_misaligned :
    gotTrap (handled (withData 6 0x2000 7 0))
      0x00232283 = some ([0x1000, 4, 0x2002, 0x1800, 0x100], 0) := by decide
theorem test_sw :
    gotData (withData 6 0x2000 7 0x11223344) 0x00732023 = some [0x44, 0x33, 0x22, 0x11] := by decide
theorem test_sh :
    gotData (withData 6 0x2000 7 0xABCDEF12) 0x00731123 = some [0x78, 0x56, 0x12, 0xEF] := by decide
theorem test_sb :
    gotData (withData 6 0x2004 7 0xABCDEF12) 0xFE730FA3 = some [0x78, 0x56, 0x34, 0x12] := by decide
theorem test_sh_misaligned :
    gotTrap (handled (withData 6 0x2000 7 0x11223344))
      0x007311A3 = some ([0x1000, 6, 0x2003, 0x1800, 0x100], 0) := by decide
theorem test_fence :
    got (with1 5 1) 0x8FF3028F 5 = some (1, 0x1004) := by decide
theorem test_fencei :
    (after { start with stale := [0x2000] } 0x0000100F).map
      (fun t => (t.stale, t.pc)) = some ([], 0x1004) := by decide
theorem test_csrrw :
    (after { with1 5 0x11111111 with csr := { Csrs.reset with mscratch := 0x22222222 } } 0x340292F3).map
      (fun t => (t.getX 5, t.csr.mscratch)) = some (0x22222222, 0x11111111) ∧
    (after { with1 6 0x3E8 with instret := 0x29 } 0xB02312F3).map (fun t => (t.getX 5, t.instret)) =
      some (0x29, 0x3E8) := by decide
theorem test_csrrs :
    (after { with1 6 8 with csr := { Csrs.reset with mstatus := 0x1880 } } 0x300322F3).map
      (fun t => (t.getX 5, t.csr.mstatus)) = some (0x1880, 0x1888) ∧
    (after { start with instret := 0x100000007 } 0xC82022F3).map (fun t => (t.getX 5, t.instret)) =
      some (1, 0x100000008) := by decide
theorem test_csrrc :
    (after { with1 6 0x88 with csr := { Csrs.reset with mstatus := 0x1888 } } 0x30033073).map
      (fun t => (t.getX 0, t.csr.mstatus)) = some (0, 0x1800) := by decide
theorem test_csrrwi :
    (after { start with csr := { Csrs.reset with mtvec := 0xFFFFFFFF } } 0x305FD073).map
      (fun t => t.csr.mtvec) = some 0x1F := by decide
theorem test_csrrsi :
    (after { start with csr := { Csrs.reset with mstatus := 0x1800 } } 0x30046073).map
      (fun t => t.csr.mstatus) = some 0x1808 := by decide
theorem test_csrrci :
    (after { start with csr := { Csrs.reset with mstatus := 0x1888 } } 0x300472F3).map
      (fun t => (t.getX 5, t.csr.mstatus)) = some (0x1888, 0x1880) := by decide
theorem test_csr_refused_in_supervisor :
    gotTrap (handled { start with priv := .supervisor })
      0x300022F3 = some ([0x1000, 2, 0x300022F3, 0x800, 0x100], 0) := by decide
theorem test_ecall :
    gotTrap { start with csr := { Csrs.reset with mtvec := 0x100, mstatus := 8 } }
      0x00000073 = some ([0x1004, 11, 0, 0x1880, 0x100], 0) ∧
    gotTrap { start with priv := .user, csr := { Csrs.reset with mtvec := 0x100, mstatus := 0x1808 } }
      0x00000073 = some ([0x1004, 8, 0, 0x80, 0x100], 0) := by decide
theorem test_ebreak :
    gotTrap { start with csr := { Csrs.reset with mtvec := 0x100, mstatus := 8 } }
      0x00100073 = some ([0x1004, 3, 0, 0x1880, 0x100], 0) := by decide
theorem test_illegal_word :
    gotTrap (handled start)
      0x402091B3 = some ([0x1000, 2, 0x402091B3, 0x1800, 0x100], 0) := by decide
/-- The access-fault codes of R280: 1 of a fetch, 5 of a load, 7 of a store. -/
theorem test_fetch_access_fault :
    (match step { handled start with denied := [⟨.fetch, 0x1003, 1⟩] } with
      | .next t => some (t.csr.mcause, t.csr.mepc, t.csr.mtval, t.pc)
      | .fault _ => none
      | .refused _ => none) = some (1, 0x1000, 0x1000, 0x100) := by decide
theorem test_load_access_fault :
    gotTrap { handled (withData 6 0x2000 7 0) with denied := [⟨.load, 0x2003, 1⟩] }
      0x00032283 = some ([0x1000, 5, 0x2000, 0x1800, 0x100], 0) ∧
    gotTrap { handled (withData 6 0x2000 7 0) with denied := [⟨.load, 0x2003, 1⟩] }
      0x00334283 = some ([0x1000, 5, 0x2003, 0x1800, 0x100], 0) := by decide
theorem test_store_access_fault :
    gotTrap { handled (withData 6 0x2000 7 0) with denied := [⟨.store, 0x2003, 1⟩] }
      0x00732023 = some ([0x1000, 7, 0x2000, 0x1800, 0x100], 0) ∧
    gotTrap { handled (withData 6 0x2004 7 0) with denied := [⟨.store, 0x2003, 1⟩] }
      0xFE730FA3 = some ([0x1000, 7, 0x2003, 0x1800, 0x100], 0) := by decide
/-- A read of the cycle counter advances it by a free amount. -/
theorem test_cycle_read_is_free :
    (after start 0xB00022F3).map (fun t => (t.cycle, t.draws)) =
      some (0 + Config.cycleAdvance 0, 1) := rfl
/-- Placing a word aligns `pc` and frees its four bytes, and no others, for the fetch (log 19). -/
theorem test_withFetchWord_clears :
    (after { start with pc := 0x1002, stale := [0xFFF, 0x1003, 0x1004]
                        denied := [⟨.fetch, 0x1003, 1⟩, ⟨.load, 0, 4⟩] } 0x00000013).map
      (fun t => (t.pc, t.stale, t.denied)) = some (0x1004, [0xFFF, 0x1004], [⟨.load, 0, 4⟩]) := by decide
/-- The operand lines of the assembler (R140). -/
theorem test_operands :
    (Instr.lw 5 6 (-4)).operands = ["x5", "-4(x6)"] ∧ (Instr.sw 6 7 1).operands = ["x7", "1(x6)"] ∧
    (Instr.fence 0xF 0x3).operands = ["iorw", "rw"] := by decide

/-! ### Witnesses: for each obligation with hypotheses, what meets them -/

/-- The start in a mode. -/
def inMode (m : Mode) : State := { start with priv := m }

/-- The start in a mode, with `medeleg` set. -/
def delegating (m : Mode) (v : Word) : State :=
  { inMode m with csr := { Csrs.reset with medeleg := v } }

/-- x1 at the last word of the address space, and `n` bytes from `a` that do not respond. -/
def refusing (k : Access) (a n : Nat) : State := { with1 1 0xFFFFFFFC with denied := [⟨k, a, n⟩] }

theorem witness_DecodeInvertsEncode :
    (Instr.beq 31 1 (-4096)).wellFormed = true ∧ (Instr.jal 31 0xFFFFE).wellFormed = true ∧
    (Instr.sw 1 2 (-2048)).wellFormed = true := by decide

theorem witness_EncodeInvertsDecode :
    decode 0xFE209EE3 = .ok (.bne 1 2 (-4)) ∧ decode 0x8FF3028F = .ok (.fence 15 15) ∧
    decode 0xFFFF9F8F = .ok .fencei := by decide

theorem witness_DecodeMatchesOpcodeTable :
    ⟨"SRAI", 0x40005013, 0xFE00707F⟩ ∈ opcodeTable ∧
    (0x41F35293 : Word) &&& 0xFE00707F = 0x40005013 := by decide

/-- A word of each kind of row: R-type, I-type, U-type, and a fence with ignored bits. -/
theorem witness_ReadsAs :
    (0xFFFF8FB3 : Word) &&& 0xFE00707F ≠ 0x00000033 ∧ (0x01FF8FB3 : Word) &&& 0xFE00707F = 0x00000033 ∧
    (0xFFFF8F93 : Word) &&& 0x0000707F = 0x00000013 ∧ (0xFFFFFFB7 : Word) &&& 0x0000007F = 0x00000037 ∧
    (0xFFFF9F8F : Word) &&& 0x0000707F = 0x0000100F := by decide

theorem witness_ByteLoadsExtendTheByte :
    responds (with1 1 0xFFFFFFFC) .load (effectiveAddress (with1 1 0xFFFFFFFC) 1 3).toNat 1 = true ∧
    responds (refusing .load 0xFFFFFFFF 1) .load
      (effectiveAddress (refusing .load 0xFFFFFFFF 1) 1 3).toNat 1 = false := by decide

theorem witness_HalfwordLoadsExtendTheHalfword :
    (effectiveAddress (with1 1 0xFFFFFFFC) 1 2).toNat % 2 = 0 ∧
    responds (with1 1 0xFFFFFFFC) .load (effectiveAddress (with1 1 0xFFFFFFFC) 1 2).toNat 2 = true ∧
    (effectiveAddress (with1 1 0xFFFFFFFC) 1 3).toNat % 2 ≠ 0 ∧
    (effectiveAddress (refusing .load 0xFFFFFFFF 1) 1 2).toNat % 2 = 0 ∧
    responds (refusing .load 0xFFFFFFFF 1) .load
      (effectiveAddress (refusing .load 0xFFFFFFFF 1) 1 2).toNat 2 = false := by decide

theorem witness_WordLoadsReadFourBytes :
    (effectiveAddress (with1 1 0xFFFFFFFC) 1 0).toNat % 4 = 0 ∧
    responds (with1 1 0xFFFFFFFC) .load (effectiveAddress (with1 1 0xFFFFFFFC) 1 0).toNat 4 = true ∧
    (effectiveAddress (with1 1 0xFFFFFFFC) 1 (-2)).toNat % 4 ≠ 0 ∧
    (effectiveAddress (refusing .load 0xFFFFFFFF 1) 1 0).toNat % 4 = 0 ∧
    responds (refusing .load 0xFFFFFFFF 1) .load
      (effectiveAddress (refusing .load 0xFFFFFFFF 1) 1 0).toNat 4 = false := by decide

theorem witness_SbStoresOneByte :
    responds (with1 1 0xFFFFFFFC) .store (effectiveAddress (with1 1 0xFFFFFFFC) 1 3).toNat 1 = true ∧
    responds (refusing .store 0xFFFFFFFF 1) .store
      (effectiveAddress (refusing .store 0xFFFFFFFF 1) 1 3).toNat 1 = false := by decide

theorem witness_ShStoresTwoBytes :
    (effectiveAddress (with1 1 0xFFFFFFFC) 1 2).toNat % 2 = 0 ∧
    responds (with1 1 0xFFFFFFFC) .store (effectiveAddress (with1 1 0xFFFFFFFC) 1 2).toNat 2 = true ∧
    (effectiveAddress (with1 1 0xFFFFFFFC) 1 3).toNat % 2 ≠ 0 ∧
    (effectiveAddress (refusing .store 0xFFFFFFFF 1) 1 2).toNat % 2 = 0 ∧
    responds (refusing .store 0xFFFFFFFF 1) .store
      (effectiveAddress (refusing .store 0xFFFFFFFF 1) 1 2).toNat 2 = false := by decide

theorem witness_SwStoresFourBytes :
    (effectiveAddress (with1 1 0xFFFFFFFC) 1 0).toNat % 4 = 0 ∧
    responds (with1 1 0xFFFFFFFC) .store (effectiveAddress (with1 1 0xFFFFFFFC) 1 0).toNat 4 = true ∧
    (effectiveAddress (with1 1 0xFFFFFFFC) 1 (-2)).toNat % 4 ≠ 0 ∧
    (effectiveAddress (refusing .store 0xFFFFFFFF 1) 1 0).toNat % 4 = 0 ∧
    responds (refusing .store 0xFFFFFFFF 1) .store
      (effectiveAddress (refusing .store 0xFFFFFFFF 1) 1 0).toNat 4 = false := by decide

theorem witness_LoadsOfEveryWidthSeeTheStoredWord :
    (0xFFFFFFFC : Word).toNat % 4 = 0 ∧ responds start .load (0xFFFFFFFC : Word).toNat 4 = true := by decide

theorem witness_FenceiMakesStoredWordFetchable :
    ((with1 1 0xFFFFFFFC).getX 1).toNat % 4 = 0 ∧
    responds (with1 1 0xFFFFFFFC) .store ((with1 1 0xFFFFFFFC).getX 1).toNat 4 = true ∧
    responds (with1 1 0xFFFFFFFC) .fetch ((with1 1 0xFFFFFFFC).getX 1).toNat 4 = true := by decide

/-- Which of the two inner cases holds is free: one of them does. -/
theorem witness_StaleFetchRunsFreeWord :
    (Described { start with stale := [0x1003] } ∧
      ({ start with stale := [0x1003] } : State).pc.toNat % 4 = 0 ∧
      responds { start with stale := [0x1003] } .fetch 0x1000 4 = true ∧
      ∃ k < 4, ({ start with stale := [0x1003] } : State).pc.toNat + k ∈ [0x1003]) ∧
    ((∃ i, decode (Config.staleWord 0) = .ok i) ∨ ∃ r, decode (Config.staleWord 0) = .error r) := by
  refine ⟨⟨rfl, rfl, rfl, 3, by decide, by decide⟩, ?_⟩
  cases h : decode (Config.staleWord 0) with
  | ok i => exact .inl ⟨i, rfl⟩
  | error r => exact .inr ⟨r, rfl⟩

theorem witness_CsrrwAndCsrrwiReadThenWrite :
    csrCheck 0xB05 true start = some .mhpmcounter5 ∧
    csrCheck 0x180 true (inMode .supervisor) = some .satp ∧
    csrCheck 0xC82 true start = none := by decide

theorem witness_CsrrsAndCsrrsiReadThenSet :
    csrCheck 0xC82 ((0 : RegNum) != 0#5) start = some .uinstreth ∧
    csrCheck 0x300 ((31 : RegNum) != 0#5) start = some .mstatus ∧
    csrCheck 0xC82 ((31 : RegNum) != 0#5) start = none ∧
    csrCheck 0xC82 ((0 : RegNum) != 0#5) (inMode .user) = none := by decide

theorem witness_CsrrcAndCsrrciReadThenClear :
    csrCheck 0xC00 ((0 : RegNum) != 0#5) start = some .ucycle ∧
    csrCheck 0x144 ((31 : RegNum) != 0#5) (inMode .supervisor) = some .sip ∧
    csrCheck 0x144 ((0 : RegNum) != 0#5) (inMode .user) = none := by decide

theorem witness_EcallTrapsWithTheCodeOfItsMode :
    (delegating .machine 0xFFFFFFFF).priv = .machine ∧
    (delegating .user 0xFFFFFEFF).csr.medeleg.getLsbD (8 + Mode.user.enc.toNat) = false ∧
    (delegating .supervisor 0xFFFFFDFF).csr.medeleg.getLsbD (8 + Mode.supervisor.enc.toNat) = false := by
  decide

theorem witness_EbreakTrapsWithCodeThree :
    (delegating .machine 0xFFFFFFFF).priv = .machine ∧
    (delegating .user 0xFFFFFFF7).csr.medeleg.getLsbD 3 = false := by decide

/-- One trap of each of the three kinds of saved `pc`, and one of each exception. -/
theorem witness_TrapSavesPcCauseAndInterruptEnable :
    (∀ row ∈ exceptionCodes, raise row.1 0 start = .next (trapEntry row.1 0 start)) ∧
    raise (.environmentCall .machine) 0 start = .next (trapEntry (.environmentCall .machine) 0 start) ∧
    raise .breakpoint 0 start = .next (trapEntry .breakpoint 0 start) ∧
    raise .storeAccessFault 5 start = .next (trapEntry .storeAccessFault 5 start) :=
  ⟨fun _ _ => rfl, rfl, rfl, rfl⟩

theorem witness_TrapEntryWritesOnlyItsState :
    (delegating .machine 0xFFFFFFFF).priv = .machine ∧
    (delegating .user 0xFFFFFFFE).csr.medeleg.getLsbD Exception.instructionAddressMisaligned.code = false := by
  decide

theorem witness_DelegatedTrapIsRefused :
    (delegating .supervisor 0x200).priv ≠ .machine ∧
    (delegating .supervisor 0x200).csr.medeleg.getLsbD (Exception.environmentCall .supervisor).code = true := by
  decide

theorem witness_IllegalWordTrapsWithCodeTwo :
    Described start ∧ fetch start = .ok (0, start) ∧ decode 0 = .error .unassignedOpcode ∧
    start.priv = .machine := ⟨rfl, rfl, rfl, rfl⟩

theorem witness_FetchFailureTrapsWithItsPc :
    Described { start with pc := 0xFFFFFFFF } ∧ (0xFFFFFFFF : Word).toNat % 4 ≠ 0 ∧
    Described { start with denied := [⟨.fetch, 0x1003, 1⟩] } ∧ start.pc.toNat % 4 = 0 ∧
    responds { start with denied := [⟨.fetch, 0x1003, 1⟩] } .fetch start.pc.toNat 4 = false ∧
    start.priv = .machine := ⟨rfl, by decide, rfl, rfl, rfl, rfl⟩

theorem witness_SecondTrapOverwritesTheFirst :
    raise .breakpoint 0 start = .next (trapEntry .breakpoint 0 start) ∧
    raise .illegalInstruction 7 (trapEntry .breakpoint 0 start) =
      .next (trapEntry .illegalInstruction 7 (trapEntry .breakpoint 0 start)) := ⟨rfl, rfl⟩

theorem witness_MisalignedHandlerLoopsForever :
    Described { start with pc := 2, csr := { Csrs.reset with mtvec := 2 } } ∧ start.priv = .machine ∧
    ({ start with pc := 2, csr := { Csrs.reset with mtvec := 2 } } : State).pc = 2 ∧
    (2 : Word).toNat % 4 ≠ 0 := ⟨rfl, rfl, rfl, by decide⟩

/-- The last word of the address space holds an ADDI. -/
theorem witness_StepRunsTheDecodedInstruction :
    let s : State := { start with pc := 0xFFFFFFFC, mem := [(0xFFFFFFFC, 0x13)], stale := [0, 0xFFFFFFFB] }
    Described s ∧ s.pc.toNat % 4 = 0 ∧ responds s .fetch s.pc.toNat 4 = true ∧
    (∀ k < 4, s.pc.toNat + k ∉ s.stale) ∧
    decodeBytes (Memory.readBytes s.mem s.pc.toNat 4) = .ok (.addi 0 0 0, []) :=
  ⟨rfl, rfl, rfl, by decide, rfl⟩

/-- An access of the first and of the last row of the inventory. -/
theorem witness_CsrCheckRefusesExactlyTheListedCases :
    csrCheck 0x300 true start = some .mstatus ∧
    csrCheck 0x180 true (inMode .supervisor) = some .satp := by decide

/-- A counted instruction, a trap, a write of `minstret`, and a CSRRS of it that writes nothing. -/
theorem witness_CompletedInstructionsAreCounted :
    ((∃ t, exec (.addi 0 0 0) start = .next t) ∧ instretAfter (.addi 0 0 0) start = 1) ∧
    ((∃ t, exec .ecall start = .next t) ∧ raisesIn .ecall start = true) ∧
    ((∃ t, exec (.csrrw 0 0xB02 6) (with1 6 9) = .next t) ∧
      minstretWritten (.csrrw 0 0xB02 6) (with1 6 9) = some 9) ∧
    ((∃ t, exec (.csrrs 5 0xB02 0) start = .next t) ∧ minstretWritten (.csrrs 5 0xB02 0) start = none) :=
  ⟨⟨⟨_, rfl⟩, rfl⟩, ⟨⟨_, rfl⟩, rfl⟩, ⟨⟨_, rfl⟩, rfl⟩, ⟨_, rfl⟩, rfl⟩

theorem witness_PlacedWordIsTheNextRun :
    Described { start with pc := 0xFFFFFFFF, stale := [0xFFFFFFFE] } ∧
    decodeTableWord 32 0x00100073 = some .ebreak ∧ start.pc.toNat % 4 = 0 := ⟨rfl, rfl, rfl⟩

theorem witness_StepRefusesOnlyWhatIsNotDescribed :
    ({ Csrs.reset with satp := 1 } : Csrs).satp ≠ 0 ∧
    (({ Csrs.reset with pmpcfg0 := 1 } : Csrs).satp = 0 ∧
      ({ Csrs.reset with pmpcfg0 := 1 } : Csrs).pmpcfg0 ≠ 0) ∧
    (({ Csrs.reset with mstatus := 8, mie := 1, mip := 3 } : Csrs).mstatus.getLsbD 3 = true ∧
      ({ Csrs.reset with mstatus := 8, mie := 1, mip := 3 } : Csrs).mie &&& 3 ≠ 0) ∧
    (({ Csrs.reset with mstatus := 8, mie := 1, mip := 2 } : Csrs).mie &&& 2 = 0) ∧
    step (delegating .user 4) = .refused .delegationNotDescribed :=
  ⟨by decide, by decide, by decide, by decide, rfl⟩

theorem witness_StepKeepsCanonicalForm :
    Canonical (withData 6 0x2000 7 0) ∧ ∃ t, step (withData 6 0x2000 7 0) = .next t :=
  ⟨⟨rfl, rfl, by decide⟩, _, rfl⟩

/-- A step that keeps the mode, and one that raises it. -/
theorem witness_NoStepLowersTheMode :
    (∃ t, step ((inMode .user).withFetchWord 32 0x00000013) = .next t ∧ t.priv = .user) ∧
    ∃ t, step (inMode .supervisor) = .next t ∧ t.priv = .machine := ⟨⟨_, rfl, rfl⟩, _, rfl, rfl⟩

/-- A step that writes `misa`. -/
theorem witness_StepKeepsMisaAndPlatform :
    ∃ t, step ((with1 6 0xFFFFFFFF).withFetchWord 32 0x301312F3) = .next t ∧ t.csr.misa = 0 :=
  ⟨_, rfl, rfl⟩

theorem witness_UserModeChangesNoCsr :
    ∃ t, (inMode .user).priv = .user ∧ step ((inMode .user).withFetchWord 32 0x00000013) = .next t ∧
      t.priv = .user := ⟨_, rfl, rfl, rfl⟩

theorem witness_SupervisorModeChangesNoMachineCsr :
    ∃ t, step ((inMode .supervisor).withFetchWord 32 0x14031073) = .next t ∧ t.priv = .supervisor ∧
      Csr.mscratch.address.toNat / 256 % 4 = 3 ∧ Csr.mscratch.isCounterView = false :=
  ⟨_, rfl, rfl, rfl, rfl⟩

/-- A counted step, a write of `minstret`, a word that is no instruction, and an instruction that raises. -/
theorem witness_StepCompletesOrTrapsPrecisely :
    (∃ t, step (start.withFetchWord 32 0x00000013) = .next t ∧ t.instret = 1) ∧
    (∃ t, step ((with1 6 9).withFetchWord 32 0xB0231073) = .next t ∧ t.instret = 9) ∧
    (∃ t, step start = .next t ∧ t.csr.mcause = 2) ∧
    ∃ t, step (start.withFetchWord 32 0x00100073) = .next t ∧ t.csr.mcause = 3 :=
  ⟨⟨_, rfl, rfl⟩, ⟨_, rfl, rfl⟩, ⟨_, rfl, rfl⟩, _, rfl, rfl⟩

theorem witness_MemoryChangesOnlyByStoresAndIsStale :
    ∃ t, step ((withData 6 0x2000 7 0x44).withFetchWord 32 0x00732023) = .next t ∧
      Memory.read t.mem 0x2003 ≠ Memory.read (withData 6 0x2000 7 0x44).mem 0x2003 :=
  ⟨_, rfl, by decide⟩

theorem witness_OnlyFenceiMakesStaleBytesFresh :
    ∃ t, step (({ start with stale := [0x2000] } : State).withFetchWord 32 0x0000100F) = .next t ∧
      0x2000 ∈ (({ start with stale := [0x2000] } : State).withFetchWord 32 0x0000100F).stale ∧
      0x2000 ∉ t.stale := ⟨_, rfl, by decide, by decide⟩

end Sys2Proof.Tests
end

section
/-! PROOFS. The bits of a word's immediates and register numbers (R120 to R124, R128;
30_encoding.md, immediates and operands), and the ranges of the two displacements. -/

namespace Sys2Proof

/-! ### Each field, bit by bit -/

theorem getLsbD_rdOf (w : Word) {k : Nat} (hk : k < 5) :
    (rdOf w).getLsbD k = w.getLsbD (7 + k) := by
  simp [rdOf, hk]

theorem getLsbD_rs1Of (w : Word) {k : Nat} (hk : k < 5) :
    (rs1Of w).getLsbD k = w.getLsbD (15 + k) := by
  simp [rs1Of, hk]

theorem getLsbD_rs2Of (w : Word) {k : Nat} (hk : k < 5) :
    (rs2Of w).getLsbD k = w.getLsbD (20 + k) := by
  simp [rs2Of, hk]

theorem getLsbD_immIOf (w : Word) {k : Nat} (hk : k < 12) :
    (immIOf w).getLsbD k = w.getLsbD (20 + k) := by
  simp [immIOf, hk]

theorem getLsbD_immUOf (w : Word) {k : Nat} (hk : k < 20) :
    (immUOf w).getLsbD k = w.getLsbD (12 + k) := by
  simp [immUOf, hk]

theorem getLsbD_immSOf (w : Word) {i : Nat} (hi : i < 12) :
    (immSOf w).getLsbD i = if i < 5 then w.getLsbD (7 + i) else w.getLsbD (20 + i) := by
  simp only [immSOf, BitVec.getLsbD_append, BitVec.getLsbD_extractLsb']
  interval_cases i <;> simp

/-- From bit 0 up: 0, then `inst[11:8]`, `inst[30:25]`, `inst[7]`, `inst[31]` (R122). -/
theorem getLsbD_immBOf (w : Word) {i : Nat} (hi : i < 13) :
    (immBOf w).getLsbD i =
      if i = 0 then false else if i < 5 then w.getLsbD (7 + i)
      else if i < 11 then w.getLsbD (20 + i) else if i = 11 then w.getLsbD 7
      else w.getLsbD 31 := by
  simp only [immBOf, BitVec.getLsbD_append, BitVec.getLsbD_extractLsb']
  interval_cases i <;> simp

/-- From bit 0 up: 0, then `inst[30:21]`, `inst[20]`, `inst[19:12]`, `inst[31]` (R124). -/
theorem getLsbD_immJOf (w : Word) {i : Nat} (hi : i < 21) :
    (immJOf w).getLsbD i =
      if i = 0 then false else if i < 11 then w.getLsbD (20 + i)
      else if i = 11 then w.getLsbD 20 else if i < 20 then w.getLsbD i
      else w.getLsbD 31 := by
  simp only [immJOf, BitVec.getLsbD_append, BitVec.getLsbD_extractLsb']
  interval_cases i <;> simp

/-- The mask `0xFFFFF000` keeps the bits from 12 up. -/
theorem getLsbD_upperMask {i : Nat} (hi : i < 32) :
    (0xFFFFF000#32).getLsbD i = decide (12 ≤ i) := by
  interval_cases i <;> rfl

/-- R123: the upper immediate in its place is the word with the low 12 bits cleared. -/
theorem immUOf_append_zero (w : Word) : (immUOf w ++ 0#12 : Word) = w &&& 0xFFFFF000#32 := by
  apply BitVec.eq_of_getLsbD_eq
  intro i hi
  rw [BitVec.getLsbD_append, BitVec.getLsbD_and, getLsbD_upperMask hi]
  by_cases hlow : i < 12
  · simp [hlow]
  · have hfield : i - 12 < 20 := by omega
    have hplace : 12 + (i - 12) = i := by omega
    simp [hlow, getLsbD_immUOf w hfield, hplace, Nat.le_of_not_lt hlow]

/-! ### The formats, clause by clause -/

theorem immBOf_bits (w : Word) :
    (immBOf w).getLsbD 12 = w.getLsbD 31 ∧ (immBOf w).getLsbD 11 = w.getLsbD 7 ∧
      (∀ k < 6, (immBOf w).getLsbD (5 + k) = w.getLsbD (25 + k)) ∧
      (∀ k < 4, (immBOf w).getLsbD (1 + k) = w.getLsbD (8 + k)) ∧ (immBOf w).getLsbD 0 = false := by
  refine ⟨getLsbD_immBOf w (by decide), getLsbD_immBOf w (by decide), fun k hk => ?_,
    fun k hk => ?_, getLsbD_immBOf w (by decide)⟩
  · rw [getLsbD_immBOf w (by omega), if_neg (by omega), if_neg (by omega), if_pos (by omega),
      ← Nat.add_assoc]
  · rw [getLsbD_immBOf w (by omega), if_neg (by omega), if_pos (by omega), ← Nat.add_assoc]

theorem immJOf_bits (w : Word) :
    (immJOf w).getLsbD 20 = w.getLsbD 31 ∧
      (∀ k < 8, (immJOf w).getLsbD (12 + k) = w.getLsbD (12 + k)) ∧
      (immJOf w).getLsbD 11 = w.getLsbD 20 ∧
      (∀ k < 10, (immJOf w).getLsbD (1 + k) = w.getLsbD (21 + k)) ∧
      (immJOf w).getLsbD 0 = false := by
  refine ⟨getLsbD_immJOf w (by decide), fun k hk => ?_, getLsbD_immJOf w (by decide),
    fun k hk => ?_, getLsbD_immJOf w (by decide)⟩
  · rw [getLsbD_immJOf w (by omega), if_neg (by omega), if_neg (by omega), if_neg (by omega),
      if_pos (by omega)]
  · rw [getLsbD_immJOf w (by omega), if_neg (by omega), if_pos (by omega), ← Nat.add_assoc]

theorem immSOf_bits (w : Word) :
    (∀ k < 5, (immSOf w).getLsbD k = w.getLsbD (7 + k)) ∧
      ∀ k < 7, (immSOf w).getLsbD (5 + k) = w.getLsbD (25 + k) := by
  refine ⟨fun k hk => ?_, fun k hk => ?_⟩
  · rw [getLsbD_immSOf w (by omega), if_pos hk]
  · rw [getLsbD_immSOf w (by omega), if_neg (by omega), ← Nat.add_assoc]

/-! ### The range of a displacement

Two's complement gives `-2^n ≤ x < 2^n`; bit 0 zero makes `x` even, so the
largest value is `2^n - 2`. -/

theorem toInt_emod_two_of_even {n : Nat} (x : BitVec (n + 1)) (h0 : x.getLsbD 0 = false) :
    x.toInt % 2 = 0 := by
  have heven : x.toNat % 2 = 0 := by
    simpa [BitVec.getLsbD, Nat.testBit_zero] using h0
  rw [BitVec.toInt_eq_toNat_cond]
  split
  · omega
  · push_cast
    omega

theorem toInt_bounds_of_even {n : Nat} (x : BitVec (n + 1)) (h0 : x.getLsbD 0 = false)
    (hn : 0 < n) : -2 ^ n ≤ x.toInt ∧ x.toInt ≤ 2 ^ n - 2 := by
  have heven := toInt_emod_two_of_even x h0
  have hlower : -2 ^ n ≤ x.toInt := BitVec.le_toInt x
  have hupper : x.toInt < 2 ^ n := BitVec.toInt_lt
  obtain ⟨m, rfl⟩ := Nat.exists_eq_add_of_lt hn
  omega

/-- R122: a branch displacement lies in -4096 .. 4094. -/
theorem immBOf_bounds (w : Word) : -4096 ≤ (immBOf w).toInt ∧ (immBOf w).toInt ≤ 4094 := by
  obtain ⟨-, -, -, -, h0⟩ := immBOf_bits w
  simpa using toInt_bounds_of_even (n := 12) (immBOf w) h0 (by decide)

/-- R124: a JAL displacement lies in -1048576 .. 1048574. -/
theorem immJOf_bounds (w : Word) : -1048576 ≤ (immJOf w).toInt ∧ (immJOf w).toInt ≤ 1048574 := by
  obtain ⟨-, -, -, -, h0⟩ := immJOf_bits w
  simpa using toInt_bounds_of_even (n := 20) (immJOf w) h0 (by decide)

/-! ### The obligation -/

/-- Settles O5: the bits of each field from its layout in the word, and the range of a displacement
from its bit 0 being zero. -/
theorem immediateBitsComeFromTheirFields : Obligations.ImmediateBitsComeFromTheirFields := by
  intro w
  obtain ⟨hB12, hB11, hBmid, hBlow, hB0⟩ := immBOf_bits w
  obtain ⟨hJ20, hJhigh, hJ11, hJlow, hJ0⟩ := immJOf_bits w
  obtain ⟨hSlow, hShigh⟩ := immSOf_bits w
  exact ⟨⟨hB12, hB11, hBmid, hBlow, hB0, immBOf_bounds w⟩, immUOf_append_zero w,
    ⟨hJ20, hJhigh, hJ11, hJlow, hJ0, immJOf_bounds w⟩,
    fun _ hk => ⟨getLsbD_rdOf w hk, getLsbD_rs1Of w hk, getLsbD_rs2Of w hk⟩,
    fun _ hk => getLsbD_immIOf w hk, hSlow, hShigh⟩

end Sys2Proof
end

section
/-! PROOFS. Integer operations (41_integer.md): the words of a row by the fields its mask fixes, the
effect of an instruction that writes one register and goes on, and the nine instructions. -/

namespace Sys2Proof

/-! ### Words of an opcode-table row, one lemma for each mask

A row decodes as `build` says if every word with the row's opcode, and its funct3 and funct7 where the
mask keeps them, does. -/

theorem readsAs_of_opcode {pattern : Word} {build : Word → Instr} {op : BitVec 7}
    (hop : opcodeOf pattern = op)
    (hrow : ∀ {w}, opcodeOf w = op → decode w = .ok (build w)) :
    ReadsAs pattern 0x0000007F build :=
  fun _ h => hrow ((opcode_of_masked h (by decide)).trans hop)

theorem readsAs_of_funct3 {pattern : Word} {build : Word → Instr} {op : BitVec 7} {f3 : BitVec 3}
    (hop : opcodeOf pattern = op) (h3 : funct3Of pattern = f3)
    (hrow : ∀ {w}, opcodeOf w = op → funct3Of w = f3 → decode w = .ok (build w)) :
    ReadsAs pattern 0x0000707F build :=
  fun _ h => hrow ((opcode_of_masked h (by decide)).trans hop)
    ((funct3_of_masked h (by decide)).trans h3)

theorem readsAs_of_funct7 {pattern : Word} {build : Word → Instr} {op : BitVec 7} {f3 : BitVec 3}
    {f7 : BitVec 7} (hop : opcodeOf pattern = op) (h3 : funct3Of pattern = f3)
    (h7 : funct7Of pattern = f7)
    (hrow : ∀ {w}, opcodeOf w = op → funct3Of w = f3 → funct7Of w = f7 →
      decode w = .ok (build w)) :
    ReadsAs pattern 0xFE00707F build :=
  fun _ h => hrow ((opcode_of_masked h (by decide)).trans hop)
    ((funct3_of_masked h (by decide)).trans h3) ((funct7_of_masked h (by decide)).trans h7)

/-! ### The decoder at the cells of the integer operations (R131, R132, R134) -/

section
variable {w : Word}

theorem decode_of_op (hop : opcodeOf w = 0x33#7) : decode w = decodeOp w := by simp [decode, hop]

theorem decode_of_opImm (hop : opcodeOf w = 0x13#7) : decode w = decodeOpImm w := by
  simp [decode, hop]

theorem decode_lui (hop : opcodeOf w = 0x37#7) : decode w = .ok (.lui (rdOf w) (immUOf w)) := by
  simp [decode, hop]

theorem decode_auipc (hop : opcodeOf w = 0x17#7) : decode w = .ok (.auipc (rdOf w) (immUOf w)) := by
  simp [decode, hop]

theorem decode_add (hop : opcodeOf w = 0x33#7) (h3 : funct3Of w = 0#3) (h7 : funct7Of w = 0x00#7) :
    decode w = .ok (.add (rdOf w) (rs1Of w) (rs2Of w)) := by
  simp [decode_of_op hop, decodeOp, h3, h7]

theorem decode_sub (hop : opcodeOf w = 0x33#7) (h3 : funct3Of w = 0#3) (h7 : funct7Of w = 0x20#7) :
    decode w = .ok (.sub (rdOf w) (rs1Of w) (rs2Of w)) := by
  simp [decode_of_op hop, decodeOp, h3, h7]

theorem decode_slt (hop : opcodeOf w = 0x33#7) (h3 : funct3Of w = 2#3) (h7 : funct7Of w = 0x00#7) :
    decode w = .ok (.slt (rdOf w) (rs1Of w) (rs2Of w)) := by
  simp [decode_of_op hop, decodeOp, h3, h7]

theorem decode_sltu (hop : opcodeOf w = 0x33#7) (h3 : funct3Of w = 3#3) (h7 : funct7Of w = 0x00#7) :
    decode w = .ok (.sltu (rdOf w) (rs1Of w) (rs2Of w)) := by
  simp [decode_of_op hop, decodeOp, h3, h7]

theorem decode_addi (hop : opcodeOf w = 0x13#7) (h3 : funct3Of w = 0#3) :
    decode w = .ok (.addi (rdOf w) (rs1Of w) (immIOf w)) := by
  simp [decode_of_opImm hop, decodeOpImm, h3]

theorem decode_slti (hop : opcodeOf w = 0x13#7) (h3 : funct3Of w = 2#3) :
    decode w = .ok (.slti (rdOf w) (rs1Of w) (immIOf w)) := by
  simp [decode_of_opImm hop, decodeOpImm, h3]

theorem decode_sltiu (hop : opcodeOf w = 0x13#7) (h3 : funct3Of w = 3#3) :
    decode w = .ok (.sltiu (rdOf w) (rs1Of w) (immIOf w)) := by
  simp [decode_of_opImm hop, decodeOpImm, h3]

end

end Sys2Proof

namespace Sys2Proof.Machine

/-! ### The effect of writing one register -/

/-- The reasoning rule of every instruction that ends in one register write. -/
theorem onlyRegWritten_setX_retire (s : State) (rd : RegNum) (v target : Word) :
    OnlyRegWritten s ((s.setX rd v).retire target) rd v target := by
  have hregs : RegWritten s ((s.setX rd v).retire target) rd v := fun r => by
    rw [getX_retire, getX_setX]
  have hmem : MemKept s ((s.setX rd v).retire target) := fun a => by
    rw [State.retire_mem, State.setX_mem]
  have hsystem : SystemKept s ((s.setX rd v).retire target) := by simp [SystemKept]
  exact ⟨hregs, State.retire_pc _ _, hmem, by simp, hsystem⟩

/-- An instruction whose meaning is one `writeResult` completes and has just that effect (R171). -/
theorem effect_of_writeResult {i : Instr} {s : State} {rd : RegNum} {v : Word}
    (h : exec i s = writeResult rd v s) :
    ∃ t, exec i s = .next t ∧ OnlyRegWritten s t rd v (s.pc + 4) :=
  ⟨_, h.trans (writeResult_eq rd v s), onlyRegWritten_setX_retire s rd v (s.pc + 4)⟩

/-! ### Comparisons (R170, R173 to R176) -/

theorem lessSigned_iff {a b : Word} : lessSigned a b = true ↔ a.toInt < b.toInt :=
  BitVec.slt_iff_toInt_lt

theorem lessUnsigned_iff {a b : Word} : lessUnsigned a b = true ↔ a.toNat < b.toNat :=
  BitVec.ult_iff_lt

theorem boolWord_lessSigned (a b : Word) :
    boolWord (lessSigned a b) = if a.toInt < b.toInt then 1 else 0 := by
  simp only [boolWord, lessSigned_iff]

theorem boolWord_lessUnsigned (a b : Word) :
    boolWord (lessUnsigned a b) = if a.toNat < b.toNat then 1 else 0 := by
  simp only [boolWord, lessUnsigned_iff]

/-- Sign extension keeps the integer. -/
theorem toInt_immWord (imm : BitVec 12) : (immWord imm).toInt = imm.toInt :=
  BitVec.toInt_signExtend_of_le (by decide)

/-! ### What each instruction writes -/

section
variable (rd rs1 rs2 : RegNum) (imm : BitVec 12) (imm20 : BitVec 20) (s : State)

theorem exec_add :
    exec (.add rd rs1 rs2) s = writeResult rd (s.getX rs1 + s.getX rs2) s := rfl

theorem exec_sub :
    exec (.sub rd rs1 rs2) s = writeResult rd (s.getX rs1 - s.getX rs2) s := rfl

theorem exec_slt :
    exec (.slt rd rs1 rs2) s =
      writeResult rd (if (s.getX rs1).toInt < (s.getX rs2).toInt then 1 else 0) s := by
  rw [← boolWord_lessSigned]
  rfl

theorem exec_sltu :
    exec (.sltu rd rs1 rs2) s =
      writeResult rd (if (s.getX rs1).toNat < (s.getX rs2).toNat then 1 else 0) s := by
  rw [← boolWord_lessUnsigned]
  rfl

theorem exec_slti :
    exec (.slti rd rs1 imm) s =
      writeResult rd (if (s.getX rs1).toInt < imm.toInt then 1 else 0) s := by
  rw [← toInt_immWord, ← boolWord_lessSigned]
  rfl

theorem exec_sltiu :
    exec (.sltiu rd rs1 imm) s =
      writeResult rd (if (s.getX rs1).toNat < (imm.signExtend 32).toNat then 1 else 0) s := by
  rw [← boolWord_lessUnsigned]
  rfl

theorem exec_addi :
    exec (.addi rd rs1 imm) s = writeResult rd (s.getX rs1 + imm.signExtend 32) s := rfl

theorem exec_lui : exec (.lui rd imm20) s = writeResult rd (imm20 ++ 0#12) s := rfl

theorem exec_auipc : exec (.auipc rd imm20) s = writeResult rd (s.pc + (imm20 ++ 0#12)) s := rfl

end

end Sys2Proof.Machine

namespace Sys2Proof

open Sys2Proof.Machine

/-! ### The obligations -/

/-- Settles O6: the two rows differ in funct7 alone, and each instruction writes one result. -/
theorem addAndSubWriteSumAndDifference : Obligations.AddAndSubWriteSumAndDifference := by
  refine ⟨readsAs_of_funct7 (by decide) (by decide) (by decide) decode_add,
    readsAs_of_funct7 (by decide) (by decide) (by decide) decode_sub, fun rd rs1 rs2 s => ⟨?_, ?_⟩⟩
  · exact effect_of_writeResult (exec_add rd rs1 rs2 s)
  · exact effect_of_writeResult (exec_sub rd rs1 rs2 s)

/-- Settles O7: the result is the comparison as an integer order. -/
theorem sltAndSltuWriteComparison : Obligations.SltAndSltuWriteComparison := by
  refine ⟨readsAs_of_funct7 (by decide) (by decide) (by decide) decode_slt,
    readsAs_of_funct7 (by decide) (by decide) (by decide) decode_sltu, fun rd rs1 rs2 s => ⟨?_, ?_⟩⟩
  · exact effect_of_writeResult (exec_slt rd rs1 rs2 s)
  · exact effect_of_writeResult (exec_sltu rd rs1 rs2 s)

/-- Settles O8: the same comparisons against the sign-extended immediate, whose signed value is the
immediate's own. -/
theorem sltiAndSltiuWriteComparison : Obligations.SltiAndSltiuWriteComparison := by
  refine ⟨readsAs_of_funct3 (by decide) (by decide) decode_slti,
    readsAs_of_funct3 (by decide) (by decide) decode_sltiu, fun rd rs1 imm s => ⟨?_, ?_⟩⟩
  · exact effect_of_writeResult (exec_slti rd rs1 imm s)
  · exact effect_of_writeResult (exec_sltiu rd rs1 imm s)

/-- Settles O9: ADDI writes one result. -/
theorem addiWritesSumWithImmediate : Obligations.AddiWritesSumWithImmediate :=
  ⟨readsAs_of_funct3 (by decide) (by decide) decode_addi,
    fun rd rs1 imm s => effect_of_writeResult (exec_addi rd rs1 imm s)⟩

/-- Settles O10: the opcode alone fixes both rows; AUIPC adds the `pc` of the state it starts from. -/
theorem luiAndAuipcWriteUpperImmediate : Obligations.LuiAndAuipcWriteUpperImmediate := by
  refine ⟨readsAs_of_opcode (by decide) decode_lui, readsAs_of_opcode (by decide) decode_auipc,
    fun rd imm20 s => ⟨?_, ?_⟩⟩
  · exact effect_of_writeResult (exec_lui rd imm20 s)
  · exact effect_of_writeResult (exec_auipc rd imm20 s)

end Sys2Proof
end

section
/-! PROOFS. Logical operations (43_logical.md): the six cells of the decoder, what each instruction
writes, and the two obligations. The row and effect lemmas of the integer operations serve here too. -/

namespace Sys2Proof

/-! ### The decoder at the cells of the logical operations (R132, R134) -/

section
variable {w : Word}

theorem decode_xor (hop : opcodeOf w = 0x33#7) (h3 : funct3Of w = 4#3) (h7 : funct7Of w = 0x00#7) :
    decode w = .ok (.xor (rdOf w) (rs1Of w) (rs2Of w)) := by
  simp [decode_of_op hop, decodeOp, h3, h7]

theorem decode_or (hop : opcodeOf w = 0x33#7) (h3 : funct3Of w = 6#3) (h7 : funct7Of w = 0x00#7) :
    decode w = .ok (.or (rdOf w) (rs1Of w) (rs2Of w)) := by
  simp [decode_of_op hop, decodeOp, h3, h7]

theorem decode_and (hop : opcodeOf w = 0x33#7) (h3 : funct3Of w = 7#3) (h7 : funct7Of w = 0x00#7) :
    decode w = .ok (.and (rdOf w) (rs1Of w) (rs2Of w)) := by
  simp [decode_of_op hop, decodeOp, h3, h7]

theorem decode_xori (hop : opcodeOf w = 0x13#7) (h3 : funct3Of w = 4#3) :
    decode w = .ok (.xori (rdOf w) (rs1Of w) (immIOf w)) := by
  simp [decode_of_opImm hop, decodeOpImm, h3]

theorem decode_ori (hop : opcodeOf w = 0x13#7) (h3 : funct3Of w = 6#3) :
    decode w = .ok (.ori (rdOf w) (rs1Of w) (immIOf w)) := by
  simp [decode_of_opImm hop, decodeOpImm, h3]

theorem decode_andi (hop : opcodeOf w = 0x13#7) (h3 : funct3Of w = 7#3) :
    decode w = .ok (.andi (rdOf w) (rs1Of w) (immIOf w)) := by
  simp [decode_of_opImm hop, decodeOpImm, h3]

end

end Sys2Proof

namespace Sys2Proof.Machine

/-! ### What each logical instruction writes (R201 to R206) -/

section
variable (rd rs1 rs2 : RegNum) (imm : BitVec 12) (s : State)

theorem exec_xor :
    exec (.xor rd rs1 rs2) s = writeResult rd (s.getX rs1 ^^^ s.getX rs2) s := rfl

theorem exec_or :
    exec (.or rd rs1 rs2) s = writeResult rd (s.getX rs1 ||| s.getX rs2) s := rfl

theorem exec_and :
    exec (.and rd rs1 rs2) s = writeResult rd (s.getX rs1 &&& s.getX rs2) s := rfl

theorem exec_xori :
    exec (.xori rd rs1 imm) s = writeResult rd (s.getX rs1 ^^^ imm.signExtend 32) s := rfl

theorem exec_ori :
    exec (.ori rd rs1 imm) s = writeResult rd (s.getX rs1 ||| imm.signExtend 32) s := rfl

theorem exec_andi :
    exec (.andi rd rs1 imm) s = writeResult rd (s.getX rs1 &&& imm.signExtend 32) s := rfl

end

end Sys2Proof.Machine

namespace Sys2Proof

open Sys2Proof.Machine

/-! ### The obligations on logical operations -/

/-- Settles O11: the three rows differ in funct3 alone, and each instruction writes one result. -/
theorem xorOrAndCombineRegisters : Obligations.XorOrAndCombineRegisters := by
  refine ⟨readsAs_of_funct7 (by decide) (by decide) (by decide) decode_xor,
    readsAs_of_funct7 (by decide) (by decide) (by decide) decode_or,
    readsAs_of_funct7 (by decide) (by decide) (by decide) decode_and,
    fun rd rs1 rs2 s => ⟨?_, ?_, ?_⟩⟩
  · exact effect_of_writeResult (exec_xor rd rs1 rs2 s)
  · exact effect_of_writeResult (exec_or rd rs1 rs2 s)
  · exact effect_of_writeResult (exec_and rd rs1 rs2 s)

/-- Settles O12: opcode and funct3 fix the rows, and the second operand is the immediate sign-extended
to a word. -/
theorem oriXoriAndiCombineImmediate : Obligations.OriXoriAndiCombineImmediate := by
  refine ⟨readsAs_of_funct3 (by decide) (by decide) decode_ori,
    readsAs_of_funct3 (by decide) (by decide) decode_xori,
    readsAs_of_funct3 (by decide) (by decide) decode_andi,
    fun rd rs1 imm s => ⟨?_, ?_, ?_⟩⟩
  · exact effect_of_writeResult (exec_ori rd rs1 imm s)
  · exact effect_of_writeResult (exec_xori rd rs1 imm s)
  · exact effect_of_writeResult (exec_andi rd rs1 imm s)

end Sys2Proof
end

section
/-! PROOFS. Memory operations (44_memory_ops.md): the decoder at the byte loads, what a load does once
memory has answered, and the obligation on LB and LBU. -/

namespace Sys2Proof

/-! ### The decoder at the byte loads (R134, R221) -/

section
variable {w : Word}

theorem decode_of_load (hop : opcodeOf w = 0x03#7) : decode w = decodeLoad w := by
  simp [decode, hop]

theorem decode_lb (hop : opcodeOf w = 0x03#7) (h3 : funct3Of w = 0#3) :
    decode w = .ok (.lb (rdOf w) (rs1Of w) (immIOf w)) := by
  simp [decode_of_load hop, decodeLoad, h3]

theorem decode_lbu (hop : opcodeOf w = 0x03#7) (h3 : funct3Of w = 4#3) :
    decode w = .ok (.lbu (rdOf w) (rs1Of w) (immIOf w)) := by
  simp [decode_of_load hop, decodeLoad, h3]

end

end Sys2Proof

namespace Sys2Proof.Machine

/-! ### Reading one byte (20_memory.md R88) -/

/-- Every address is aligned for a byte, so a byte access never raises misaligned. -/
theorem aligned_one (a : Word) : aligned a 1 = true := by
  simp [aligned, Nat.mod_one]

theorem memRead_byte {s : State} {a : Word} (hr : responds s .load a.toNat 1 = true) :
    memRead s a 1 = .ok ((Memory.read s.mem a.toNat).setWidth 32) := by
  rw [memRead_ok (aligned_one a) hr, readBytes_one, ofBytes_one]

theorem memRead_byte_fault {s : State} {a : Word} (hr : responds s .load a.toNat 1 = false) :
    memRead s a 1 = .error .loadAccessFault :=
  memRead_fault (aligned_one a) hr

/-- The byte survives the zero extension of the read. -/
theorem sext8_setWidth (b : Byte) : sext8 (b.setWidth 32) = b.signExtend 32 := by
  simp [sext8]

/-! ### A load after memory has answered (R211) -/

section
variable {n : Nat} {extend : Word → Word} {rd rs1 : RegNum} {offset : BitVec 12} {s : State}

theorem load_of_memRead_ok {v : Word} (h : memRead s (effectiveAddress s rs1 offset) n = .ok v) :
    load n extend rd rs1 offset s = writeResult rd (extend v) s := by
  simp [load, h]

theorem load_of_memRead_error {e : Exception}
    (h : memRead s (effectiveAddress s rs1 offset) n = .error e) :
    load n extend rd rs1 offset s = raise e (effectiveAddress s rs1 offset) s := by
  simp [load, h]

end

/-! ### What each byte load does (R214, R217) -/

section
variable (rd rs1 : RegNum) (offset : BitVec 12) (s : State)

theorem exec_lb : exec (.lb rd rs1 offset) s = load 1 sext8 rd rs1 offset s := rfl

theorem exec_lbu : exec (.lbu rd rs1 offset) s = load 1 id rd rs1 offset s := rfl

variable {rd rs1 offset s}

theorem exec_lb_of_responds
    (hr : responds s .load (effectiveAddress s rs1 offset).toNat 1 = true) :
    exec (.lb rd rs1 offset) s =
      writeResult rd ((Memory.read s.mem (effectiveAddress s rs1 offset).toNat).signExtend 32) s := by
  rw [exec_lb, load_of_memRead_ok (memRead_byte hr), sext8_setWidth]

theorem exec_lbu_of_responds
    (hr : responds s .load (effectiveAddress s rs1 offset).toNat 1 = true) :
    exec (.lbu rd rs1 offset) s =
      writeResult rd ((Memory.read s.mem (effectiveAddress s rs1 offset).toNat).setWidth 32) s := by
  rw [exec_lbu, load_of_memRead_ok (memRead_byte hr), id_eq]

end

end Sys2Proof.Machine

namespace Sys2Proof

open Sys2Proof.Machine

/-! ### The obligation on byte loads -/

/-- Settles O21: funct3 tells the two rows apart, and whether the address responds is the only case
split, since a byte is always aligned. -/
theorem byteLoadsExtendTheByte : Obligations.ByteLoadsExtendTheByte := by
  refine ⟨readsAs_of_funct3 (by decide) (by decide) decode_lb,
    readsAs_of_funct3 (by decide) (by decide) decode_lbu,
    fun rd rs1 offset s => ⟨fun hr => ⟨?_, ?_⟩, fun hr => ⟨?_, ?_⟩⟩⟩
  · exact effect_of_writeResult (exec_lb_of_responds hr)
  · exact effect_of_writeResult (exec_lbu_of_responds hr)
  · rw [exec_lb, load_of_memRead_error (memRead_byte_fault hr)]
  · rw [exec_lbu, load_of_memRead_error (memRead_byte_fault hr)]

end Sys2Proof
end

section
/-! PROOFS. Shift operations (45_shift.md): the three cells of the decoder, the model's shifts as
products and quotients by a power of two, and the obligation on the shifts by a register. -/

namespace Sys2Proof

/-! ### The decoder at the shifts by a register (R132, R134) -/

section
variable {w : Word}

theorem decode_sll (hop : opcodeOf w = 0x33#7) (h3 : funct3Of w = 1#3) (h7 : funct7Of w = 0x00#7) :
    decode w = .ok (.sll (rdOf w) (rs1Of w) (rs2Of w)) := by
  simp [decode_of_op hop, decodeOp, h3, h7]

theorem decode_srl (hop : opcodeOf w = 0x33#7) (h3 : funct3Of w = 5#3) (h7 : funct7Of w = 0x00#7) :
    decode w = .ok (.srl (rdOf w) (rs1Of w) (rs2Of w)) := by
  simp [decode_of_op hop, decodeOp, h3, h7]

theorem decode_sra (hop : opcodeOf w = 0x33#7) (h3 : funct3Of w = 5#3) (h7 : funct7Of w = 0x20#7) :
    decode w = .ok (.sra (rdOf w) (rs1Of w) (rs2Of w)) := by
  simp [decode_of_op hop, decodeOp, h3, h7]

end

end Sys2Proof

namespace Sys2Proof.Machine

/-! ### Shifts as numbers (00_scope.md R11, R230) -/

/-- The low five bits of a register are its value modulo 32. -/
theorem toNat_shiftAmount (v : Word) : (shiftAmount v).toNat = v.toNat % 32 := by
  simp [shiftAmount]

theorem shl_eq_ofNat_mul (v : Word) (n : BitVec 5) :
    shl v n = BitVec.ofNat 32 (v.toNat * 2 ^ n.toNat) := by
  apply BitVec.eq_of_toNat_eq
  rw [shl, BitVec.toNat_shiftLeft, Nat.shiftLeft_eq, BitVec.toNat_ofNat]

theorem shrL_eq_ofNat_div (v : Word) (n : BitVec 5) :
    shrL v n = BitVec.ofNat 32 (v.toNat / 2 ^ n.toNat) := by
  rw [← Nat.shiftRight_eq_div_pow, ← BitVec.toNat_ushiftRight, BitVec.ofNat_toNat,
    BitVec.setWidth_eq, shrL]

/-- The copies of the sign bit round towards minus infinity, as `Int`'s `/` by a positive number does. -/
theorem shrA_eq_ofInt_div (v : Word) (n : BitVec 5) :
    shrA v n = BitVec.ofInt 32 (v.toInt / 2 ^ n.toNat) := by
  have hdiv : v.toInt / 2 ^ n.toNat = (v.sshiftRight n.toNat).toInt := by
    rw [BitVec.toInt_sshiftRight, Int.shiftRight_eq_div_pow, Int.natCast_pow]
    rfl
  rw [hdiv, BitVec.ofInt_toInt, shrA]

/-! ### What each shift by a register writes (R234 to R236) -/

section
variable (rd rs1 rs2 : RegNum) (s : State)

theorem exec_sll :
    exec (.sll rd rs1 rs2) s = writeResult rd
      (BitVec.ofNat 32 ((s.getX rs1).toNat * 2 ^ ((s.getX rs2).toNat % 32))) s := by
  rw [← toNat_shiftAmount, ← shl_eq_ofNat_mul]
  rfl

theorem exec_srl :
    exec (.srl rd rs1 rs2) s = writeResult rd
      (BitVec.ofNat 32 ((s.getX rs1).toNat / 2 ^ ((s.getX rs2).toNat % 32))) s := by
  rw [← toNat_shiftAmount, ← shrL_eq_ofNat_div]
  rfl

theorem exec_sra :
    exec (.sra rd rs1 rs2) s = writeResult rd
      (BitVec.ofInt 32 ((s.getX rs1).toInt / 2 ^ ((s.getX rs2).toNat % 32))) s := by
  rw [← toNat_shiftAmount, ← shrA_eq_ofInt_div]
  rfl

end

end Sys2Proof.Machine

namespace Sys2Proof

open Sys2Proof.Machine

/-! ### The obligation on shifts by a register -/

/-- Settles O13: funct3 and funct7 tell the three rows apart, and each instruction writes one result,
which is the product or the quotient by the power of two of the amount. -/
theorem registerShiftsMultiplyAndDivide : Obligations.RegisterShiftsMultiplyAndDivide := by
  refine ⟨readsAs_of_funct7 (by decide) (by decide) (by decide) decode_sll,
    readsAs_of_funct7 (by decide) (by decide) (by decide) decode_srl,
    readsAs_of_funct7 (by decide) (by decide) (by decide) decode_sra,
    fun rd rs1 rs2 s => ⟨?_, ?_, ?_⟩⟩
  · exact effect_of_writeResult (exec_sll rd rs1 rs2 s)
  · exact effect_of_writeResult (exec_srl rd rs1 rs2 s)
  · exact effect_of_writeResult (exec_sra rd rs1 rs2 s)

end Sys2Proof
end

section
/-! PROOFS. Exceptions (60_exceptions.md): the saved `pc` and the code of each exception, and the
obligation on what trap entry saves. -/

namespace Sys2Proof.Machine

/-! ### The saved pc (R292) -/

@[simp] theorem savedPc_environmentCall (m : Mode) (pc : Word) :
    (Exception.environmentCall m).savedPc pc = pc + 4 := rfl

@[simp] theorem savedPc_breakpoint (pc : Word) : Exception.breakpoint.savedPc pc = pc + 4 := rfl

theorem savedPc_of_ne {e : Exception} (hcall : ∀ m, e ≠ .environmentCall m) (hbreak : e ≠ .breakpoint)
    (pc : Word) : e.savedPc pc = pc := by
  cases e with
  | environmentCall m => exact absurd rfl (hcall m)
  | breakpoint => exact absurd rfl hbreak
  | _ => rfl

/-! ### The codes (R280, R293) -/

/-- The codes that occur: 10 is not among them. -/
theorem code_le_nine_or_eq_eleven (e : Exception) : e.code ≤ 9 ∨ e.code = 11 := by
  cases e with
  | environmentCall m => cases m <;> decide
  | _ => decide

/-- `mcause` is wide enough for every code. -/
theorem toNat_ofNat_code (e : Exception) : (BitVec.ofNat 32 e.code).toNat = e.code := by
  have hcode := code_le_nine_or_eq_eleven e
  rw [BitVec.toNat_ofNat, Nat.mod_eq_of_lt (by omega)]

end Sys2Proof.Machine

namespace Sys2Proof

open Sys2Proof.Machine

/-- Every exception has its row in the source's table, and the row gives its code. -/
theorem mem_exceptionCodes (e : Exception) : (e, BitVec.ofNat 32 e.code) ∈ exceptionCodes := by
  cases e with
  | environmentCall m => cases m <;> decide
  | _ => decide

/-! ### The obligation on what a trap saves -/

/-- Settles O39: a next state of `raise` is trap entry's, so each clause is about what trap entry writes
to one register, for the `mepc` clauses the saved `pc` by the kind of exception. -/
theorem trapSavesPcCauseAndInterruptEnable : Obligations.TrapSavesPcCauseAndInterruptEnable := by
  intro e info s t h
  obtain ⟨-, rfl⟩ := raise_next.mp h
  rw [trapEntry_mstatus, trapEntry_mepc, trapEntry_mcause]
  refine ⟨mpieOf_onTrap _ _, mieOf_onTrap _ _, trapEntry_mtvec e info s, trapEntry_pc e info s,
    ?ecall, ?ebreak, fun hcall hbreak => savedPc_of_ne hcall hbreak s.pc,
    toNat_ofNat_code e, code_le_nine_or_eq_eleven e, mem_exceptionCodes e⟩
  case ecall => rintro m rfl; exact savedPc_environmentCall m s.pc
  case ebreak => rintro rfl; exact savedPc_breakpoint s.pc

end Sys2Proof
end

section
/-! PROOFS. The decoder at the cells of the immediate shifts, loads, stores, branches, jumps, fences and
system instructions (R131 to R134), and a word put together again from its fields (R111 to R116). -/

namespace Sys2Proof

/-! ### The decoder, opcode by opcode (R130) -/

section
variable {w : Word}

theorem decode_of_store (hop : opcodeOf w = 0x23#7) : decode w = decodeStore w := by
  simp [decode, hop]

theorem decode_of_branch (hop : opcodeOf w = 0x63#7) : decode w = decodeBranch w := by
  simp [decode, hop]

theorem decode_of_fence (hop : opcodeOf w = 0x0F#7) : decode w = decodeFence w := by
  simp [decode, hop]

theorem decode_of_system (hop : opcodeOf w = 0x73#7) : decode w = decodeSystem w := by
  simp [decode, hop]

/-! ### The remaining cells -/

theorem decode_slli (hop : opcodeOf w = 0x13#7) (h3 : funct3Of w = 1#3) (h7 : funct7Of w = 0x00#7) :
    decode w = .ok (.slli (rdOf w) (rs1Of w) (rs2Of w)) := by
  simp [decode_of_opImm hop, decodeOpImm, h3, h7]

theorem decode_srli (hop : opcodeOf w = 0x13#7) (h3 : funct3Of w = 5#3) (h7 : funct7Of w = 0x00#7) :
    decode w = .ok (.srli (rdOf w) (rs1Of w) (rs2Of w)) := by
  simp [decode_of_opImm hop, decodeOpImm, h3, h7]

theorem decode_srai (hop : opcodeOf w = 0x13#7) (h3 : funct3Of w = 5#3) (h7 : funct7Of w = 0x20#7) :
    decode w = .ok (.srai (rdOf w) (rs1Of w) (rs2Of w)) := by
  simp [decode_of_opImm hop, decodeOpImm, h3, h7]

theorem decode_lh (hop : opcodeOf w = 0x03#7) (h3 : funct3Of w = 1#3) :
    decode w = .ok (.lh (rdOf w) (rs1Of w) (immIOf w)) := by
  simp [decode_of_load hop, decodeLoad, h3]

theorem decode_lw (hop : opcodeOf w = 0x03#7) (h3 : funct3Of w = 2#3) :
    decode w = .ok (.lw (rdOf w) (rs1Of w) (immIOf w)) := by
  simp [decode_of_load hop, decodeLoad, h3]

theorem decode_lhu (hop : opcodeOf w = 0x03#7) (h3 : funct3Of w = 5#3) :
    decode w = .ok (.lhu (rdOf w) (rs1Of w) (immIOf w)) := by
  simp [decode_of_load hop, decodeLoad, h3]

theorem decode_sb (hop : opcodeOf w = 0x23#7) (h3 : funct3Of w = 0#3) :
    decode w = .ok (.sb (rs1Of w) (rs2Of w) (immSOf w)) := by
  simp [decode_of_store hop, decodeStore, h3]

theorem decode_sh (hop : opcodeOf w = 0x23#7) (h3 : funct3Of w = 1#3) :
    decode w = .ok (.sh (rs1Of w) (rs2Of w) (immSOf w)) := by
  simp [decode_of_store hop, decodeStore, h3]

theorem decode_sw (hop : opcodeOf w = 0x23#7) (h3 : funct3Of w = 2#3) :
    decode w = .ok (.sw (rs1Of w) (rs2Of w) (immSOf w)) := by
  simp [decode_of_store hop, decodeStore, h3]

theorem decode_beq (hop : opcodeOf w = 0x63#7) (h3 : funct3Of w = 0#3) :
    decode w = .ok (.beq (rs1Of w) (rs2Of w) (immBOf w)) := by
  simp [decode_of_branch hop, decodeBranch, h3]

theorem decode_bne (hop : opcodeOf w = 0x63#7) (h3 : funct3Of w = 1#3) :
    decode w = .ok (.bne (rs1Of w) (rs2Of w) (immBOf w)) := by
  simp [decode_of_branch hop, decodeBranch, h3]

theorem decode_blt (hop : opcodeOf w = 0x63#7) (h3 : funct3Of w = 4#3) :
    decode w = .ok (.blt (rs1Of w) (rs2Of w) (immBOf w)) := by
  simp [decode_of_branch hop, decodeBranch, h3]

theorem decode_bge (hop : opcodeOf w = 0x63#7) (h3 : funct3Of w = 5#3) :
    decode w = .ok (.bge (rs1Of w) (rs2Of w) (immBOf w)) := by
  simp [decode_of_branch hop, decodeBranch, h3]

theorem decode_bltu (hop : opcodeOf w = 0x63#7) (h3 : funct3Of w = 6#3) :
    decode w = .ok (.bltu (rs1Of w) (rs2Of w) (immBOf w)) := by
  simp [decode_of_branch hop, decodeBranch, h3]

theorem decode_bgeu (hop : opcodeOf w = 0x63#7) (h3 : funct3Of w = 7#3) :
    decode w = .ok (.bgeu (rs1Of w) (rs2Of w) (immBOf w)) := by
  simp [decode_of_branch hop, decodeBranch, h3]

theorem decode_jal (hop : opcodeOf w = 0x6F#7) : decode w = .ok (.jal (rdOf w) (immJOf w)) := by
  simp [decode, hop]

theorem decode_jalr (hop : opcodeOf w = 0x67#7) (h3 : funct3Of w = 0#3) :
    decode w = .ok (.jalr (rdOf w) (rs1Of w) (immIOf w)) := by
  simp [decode, hop, h3]

theorem decode_fence (hop : opcodeOf w = 0x0F#7) (h3 : funct3Of w = 0#3) :
    decode w = .ok (.fence (predOf w) (succOf w)) := by
  simp [decode_of_fence hop, decodeFence, h3]

theorem decode_fencei (hop : opcodeOf w = 0x0F#7) (h3 : funct3Of w = 1#3) :
    decode w = .ok .fencei := by
  simp [decode_of_fence hop, decodeFence, h3]

theorem decode_csrrw (hop : opcodeOf w = 0x73#7) (h3 : funct3Of w = 1#3) :
    decode w = .ok (.csrrw (rdOf w) (immIOf w) (rs1Of w)) := by
  simp [decode_of_system hop, decodeSystem, h3]

theorem decode_csrrs (hop : opcodeOf w = 0x73#7) (h3 : funct3Of w = 2#3) :
    decode w = .ok (.csrrs (rdOf w) (immIOf w) (rs1Of w)) := by
  simp [decode_of_system hop, decodeSystem, h3]

theorem decode_csrrc (hop : opcodeOf w = 0x73#7) (h3 : funct3Of w = 3#3) :
    decode w = .ok (.csrrc (rdOf w) (immIOf w) (rs1Of w)) := by
  simp [decode_of_system hop, decodeSystem, h3]

theorem decode_csrrwi (hop : opcodeOf w = 0x73#7) (h3 : funct3Of w = 5#3) :
    decode w = .ok (.csrrwi (rdOf w) (immIOf w) (rs1Of w)) := by
  simp [decode_of_system hop, decodeSystem, h3]

theorem decode_csrrsi (hop : opcodeOf w = 0x73#7) (h3 : funct3Of w = 6#3) :
    decode w = .ok (.csrrsi (rdOf w) (immIOf w) (rs1Of w)) := by
  simp [decode_of_system hop, decodeSystem, h3]

theorem decode_csrrci (hop : opcodeOf w = 0x73#7) (h3 : funct3Of w = 7#3) :
    decode w = .ok (.csrrci (rdOf w) (immIOf w) (rs1Of w)) := by
  simp [decode_of_system hop, decodeSystem, h3]

end

/-- ECALL and EBREAK are whole words (R133, D5). -/
theorem decode_ecall : decode 0x00000073#32 = .ok .ecall := by decide

theorem decode_ebreak : decode 0x00100073#32 = .ok .ebreak := by decide

/-! ### A fence's sets (R127) -/

theorem getLsbD_predOf (w : Word) {k : Nat} (hk : k < 4) :
    (predOf w).getLsbD k = w.getLsbD (24 + k) := by
  simp [predOf, hk]

theorem getLsbD_succOf (w : Word) {k : Nat} (hk : k < 4) :
    (succOf w).getLsbD k = w.getLsbD (20 + k) := by
  simp [succOf, hk]

@[simp] theorem predOf_encodeI (op : BitVec 7) (f3 : BitVec 3) (rd rs1 : RegNum) (fm pred succ : BitVec 4) :
    predOf (encodeI op f3 rd rs1 (fm ++ pred ++ succ : BitVec 12)) = pred := by
  apply BitVec.eq_of_getLsbD_eq; intro i hi
  simp only [predOf, encodeI, BitVec.getLsbD_extractLsb', BitVec.getLsbD_append]
  interval_cases i <;> simp

@[simp] theorem succOf_encodeI (op : BitVec 7) (f3 : BitVec 3) (rd rs1 : RegNum) (fm pred succ : BitVec 4) :
    succOf (encodeI op f3 rd rs1 (fm ++ pred ++ succ : BitVec 12)) = succ := by
  apply BitVec.eq_of_getLsbD_eq; intro i hi
  simp only [succOf, encodeI, BitVec.getLsbD_extractLsb', BitVec.getLsbD_append]
  interval_cases i <;> simp

/-! ### A word is the encoding of its fields (R111 to R116) -/

section
variable {w : Word}

theorem encodeR_fields (hop : opcodeOf w = 0x33#7) :
    encodeR (funct7Of w) (funct3Of w) (rdOf w) (rs1Of w) (rs2Of w) = w := by
  rw [encodeR, ← hop]
  apply BitVec.eq_of_getLsbD_eq; intro i hi
  simp only [opcodeOf, funct3Of, funct7Of, rdOf, rs1Of, rs2Of, BitVec.getLsbD_append,
    BitVec.getLsbD_extractLsb']
  interval_cases i <;> simp

theorem encodeI_fields (w : Word) :
    encodeI (opcodeOf w) (funct3Of w) (rdOf w) (rs1Of w) (immIOf w) = w := by
  apply BitVec.eq_of_getLsbD_eq; intro i hi
  simp only [encodeI, opcodeOf, funct3Of, rdOf, rs1Of, immIOf, BitVec.getLsbD_append,
    BitVec.getLsbD_extractLsb']
  interval_cases i <;> simp

theorem encodeShift_fields (hop : opcodeOf w = 0x13#7) :
    encodeShift (funct7Of w) (funct3Of w) (rdOf w) (rs1Of w) (rs2Of w) = w := by
  rw [encodeShift, ← hop]
  apply BitVec.eq_of_getLsbD_eq; intro i hi
  simp only [opcodeOf, funct3Of, funct7Of, rdOf, rs1Of, rs2Of, BitVec.getLsbD_append,
    BitVec.getLsbD_extractLsb']
  interval_cases i <;> simp

theorem encodeS_fields (hop : opcodeOf w = 0x23#7) :
    encodeS (funct3Of w) (rs1Of w) (rs2Of w) (immSOf w) = w := by
  rw [encodeS, ← hop]
  apply BitVec.eq_of_getLsbD_eq; intro i hi
  simp only [opcodeOf, funct3Of, rs1Of, rs2Of, immSOf, BitVec.getLsbD_append,
    BitVec.getLsbD_extractLsb']
  interval_cases i <;> simp

theorem encodeB_fields (hop : opcodeOf w = 0x63#7) :
    encodeB (funct3Of w) (rs1Of w) (rs2Of w) (immBOf w) = w := by
  rw [encodeB, ← hop]
  apply BitVec.eq_of_getLsbD_eq; intro i hi
  simp only [opcodeOf, funct3Of, rs1Of, rs2Of, immBOf, BitVec.getLsbD_append,
    BitVec.getLsbD_extractLsb']
  interval_cases i <;> simp

theorem encodeU_fields (w : Word) : encodeU (opcodeOf w) (rdOf w) (immUOf w) = w := by
  apply BitVec.eq_of_getLsbD_eq; intro i hi
  simp only [encodeU, opcodeOf, rdOf, immUOf, BitVec.getLsbD_append, BitVec.getLsbD_extractLsb']
  interval_cases i <;> simp

theorem encodeJ_fields (hop : opcodeOf w = 0x6F#7) : encodeJ (rdOf w) (immJOf w) = w := by
  rw [encodeJ, ← hop]
  apply BitVec.eq_of_getLsbD_eq; intro i hi
  simp only [opcodeOf, rdOf, immJOf, BitVec.getLsbD_append, BitVec.getLsbD_extractLsb']
  interval_cases i <;> simp

end

end Sys2Proof
end

section
/-! PROOFS. Decoding and encoding undo each other (30_encoding.md R111 to R134; D1, D4, D5, D7), the
opcode table, and the words the spec writes out. -/

namespace Sys2Proof

/-! ### The encoding of an instruction decodes to it -/

/-- The displacement of a well-formed branch comes back whole. -/
theorem immBOf_encodeB_of_even (f3 : BitVec 3) (rs1 rs2 : RegNum) {offset : BitVec 13}
    (heven : (!offset.getLsbD 0) = true) : immBOf (encodeB f3 rs1 rs2 offset) = offset :=
  immBOf_encodeB f3 rs1 rs2 offset (Bool.not_eq_true' _ |>.mp heven)

/-- The displacement of a well-formed JAL comes back whole. -/
theorem immJOf_encodeJ_of_even (rd : RegNum) {offset : BitVec 21}
    (heven : (!offset.getLsbD 0) = true) : immJOf (encodeJ rd offset) = offset :=
  immJOf_encodeJ rd offset (Bool.not_eq_true' _ |>.mp heven)

/-- Format by format the fields of the encoded word are the operands, and they name its cell. -/
theorem decode_encode {i : Instr} (hwf : i.wellFormed = true) : decode (encode i) = .ok i := by
  cases i with
  | add => simp [encode, decode_add]
  | sub => simp [encode, decode_sub]
  | sll => simp [encode, decode_sll]
  | slt => simp [encode, decode_slt]
  | sltu => simp [encode, decode_sltu]
  | xor => simp [encode, decode_xor]
  | srl => simp [encode, decode_srl]
  | sra => simp [encode, decode_sra]
  | or => simp [encode, decode_or]
  | and => simp [encode, decode_and]
  | addi => simp [encode, decode_addi]
  | slti => simp [encode, decode_slti]
  | sltiu => simp [encode, decode_sltiu]
  | xori => simp [encode, decode_xori]
  | ori => simp [encode, decode_ori]
  | andi => simp [encode, decode_andi]
  | slli => simp [encode, decode_slli]
  | srli => simp [encode, decode_srli]
  | srai => simp [encode, decode_srai]
  | lb => simp [encode, decode_lb]
  | lh => simp [encode, decode_lh]
  | lw => simp [encode, decode_lw]
  | lbu => simp [encode, decode_lbu]
  | lhu => simp [encode, decode_lhu]
  | sb => simp [encode, decode_sb]
  | sh => simp [encode, decode_sh]
  | sw => simp [encode, decode_sw]
  | beq => simp [encode, decode_beq, immBOf_encodeB_of_even _ _ _ hwf]
  | bne => simp [encode, decode_bne, immBOf_encodeB_of_even _ _ _ hwf]
  | blt => simp [encode, decode_blt, immBOf_encodeB_of_even _ _ _ hwf]
  | bge => simp [encode, decode_bge, immBOf_encodeB_of_even _ _ _ hwf]
  | bltu => simp [encode, decode_bltu, immBOf_encodeB_of_even _ _ _ hwf]
  | bgeu => simp [encode, decode_bgeu, immBOf_encodeB_of_even _ _ _ hwf]
  | lui => simp [encode, decode_lui]
  | auipc => simp [encode, decode_auipc]
  | jal => simp [encode, decode_jal, immJOf_encodeJ_of_even _ hwf]
  | jalr => simp [encode, decode_jalr]
  | fence => simp [encode, decode_fence]
  | fencei => simp [encode, decode_fencei]
  | ecall => exact decode_ecall
  | ebreak => exact decode_ebreak
  | csrrw => simp [encode, decode_csrrw]
  | csrrs => simp [encode, decode_csrrs]
  | csrrc => simp [encode, decode_csrrc]
  | csrrwi => simp [encode, decode_csrrwi]
  | csrrsi => simp [encode, decode_csrrsi]
  | csrrci => simp [encode, decode_csrrci]

/-- The bytes of a word, read as an instruction, are the word decoded. -/
theorem decodeBytes_bytesOf {w : Word} {i : Instr} (rest : List Byte) (h : decode w = .ok i) :
    decodeBytes (bytesOf 4 w ++ rest) = .ok (i, rest) := by
  have hword : decode (ofBytes (bytesOf 4 w)) = .ok i := by rwa [Machine.ofBytes_bytesOf]
  simp only [Machine.bytesOf_four] at hword ⊢
  simp [decodeBytes, hword]

/-- Settles O1: the decoder finds the cell and the operands in the encoded word, and the word's four bytes
are the word. -/
theorem decodeInvertsEncode : Obligations.DecodeInvertsEncode :=
  fun _ rest hwf => decodeBytes_bytesOf rest (decode_encode hwf)

/-! ### A word that decodes is the encoding of what it decodes to

One lemma for each opcode with cells of its own: in each cell the fields named there and the operands are
all of the word. -/

section
variable {w : Word} {i : Instr}

theorem funct3_cases (f : BitVec 3) :
    f = 0#3 ∨ f = 1#3 ∨ f = 2#3 ∨ f = 3#3 ∨ f = 4#3 ∨ f = 5#3 ∨ f = 6#3 ∨ f = 7#3 := by
  revert f; decide

theorem encode_of_decodeOp (hop : opcodeOf w = 0x33#7) (h : decodeOp w = .ok i) :
    i.wellFormed = true ∧ encode i = w := by
  have hw := encodeR_fields hop
  rcases funct3_cases (funct3Of w) with h3 | h3 | h3 | h3 | h3 | h3 | h3 | h3
  all_goals
    by_cases h0 : funct7Of w = 0x00#7
    · simp [decodeOp, h0, h3] at h
      subst h
      exact ⟨rfl, by simpa [encode, h0, h3] using hw⟩
    · by_cases h20 : funct7Of w = 0x20#7
      all_goals simp [decodeOp, h0, h20, h3] at h
      all_goals
        subst h
        exact ⟨rfl, by simpa [encode, h20, h3] using hw⟩

theorem encode_of_decodeOpImm (hop : opcodeOf w = 0x13#7) (h : decodeOpImm w = .ok i) :
    i.wellFormed = true ∧ encode i = w := by
  have hI := encodeI_fields w
  have hS := encodeShift_fields hop
  rcases funct3_cases (funct3Of w) with h3 | h3 | h3 | h3 | h3 | h3 | h3 | h3
  case inr.inl =>
    by_cases h0 : funct7Of w = 0x00#7
    all_goals simp [decodeOpImm, h0, h3] at h
    subst h
    exact ⟨rfl, by simpa [encode, h0, h3] using hS⟩
  case inr.inr.inr.inr.inr.inl =>
    by_cases h0 : funct7Of w = 0x00#7
    · simp [decodeOpImm, h0, h3] at h
      subst h
      exact ⟨rfl, by simpa [encode, h0, h3] using hS⟩
    · by_cases h20 : funct7Of w = 0x20#7
      all_goals simp [decodeOpImm, h0, h20, h3] at h
      subst h
      exact ⟨rfl, by simpa [encode, h20, h3] using hS⟩
  all_goals
    simp [decodeOpImm, h3] at h
    subst h
    exact ⟨rfl, by simpa [encode, hop, h3] using hI⟩

theorem encode_of_decodeLoad (hop : opcodeOf w = 0x03#7) (h : decodeLoad w = .ok i) :
    i.wellFormed = true ∧ encode i = w := by
  have hw := encodeI_fields w
  rcases funct3_cases (funct3Of w) with h3 | h3 | h3 | h3 | h3 | h3 | h3 | h3
  all_goals simp [decodeLoad, h3] at h
  all_goals
    subst h
    exact ⟨rfl, by simpa [encode, hop, h3] using hw⟩

theorem encode_of_decodeStore (hop : opcodeOf w = 0x23#7) (h : decodeStore w = .ok i) :
    i.wellFormed = true ∧ encode i = w := by
  have hw := encodeS_fields hop
  rcases funct3_cases (funct3Of w) with h3 | h3 | h3 | h3 | h3 | h3 | h3 | h3
  all_goals simp [decodeStore, h3] at h
  all_goals
    subst h
    exact ⟨rfl, by simpa [encode, h3] using hw⟩

theorem encode_of_decodeBranch (hop : opcodeOf w = 0x63#7) (h : decodeBranch w = .ok i) :
    i.wellFormed = true ∧ encode i = w := by
  have hw := encodeB_fields hop
  obtain ⟨-, -, -, -, heven⟩ := immBOf_bits w
  rcases funct3_cases (funct3Of w) with h3 | h3 | h3 | h3 | h3 | h3 | h3 | h3
  all_goals simp [decodeBranch, h3] at h
  all_goals
    subst h
    exact ⟨by simp only [Instr.wellFormed, heven, Bool.not_false], by simpa [encode, h3] using hw⟩

theorem encode_of_decodeSystem (hop : opcodeOf w = 0x73#7) (h : decodeSystem w = .ok i) :
    i.wellFormed = true ∧ encode i = w := by
  have hw := encodeI_fields w
  rcases funct3_cases (funct3Of w) with h3 | h3 | h3 | h3 | h3 | h3 | h3 | h3
  case inl =>
    simp [decodeSystem, h3] at h
    split_ifs at h with hecall hebreak
    · cases h; exact ⟨rfl, hecall.symm⟩
    · cases h; exact ⟨rfl, hebreak.symm⟩
  all_goals simp [decodeSystem, h3] at h
  all_goals
    subst h
    exact ⟨rfl, by simpa [encode, hop, h3] using hw⟩

/-- The opcode of a word that decodes is one of the eleven (R130). -/
theorem opcode_of_decode (h : decode w = .ok i) :
    opcodeOf w = 0x37#7 ∨ opcodeOf w = 0x17#7 ∨ opcodeOf w = 0x6F#7 ∨ opcodeOf w = 0x67#7 ∨
      opcodeOf w = 0x63#7 ∨ opcodeOf w = 0x03#7 ∨ opcodeOf w = 0x23#7 ∨ opcodeOf w = 0x13#7 ∨
      opcodeOf w = 0x33#7 ∨ opcodeOf w = 0x0F#7 ∨ opcodeOf w = 0x73#7 := by
  by_contra hnone
  simp only [not_or] at hnone
  obtain ⟨hlui, hauipc, hjal, hjalr, hbranch, hload, hstore, hopImm, hop, hfence, hsystem⟩ := hnone
  simp [decode, hlui, hauipc, hjal, hjalr, hbranch, hload, hstore, hopImm, hop, hfence, hsystem] at h

/-- A word decodes to one instruction. -/
theorem eq_of_decode {j : Instr} (hj : decode w = .ok j) (h : decode w = .ok i) : i = j :=
  Except.ok.inj (h.symm.trans hj)

/-- Opcode 0x67 has one cell. -/
theorem funct3_of_decode_jalr (hop : opcodeOf w = 0x67#7) (h : decode w = .ok i) :
    funct3Of w = 0#3 := by
  by_contra h3
  simp [decode, hop, h3] at h

/-- Outside opcode 0x0F the operands and the cell are all of the word. -/
theorem encode_of_decode (hne : opcodeOf w ≠ 0x0F#7) (h : decode w = .ok i) :
    i.wellFormed = true ∧ encode i = w := by
  rcases opcode_of_decode h with hop | hop | hop | hop | hop | hop | hop | hop | hop | hop | hop
  · have hw := encodeU_fields w
    rw [hop] at hw
    exact eq_of_decode (decode_lui hop) h ▸ ⟨rfl, hw⟩
  · have hw := encodeU_fields w
    rw [hop] at hw
    exact eq_of_decode (decode_auipc hop) h ▸ ⟨rfl, hw⟩
  · obtain ⟨-, -, -, -, heven⟩ := immJOf_bits w
    have hwf : (Instr.jal (rdOf w) (immJOf w)).wellFormed = true := by
      simp only [Instr.wellFormed, heven, Bool.not_false]
    exact eq_of_decode (decode_jal hop) h ▸ ⟨hwf, encodeJ_fields hop⟩
  · have h3 := funct3_of_decode_jalr hop h
    have hw := encodeI_fields w
    rw [hop, h3] at hw
    exact eq_of_decode (decode_jalr hop h3) h ▸ ⟨rfl, hw⟩
  · exact encode_of_decodeBranch hop (decode_of_branch hop ▸ h)
  · exact encode_of_decodeLoad hop (decode_of_load hop ▸ h)
  · exact encode_of_decodeStore hop (decode_of_store hop ▸ h)
  · exact encode_of_decodeOpImm hop (decode_of_opImm hop ▸ h)
  · exact encode_of_decodeOp hop (decode_of_op hop ▸ h)
  · exact absurd hop hne
  · exact encode_of_decodeSystem hop (decode_of_system hop ▸ h)

/-- The mask of FENCE keeps `pred`, `succ` and the cell (R127, D7). -/
theorem encodeI_fenceSets (w : Word) :
    encodeI (opcodeOf w) (funct3Of w) 0 0 (0#4 ++ predOf w ++ succOf w : BitVec 12) =
      w &&& 0x0FF0707F#32 := by
  apply BitVec.eq_of_getLsbD_eq; intro i hi
  simp only [encodeI, opcodeOf, funct3Of, predOf, succOf, BitVec.getLsbD_append,
    BitVec.getLsbD_extractLsb', BitVec.getLsbD_and]
  interval_cases i <;> simp

/-- The mask of FENCEI keeps the cell alone. -/
theorem encodeI_cell (w : Word) :
    encodeI (opcodeOf w) (funct3Of w) 0 0 0 = w &&& 0x0000707F#32 := by
  apply BitVec.eq_of_getLsbD_eq; intro i hi
  simp only [encodeI, opcodeOf, funct3Of, BitVec.getLsbD_append, BitVec.getLsbD_extractLsb',
    BitVec.getLsbD_and]
  interval_cases i <;> simp

/-- At opcode 0x0F the bits kept are those of the funct3's mask. -/
theorem encode_of_decodeFence (hop : opcodeOf w = 0x0F#7) (h : decodeFence w = .ok i) :
    i.wellFormed = true ∧
      encode i = if funct3Of w = 0#3 then w &&& 0x0FF0707F#32 else w &&& 0x0000707F#32 := by
  simp only [decodeFence] at h
  split_ifs at h with h0 h1
  · cases h
    refine ⟨rfl, (if_pos h0).symm ▸ ?_⟩
    rw [← encodeI_fenceSets, hop, h0]
    rfl
  · cases h
    refine ⟨rfl, (if_neg h0).symm ▸ ?_⟩
    rw [← encodeI_cell, hop, h1]
    rfl

end

/-- Settles O2: only opcode 0x0F has bits that are no operand and no part of the cell. -/
theorem encodeInvertsDecode : Obligations.EncodeInvertsDecode := by
  intro w i h
  by_cases hop : opcodeOf w = 0x0F#7
  · rw [if_pos hop]
    exact encode_of_decodeFence hop (decode_of_fence hop ▸ h)
  · rw [if_neg hop]
    exact encode_of_decode hop h

end Sys2Proof
end

section
/-! PROOFS. The opcode table (spec/opcode_table.json; 30_encoding.md R130 to R133): each row's words and
no others decode to the row's instruction; and the words the spec writes out. -/

namespace Sys2Proof

/-! ### A word of a row decodes to the row's instruction -/

/-- A row that fixes the whole word. -/
theorem readsAs_of_word {pattern : Word} {i : Instr} (h : decode pattern = .ok i) :
    ReadsAs pattern 0xFFFFFFFF fun _ => i := by
  intro w hw
  have hmask : w &&& 0xFFFFFFFF#32 = w := BitVec.and_allOnes
  have hpattern : w = pattern := hmask.symm.trans hw
  rwa [hpattern]

/-- The row's words decode, and the mnemonic is the row's. -/
def OpcodeRow.Decodes (row : OpcodeRow) : Prop :=
  ∃ build, ReadsAs row.pattern row.mask build ∧ ∀ w, (build w).mnemonic = row.mnemonic

section
variable {name : String} {pattern : Word} {build : Word → Instr} {op : BitVec 7} {f3 : BitVec 3}
  {f7 : BitVec 7}

theorem decodes_of_opcode (hrow : ∀ {w}, opcodeOf w = op → decode w = .ok (build w))
    (hop : opcodeOf pattern = op := by decide)
    (hname : ∀ w, (build w).mnemonic = name := by exact fun _ => rfl) :
    OpcodeRow.Decodes ⟨name, pattern, 0x0000007F⟩ :=
  ⟨build, readsAs_of_opcode hop hrow, hname⟩

theorem decodes_of_funct3
    (hrow : ∀ {w}, opcodeOf w = op → funct3Of w = f3 → decode w = .ok (build w))
    (hop : opcodeOf pattern = op := by decide) (h3 : funct3Of pattern = f3 := by decide)
    (hname : ∀ w, (build w).mnemonic = name := by exact fun _ => rfl) :
    OpcodeRow.Decodes ⟨name, pattern, 0x0000707F⟩ :=
  ⟨build, readsAs_of_funct3 hop h3 hrow, hname⟩

theorem decodes_of_funct7
    (hrow : ∀ {w}, opcodeOf w = op → funct3Of w = f3 → funct7Of w = f7 → decode w = .ok (build w))
    (hop : opcodeOf pattern = op := by decide) (h3 : funct3Of pattern = f3 := by decide)
    (h7 : funct7Of pattern = f7 := by decide)
    (hname : ∀ w, (build w).mnemonic = name := by exact fun _ => rfl) :
    OpcodeRow.Decodes ⟨name, pattern, 0xFE00707F⟩ :=
  ⟨build, readsAs_of_funct7 hop h3 h7 hrow, hname⟩

theorem decodes_of_word {i : Instr} (hrow : decode pattern = .ok i)
    (hname : i.mnemonic = name := by rfl) : OpcodeRow.Decodes ⟨name, pattern, 0xFFFFFFFF⟩ :=
  ⟨_, readsAs_of_word hrow, fun _ => hname⟩

end

/-- Row by row, in the table's order. -/
theorem opcodeTable_decodes : ∀ row ∈ opcodeTable, row.Decodes := by
  simp only [opcodeTable, List.forall_mem_cons]
  exact ⟨decodes_of_funct7 decode_add, decodes_of_funct7 decode_sub, decodes_of_funct7 decode_sll,
    decodes_of_funct7 decode_slt, decodes_of_funct7 decode_sltu, decodes_of_funct7 decode_xor,
    decodes_of_funct7 decode_srl, decodes_of_funct7 decode_sra, decodes_of_funct7 decode_or,
    decodes_of_funct7 decode_and, decodes_of_funct3 decode_addi, decodes_of_funct3 decode_slti,
    decodes_of_funct3 decode_sltiu, decodes_of_funct3 decode_xori, decodes_of_funct3 decode_ori,
    decodes_of_funct3 decode_andi, decodes_of_funct7 decode_slli, decodes_of_funct7 decode_srli,
    decodes_of_funct7 decode_srai, decodes_of_funct3 decode_lb, decodes_of_funct3 decode_lh,
    decodes_of_funct3 decode_lw, decodes_of_funct3 decode_lbu, decodes_of_funct3 decode_lhu,
    decodes_of_funct3 decode_sb, decodes_of_funct3 decode_sh, decodes_of_funct3 decode_sw,
    decodes_of_funct3 decode_beq, decodes_of_funct3 decode_bne, decodes_of_funct3 decode_blt,
    decodes_of_funct3 decode_bge, decodes_of_funct3 decode_bltu, decodes_of_funct3 decode_bgeu,
    decodes_of_opcode decode_lui, decodes_of_opcode decode_auipc, decodes_of_opcode decode_jal,
    decodes_of_funct3 decode_jalr, decodes_of_funct3 decode_fence, decodes_of_funct3 decode_fencei,
    decodes_of_word decode_ecall, decodes_of_word decode_ebreak, decodes_of_funct3 decode_csrrw,
    decodes_of_funct3 decode_csrrs, decodes_of_funct3 decode_csrrc, decodes_of_funct3 decode_csrrwi,
    decodes_of_funct3 decode_csrrsi, decodes_of_funct3 decode_csrrci, List.forall_mem_nil _⟩

/-! ### What a word decodes to names the row it fits -/

/-- The mask of a row keeps the fields that name its cell. -/
theorem and_opcodeMask (w : Word) : w &&& 0x0000007F#32 = (0#25 ++ opcodeOf w : BitVec 32) := by
  apply BitVec.eq_of_getLsbD_eq; intro i hi
  simp only [opcodeOf, BitVec.getLsbD_append, BitVec.getLsbD_extractLsb', BitVec.getLsbD_and]
  interval_cases i <;> simp

theorem and_funct3Mask (w : Word) :
    w &&& 0x0000707F#32 = (0#17 ++ funct3Of w ++ 0#5 ++ opcodeOf w : BitVec 32) := by
  apply BitVec.eq_of_getLsbD_eq; intro i hi
  simp only [opcodeOf, funct3Of, BitVec.getLsbD_append, BitVec.getLsbD_extractLsb',
    BitVec.getLsbD_and]
  interval_cases i <;> simp

theorem and_funct7Mask (w : Word) :
    w &&& 0xFE00707F#32 =
      (funct7Of w ++ 0#10 ++ funct3Of w ++ 0#5 ++ opcodeOf w : BitVec 32) := by
  apply BitVec.eq_of_getLsbD_eq; intro i hi
  simp only [opcodeOf, funct3Of, funct7Of, BitVec.getLsbD_append, BitVec.getLsbD_extractLsb',
    BitVec.getLsbD_and]
  interval_cases i <;> simp

/-- The encoding fits the row at the constructor's place: `Instr` and the table have one order. -/
theorem encode_fits (i : Instr) :
    ∃ row, opcodeTable[i.ctorIdx]? = some row ∧ row.mnemonic = i.mnemonic ∧
      encode i &&& row.mask = row.pattern := by
  have fitsR (f7 f3 rd rs1 rs2) : encodeR f7 f3 rd rs1 rs2 &&& 0xFE00707F#32 =
      (f7 ++ 0#10 ++ f3 ++ 0#5 ++ 0x33#7 : BitVec 32) := by
    rw [and_funct7Mask, funct7Of_encodeR, funct3Of_encodeR, opcodeOf_encodeR]
  have fitsShift (f7 f3 rd rs1 shamt) : encodeShift f7 f3 rd rs1 shamt &&& 0xFE00707F#32 =
      (f7 ++ 0#10 ++ f3 ++ 0#5 ++ 0x13#7 : BitVec 32) := by
    rw [and_funct7Mask, funct7Of_encodeShift, funct3Of_encodeShift, opcodeOf_encodeShift]
  have fitsI (op f3 rd rs1 imm) : encodeI op f3 rd rs1 imm &&& 0x0000707F#32 =
      (0#17 ++ f3 ++ 0#5 ++ op : BitVec 32) := by
    rw [and_funct3Mask, funct3Of_encodeI, opcodeOf_encodeI]
  have fitsS (f3 rs1 rs2 imm) : encodeS f3 rs1 rs2 imm &&& 0x0000707F#32 =
      (0#17 ++ f3 ++ 0#5 ++ 0x23#7 : BitVec 32) := by
    rw [and_funct3Mask, funct3Of_encodeS, opcodeOf_encodeS]
  have fitsB (f3 rs1 rs2 offset) : encodeB f3 rs1 rs2 offset &&& 0x0000707F#32 =
      (0#17 ++ f3 ++ 0#5 ++ 0x63#7 : BitVec 32) := by
    rw [and_funct3Mask, funct3Of_encodeB, opcodeOf_encodeB]
  have fitsU (op rd imm20) : encodeU op rd imm20 &&& 0x0000007F#32 =
      (0#25 ++ op : BitVec 32) := by
    rw [and_opcodeMask, opcodeOf_encodeU]
  have fitsJ (rd offset) : encodeJ rd offset &&& 0x0000007F#32 =
      (0#25 ++ 0x6F#7 : BitVec 32) := by
    rw [and_opcodeMask, opcodeOf_encodeJ]
  cases i with
  | add | sub | sll | slt | sltu | xor | srl | sra | or | and =>
    exact ⟨_, rfl, rfl, fitsR _ _ _ _ _⟩
  | slli | srli | srai => exact ⟨_, rfl, rfl, fitsShift _ _ _ _ _⟩
  | sb | sh | sw => exact ⟨_, rfl, rfl, fitsS _ _ _ _⟩
  | beq | bne | blt | bge | bltu | bgeu => exact ⟨_, rfl, rfl, fitsB _ _ _ _⟩
  | lui | auipc => exact ⟨_, rfl, rfl, fitsU _ _ _⟩
  | jal => exact ⟨_, rfl, rfl, fitsJ _ _⟩
  | ecall | ebreak => exact ⟨_, rfl, rfl, by decide⟩
  | addi | slti | sltiu | xori | ori | andi | lb | lh | lw | lbu | lhu | jalr | fence | fencei
  | csrrw | csrrs | csrrc | csrrwi | csrrsi | csrrci => exact ⟨_, rfl, rfl, fitsI _ _ _ _ _⟩

theorem opcodeTable_mnemonics_nodup : (opcodeTable.map OpcodeRow.mnemonic).Nodup := by decide

/-- The row of an instruction's mnemonic, of which there is only one, stands at its place. -/
theorem row_at_ctorIdx {i : Instr} {row : OpcodeRow} (hrow : row ∈ opcodeTable)
    (hname : i.mnemonic = row.mnemonic) : opcodeTable[i.ctorIdx]? = some row := by
  obtain ⟨row', hrow', hname', -⟩ := encode_fits i
  have heq : row' = row := List.inj_on_of_nodup_map opcodeTable_mnemonics_nodup
    (List.mem_of_getElem? hrow') hrow (hname'.trans hname)
  exact heq ▸ hrow'

/-- Outside opcode 0x0F the word is the encoding; the two fence rows keep the cell's fields alone. -/
theorem word_fits_of_mnemonic {w : Word} {i : Instr} {row : OpcodeRow} (hrow : row ∈ opcodeTable)
    (h : decode w = .ok i) (hname : i.mnemonic = row.mnemonic) : w &&& row.mask = row.pattern := by
  have hplace := row_at_ctorIdx hrow hname
  by_cases hop : opcodeOf w = 0x0F#7
  · rw [decode_of_fence hop] at h
    simp only [decodeFence] at h
    split_ifs at h with h0 h1
    · cases h
      obtain rfl := Option.some.inj hplace
      exact (and_funct3Mask w).trans (by rw [hop, h0]; rfl)
    · cases h
      obtain rfl := Option.some.inj hplace
      exact (and_funct3Mask w).trans (by rw [hop, h1]; rfl)
  · obtain ⟨-, hw⟩ := encode_of_decode hop h
    obtain ⟨row', hplace', -, hfits⟩ := encode_fits i
    rw [hplace] at hplace'
    rwa [← Option.some.inj hplace', hw] at hfits

/-- Settles O3: a row's fields fix the cell of the decoder; and the cell an instruction comes from gives
the word the row's fields. -/
theorem decodeMatchesOpcodeTable : Obligations.DecodeMatchesOpcodeTable := by
  intro row hrow w
  constructor
  · intro hw
    obtain ⟨build, hreads, hname⟩ := opcodeTable_decodes row hrow
    exact ⟨build w, hreads w hw, hname w⟩
  · rintro ⟨i, h, hname⟩
    exact word_fits_of_mnemonic hrow h hname

/-! ### The words of the spec's examples -/

/-- Settles O4: each word evaluates to the instruction it stands for. -/
theorem specWordsDecode : Obligations.SpecWordsDecode := by
  unfold Obligations.SpecWordsDecode
  decide

end Sys2Proof
end

section
/-! PROOFS. The CSRs (10_state.md R40 to R66; 47_system.md R251 to R272): what the access check refuses,
what a counter's read changes, and the whole effect of the six CSR instructions. -/

namespace Sys2Proof.Machine

/-! ### Addresses and the inventory (R40, R43) -/

theorem csrAt_eq_some_iff {a : CsrNum} {c : Csr} : csrAt a = some c ↔ c.address = a :=
  ⟨address_of_csrAt, fun h => h ▸ csrAt_address c⟩

theorem csrAt_eq_none_iff {a : CsrNum} : csrAt a = none ↔ ∀ c : Csr, c.address ≠ a := by
  simp only [Option.eq_none_iff_forall_ne_some, ne_eq, csrAt_eq_some_iff]

/-- `minstret` is the CSR at address 0xB02. -/
theorem eq_minstret_iff {a : CsrNum} {c : Csr} (h : c.address = a) : c = .minstret ↔ a = 0xB02 := by
  subst h
  constructor
  · rintro rfl; rfl
  · intro ha
    exact Option.some.inj ((csrAt_address c).symm.trans (congrArg csrAt ha))

/-- Each CSR has its row in the inventory, and the row's storage is what it reads. -/
theorem mem_csrInventory (c : Csr) (s : State) : (c.address, c, csrRead c s) ∈ csrInventory s := by
  cases c <;> simp [csrInventory, Csr.address, csrRead]

/-- The inventory's addresses are those of the CSRs. -/
theorem mem_inventory_addresses {a : CsrNum} {s : State} :
    a ∈ (csrInventory s).map (fun row => row.1) ↔ ∃ c : Csr, c.address = a := by
  constructor
  · intro h
    have haddresses : (csrInventory s).map (fun row => row.1) = allCsrs.map Csr.address := rfl
    rw [haddresses, List.mem_map] at h
    obtain ⟨c, -, hc⟩ := h
    exact ⟨c, hc⟩
  · rintro ⟨c, rfl⟩
    exact List.mem_map.mpr ⟨_, mem_csrInventory c s, rfl⟩

/-! ### The access check, clause by clause (R42) -/

theorem toNat_csrLevel (a : CsrNum) : (csrLevel a).toNat = a.toNat / 256 % 4 := by
  simp [csrLevel, Nat.shiftRight_eq_div_pow]

theorem csrReadOnly_iff (a : CsrNum) : csrReadOnly a = true ↔ a.toNat / 1024 = 3 := by
  have hlt : a.toNat / 1024 < 4 := by have := a.isLt; omega
  rw [csrReadOnly, beq_iff_eq, ← BitVec.toNat_inj]
  simp [Nat.shiftRight_eq_div_pow, Nat.mod_eq_of_lt hlt]

/-- The gate of `mcounteren` closes on the four user counters alone, by their addresses. -/
theorem counterOpen_eq_false_iff {c : Csr} {a : CsrNum} (h : c.address = a) (s : State) :
    counterOpen c s = false ↔
      (s.priv ≠ .machine ∧ (a = 0xC00 ∨ a = 0xC80) ∧ s.csr.mcounteren.getLsbD 0 = false) ∨
      (s.priv ≠ .machine ∧ (a = 0xC02 ∨ a = 0xC82) ∧ s.csr.mcounteren.getLsbD 2 = false) := by
  subst h
  cases c <;> simp [counterOpen, Csr.address, cycleEnabled, instretEnabled]

/-- The check at the address of a CSR. -/
theorem csrCheck_address_eq_none_iff {c : Csr} {a : CsrNum} (h : c.address = a) (w : Bool) (s : State) :
    csrCheck a w s = none ↔
      s.priv.enc < csrLevel a ∨ (w && csrReadOnly a) = true ∨ counterOpen c s = false := by
  rw [csrCheck, csrAt_eq_some_iff.mpr h]
  simp only
  split_ifs <;> simp_all

/-- The check at an address that is none of the 38. -/
theorem csrCheck_of_no_csr {a : CsrNum} (h : ∀ c : Csr, c.address ≠ a) (w : Bool) (s : State) :
    csrCheck a w s = none := by
  rw [csrCheck, csrAt_eq_none_iff.mpr h]

/-! ### What a counter's read changes (R55, R57, R59; D21, D22) -/

@[simp] theorem csrObserve_misa (c : Csr) (s : State) : (csrObserve c s).csr.misa = s.csr.misa := by
  cases c <;> rfl

/-- The three counters that free-run in 64 bits are one. -/
theorem csrObserve_cycle (c : Csr) (s : State) :
    (csrObserve c s).cycle = if c = .mcycle ∨ c = .ucycle ∨ c = .ucycleh
      then s.cycle + Config.cycleAdvance s.draws else s.cycle := by
  cases c <;> rfl

theorem csrObserve_mhpmcounter3 (c : Csr) (s : State) :
    (csrObserve c s).csr.mhpmcounter3 = if c = .mhpmcounter3
      then s.csr.mhpmcounter3 + Config.hpmAdvance 3 s.draws else s.csr.mhpmcounter3 := by
  cases c <;> rfl

theorem csrObserve_mhpmcounter4 (c : Csr) (s : State) :
    (csrObserve c s).csr.mhpmcounter4 = if c = .mhpmcounter4
      then s.csr.mhpmcounter4 + Config.hpmAdvance 4 s.draws else s.csr.mhpmcounter4 := by
  cases c <;> rfl

theorem csrObserve_mhpmcounter5 (c : Csr) (s : State) :
    (csrObserve c s).csr.mhpmcounter5 = if c = .mhpmcounter5
      then s.csr.mhpmcounter5 + Config.hpmAdvance 5 s.draws else s.csr.mhpmcounter5 := by
  cases c <;> rfl

/-- A read brings no CSR with storage up to date but the one read. -/
theorem csrRead_csrObserve_of_ne {c d : Csr} (s : State) (hd : d.isCounterView = false) (hne : d ≠ c) :
    csrRead d (csrObserve c s) = csrRead d s := by
  cases c with
  | mhpmcounter3 =>
    cases d with
    | mhpmcounter3 => exact absurd rfl hne
    | _ => rfl
  | mhpmcounter4 =>
    cases d with
    | mhpmcounter4 => exact absurd rfl hne
    | _ => rfl
  | mhpmcounter5 =>
    cases d with
    | mhpmcounter5 => exact absurd rfl hne
    | _ => rfl
  | _ => exact csrRead_congr d hd rfl

/-- The CSRs whose read meets a free value. -/
def freeRunning : List Csr :=
  [.mcycle, .ucycle, .ucycleh, .mhpmcounter3, .mhpmcounter4, .mhpmcounter5]

theorem csrObserve_draws (c : Csr) (s : State) :
    (csrObserve c s).draws = if c ∈ freeRunning then s.draws + 1 else s.draws := by
  cases c <;> rfl

theorem csrObserve_of_not_freeRunning {c : Csr} (s : State) (h : c ∉ freeRunning) :
    csrObserve c s = s := by
  cases c with
  | mcycle | ucycle | ucycleh | mhpmcounter3 | mhpmcounter4 | mhpmcounter5 => exact absurd (by decide) h
  | _ => rfl

/-! ### All that a CSR instruction leaves (R251) -/

section
variable (c : Csr) (rd : RegNum) (w : Bool) (f : Word → Word) (s : State)

theorem getX_csrAfter (r : RegNum) : (csrAfter c rd w f s).getX r =
    if r = 0#5 then 0 else if r = rd then csrRead c (csrObserve c s) else s.getX r := by
  unfold csrAfter
  cases w <;> by_cases hc : c = .minstret <;> simp [hc, getX_setX]

theorem csrAfter_draws : (csrAfter c rd w f s).draws = (csrObserve c s).draws := by
  unfold csrAfter
  cases w <;> by_cases hc : c = .minstret <;> simp [hc]

theorem csrAfter_cycle : (csrAfter c rd w f s).cycle =
    (if w then csrWrite c (f (csrRead c (csrObserve c s))) (csrObserve c s)
      else csrObserve c s).cycle := by
  unfold csrAfter
  cases w <;> by_cases hc : c = .minstret <;> simp [hc]

/-- A CSR with storage reads the value written, if it is the one written and not `misa`, and else what it
read once the counter was up to date. -/
theorem csrRead_csrAfter {d : Csr} (hd : d.isCounterView = false) :
    csrRead d (csrAfter c rd w f s) =
      if w = true ∧ d = c ∧ c ≠ .misa then f (csrRead c (csrObserve c s))
      else csrRead d (csrObserve c s) := by
  rw [csrRead_congr d hd (csrAfter_csr c rd w f s)]
  cases w with
  | false => simp
  | true => simp [csrRead_csrWrite c d _ _ hd]

/-- What a CSR instruction writes to its CSR, if it writes. -/
def csrWritten : Option Word :=
  if w then some (f (csrRead c (csrObserve c s))) else none

/-- The two halves of a counter are the counter. -/
theorem append_halves (v : BitVec 64) :
    (v.extractLsb' 32 32 ++ v.extractLsb' 0 32 : BitVec 64) = v := by
  apply BitVec.eq_of_getLsbD_eq; intro i hi
  simp only [BitVec.getLsbD_append, BitVec.getLsbD_extractLsb']
  by_cases hlow : i < 32
  · simp [hlow]
  · have hplace : 32 + (i - 32) = i := by omega
    have hhigh : i - 32 < 32 := by omega
    simp [hlow, hplace, hhigh]

theorem csrEffect_csrAfter : CsrEffect s (csrAfter c rd w f s) c rd (csrWritten c w f s) := by
  refine ⟨getX_csrAfter c rd w f s, csrAfter_pc c rd w f s, fun d hd => ?storage, ?cycle, ?instret,
    fun a => by rw [csrAfter_mem], csrAfter_stale c rd w f s, csrAfter_priv c rd w f s,
    csrAfter_denied c rd w f s, csrAfter_draws c rd w f s⟩
  case storage =>
    rw [csrRead_csrAfter c rd w f s hd]
    cases w with
    | false => simp [csrWritten]
    | true => simp [csrWritten]
  case cycle =>
    rw [csrAfter_cycle]
    cases w with
    | false =>
      by_cases hc : c = .mcycle
      · subst hc; simp [csrWritten, csrRead, append_halves]
      · simp [hc]
    | true => simp [csrWritten, csrWrite_cycle]
  case instret =>
    rw [csrAfter_instret]
    cases w with
    | false => simp [csrWritten]
    | true =>
      by_cases hc : c = .minstret
      · subst hc; simp [csrWritten, csrRead]
      · simp [hc]

end

section
variable {word : Word} {rd : RegNum} {a : CsrNum} {w : Bool} {f : Word → Word} {s : State} {i : Instr}

theorem csrAccess_of_allowed {c : Csr} (h : csrCheck a w s = some c) :
    csrAccess word rd a w f s = .next (csrAfter c rd w f s) := by
  rw [csrAccess, h]
  exact csrCommit_eq c rd w f s

theorem csrAccess_of_refused (h : csrCheck a w s = none) :
    csrAccess word rd a w f s = raise .illegalInstruction word s := by
  rw [csrAccess, h]

/-- An instruction whose meaning is one CSR access that is allowed has the effect of that access. -/
theorem effect_of_csrAccess {c : Csr} (hexec : exec i s = csrAccess word rd a w f s)
    (h : csrCheck a w s = some c) :
    ∃ t, exec i s = .next t ∧ CsrEffect s t c rd (csrWritten c w f s) :=
  ⟨_, hexec.trans (csrAccess_of_allowed h), csrEffect_csrAfter c rd w f s⟩

/-- The same for an instruction that writes unless its operand field is 0 (R262). -/
theorem effect_of_csrAccess_field {c : Csr} {field : BitVec 5}
    (hexec : exec i s = csrAccess word rd a (field != 0#5) f s)
    (h : csrCheck a (field != 0#5) s = some c) :
    ∃ t, exec i s = .next t ∧ CsrEffect s t c rd
      (if field = 0#5 then none else some (f (csrRead c (csrObserve c s)))) := by
  have hwritten : csrWritten c (field != 0#5) f s =
      if field = 0#5 then none else some (f (csrRead c (csrObserve c s))) := by
    by_cases hfield : field = 0#5 <;> simp [csrWritten, hfield]
  exact hwritten ▸ effect_of_csrAccess hexec h

end

section
variable (rd rs1 : RegNum) (a : CsrNum) (uimm : BitVec 5) (s : State)

theorem exec_csrrw : exec (.csrrw rd a rs1) s =
    csrAccess (encode (.csrrw rd a rs1)) rd a true (fun _ => s.getX rs1) s := rfl

theorem exec_csrrs : exec (.csrrs rd a rs1) s =
    csrAccess (encode (.csrrs rd a rs1)) rd a (rs1 != 0#5) (fun old => old ||| s.getX rs1) s := rfl

theorem exec_csrrc : exec (.csrrc rd a rs1) s =
    csrAccess (encode (.csrrc rd a rs1)) rd a (rs1 != 0#5) (fun old => old &&& ~~~ s.getX rs1) s := rfl

theorem exec_csrrwi : exec (.csrrwi rd a uimm) s =
    csrAccess (encode (.csrrwi rd a uimm)) rd a true (fun _ => uimm.setWidth 32) s := rfl

theorem exec_csrrsi : exec (.csrrsi rd a uimm) s =
    csrAccess (encode (.csrrsi rd a uimm)) rd a (uimm != 0#5) (fun old => old ||| uimm.setWidth 32) s :=
  rfl

theorem exec_csrrci : exec (.csrrci rd a uimm) s =
    csrAccess (encode (.csrrci rd a uimm)) rd a (uimm != 0#5)
      (fun old => old &&& ~~~ uimm.setWidth 32) s := rfl

end

end Sys2Proof.Machine

namespace Sys2Proof

open Sys2Proof.Machine

/-- Settles O35: the check is a chain of refusals, and each is one clause of the statement. -/
theorem csrCheckRefusesExactlyTheListedCases : Obligations.CsrCheckRefusesExactlyTheListedCases := by
  intro a w s
  refine ⟨?refused, fun c hc => ?reached, fun c => mem_csrInventory c s⟩
  case refused =>
    rw [mem_inventory_addresses]
    by_cases hex : ∃ c : Csr, c.address = a
    · rw [or_iff_right (not_not_intro hex)]
      obtain ⟨c, hc⟩ := hex
      rw [csrCheck_address_eq_none_iff hc, counterOpen_eq_false_iff hc, BitVec.lt_def, toNat_csrLevel,
        Bool.and_eq_true, csrReadOnly_iff]
    · simp only [hex, not_false_eq_true, true_or, iff_true]
      exact csrCheck_of_no_csr (not_exists.mp hex) w s
  case reached =>
    obtain ⟨hat, -⟩ := csrCheck_some.mp hc
    exact address_of_csrAt hat ▸ mem_csrInventory c s

/-- Settles O36: a read brings at most one counter up to date, by one free value. -/
theorem observingACsrChangesOnlyItsFreeCounter :
    Obligations.ObservingACsrChangesOnlyItsFreeCounter := by
  intro c s
  refine ⟨csrObserve_x c s, csrObserve_pc c s, csrObserve_priv c s, csrObserve_mem c s,
    csrObserve_stale c s, csrObserve_instret c s, csrObserve_denied c s,
    fun d hd hne => csrRead_csrObserve_of_ne s hd hne, csrObserve_cycle c s,
    csrObserve_mhpmcounter3 c s, csrObserve_mhpmcounter4 c s, csrObserve_mhpmcounter5 c s,
    ?same_or_drawn, ?drawn_iff⟩
  case same_or_drawn =>
    by_cases hfree : c ∈ freeRunning
    · exact .inr (by rw [csrObserve_draws, if_pos hfree])
    · exact .inl (csrObserve_of_not_freeRunning s hfree)
  case drawn_iff =>
    change c ∈ freeRunning ↔ _
    by_cases hfree : c ∈ freeRunning <;> simp [csrObserve_draws, hfree]

/-! ### The obligations on the six CSR instructions -/

/-- Settles O32: both write whatever their operand field is, so each is one access that writes. -/
theorem csrrwAndCsrrwiReadThenWrite : Obligations.CsrrwAndCsrrwiReadThenWrite := by
  refine ⟨readsAs_of_funct3 (by decide) (by decide) decode_csrrw,
    readsAs_of_funct3 (by decide) (by decide) decode_csrrwi,
    fun rd a rs1 uimm s => ⟨fun c hc => ⟨?_, ?_⟩, fun hnone => ⟨?_, ?_⟩⟩⟩
  · exact effect_of_csrAccess (exec_csrrw rd rs1 a s) hc
  · exact effect_of_csrAccess (exec_csrrwi rd a uimm s) hc
  · exact (exec_csrrw rd rs1 a s).trans (csrAccess_of_refused hnone)
  · exact (exec_csrrwi rd a uimm s).trans (csrAccess_of_refused hnone)

/-- Settles O33: each is one access that writes when its operand field is not 0. -/
theorem csrrsAndCsrrsiReadThenSet : Obligations.CsrrsAndCsrrsiReadThenSet := by
  refine ⟨readsAs_of_funct3 (by decide) (by decide) decode_csrrs,
    readsAs_of_funct3 (by decide) (by decide) decode_csrrsi,
    fun rd a rs1 uimm s => ⟨fun c hc => ?_, fun c hc => ?_, fun hnone => ?_, fun hnone => ?_⟩⟩
  · exact effect_of_csrAccess_field (exec_csrrs rd rs1 a s) hc
  · exact effect_of_csrAccess_field (exec_csrrsi rd a uimm s) hc
  · exact (exec_csrrs rd rs1 a s).trans (csrAccess_of_refused hnone)
  · exact (exec_csrrsi rd a uimm s).trans (csrAccess_of_refused hnone)

/-- Settles O34: as for the two that set bits. -/
theorem csrrcAndCsrrciReadThenClear : Obligations.CsrrcAndCsrrciReadThenClear := by
  refine ⟨readsAs_of_funct3 (by decide) (by decide) decode_csrrc,
    readsAs_of_funct3 (by decide) (by decide) decode_csrrci,
    fun rd a rs1 uimm s => ⟨fun c hc => ?_, fun c hc => ?_, fun hnone => ?_, fun hnone => ?_⟩⟩
  · exact effect_of_csrAccess_field (exec_csrrc rd rs1 a s) hc
  · exact effect_of_csrAccess_field (exec_csrrci rd a uimm s) hc
  · exact (exec_csrrc rd rs1 a s).trans (csrAccess_of_refused hnone)
  · exact (exec_csrrci rd a uimm s).trans (csrAccess_of_refused hnone)

end Sys2Proof
end

section
/-! PROOFS. Branches, jumps, the shifts by an immediate, the fences, and the address of a load or store
(40_branch.md, 42_jump.md, 45_shift.md, 46_sync.md, 20_memory.md effective addresses). -/

namespace Sys2Proof.Machine

/-! ### Where each branch goes on (R150, R153 to R158) -/

section
variable (rs1 rs2 : RegNum) (offset : BitVec 13) (s : State)

theorem exec_beq : exec (.beq rs1 rs2 offset) s = .next (s.retire
    (if s.getX rs1 = s.getX rs2 then s.pc + offset.signExtend 32 else s.pc + 4)) := by
  exact (branch_eq (fun a b => a == b) rs1 rs2 offset s).trans (by simp)

theorem exec_bne : exec (.bne rs1 rs2 offset) s = .next (s.retire
    (if s.getX rs1 = s.getX rs2 then s.pc + 4 else s.pc + offset.signExtend 32)) := by
  exact (branch_eq (fun a b => a != b) rs1 rs2 offset s).trans (by simp)

theorem exec_blt : exec (.blt rs1 rs2 offset) s = .next (s.retire
    (if (s.getX rs1).toInt < (s.getX rs2).toInt then s.pc + offset.signExtend 32
      else s.pc + 4)) := by
  exact (branch_eq lessSigned rs1 rs2 offset s).trans (by simp only [lessSigned_iff])

theorem exec_bge : exec (.bge rs1 rs2 offset) s = .next (s.retire
    (if (s.getX rs1).toInt ≥ (s.getX rs2).toInt then s.pc + offset.signExtend 32
      else s.pc + 4)) := by
  exact (branch_eq (fun a b => !lessSigned a b) rs1 rs2 offset s).trans
    (by simp only [Bool.not_eq_true', ← Bool.not_eq_true, lessSigned_iff, not_lt, ge_iff_le])

theorem exec_bltu : exec (.bltu rs1 rs2 offset) s = .next (s.retire
    (if (s.getX rs1).toNat < (s.getX rs2).toNat then s.pc + offset.signExtend 32
      else s.pc + 4)) := by
  exact (branch_eq lessUnsigned rs1 rs2 offset s).trans (by simp only [lessUnsigned_iff])

theorem exec_bgeu : exec (.bgeu rs1 rs2 offset) s = .next (s.retire
    (if (s.getX rs1).toNat ≥ (s.getX rs2).toNat then s.pc + offset.signExtend 32
      else s.pc + 4)) := by
  exact (branch_eq (fun a b => !lessUnsigned a b) rs1 rs2 offset s).trans
    (by simp only [Bool.not_eq_true', ← Bool.not_eq_true, lessUnsigned_iff, not_lt, ge_iff_le])

end

/-! ### The effect of a branch and of a fence -/

/-- The reasoning rule of every instruction that only decides where to go on. -/
theorem onlyPcMoved_retire (s : State) (target : Word) : OnlyPcMoved s (s.retire target) target :=
  ⟨fun _ => rfl, rfl, fun _ => rfl, rfl, rfl, rfl, rfl, rfl, rfl⟩

theorem effect_of_retire {i : Instr} {s : State} {target : Word}
    (hexec : exec i s = .next (s.retire target)) :
    ∃ t, exec i s = .next t ∧ OnlyPcMoved s t target :=
  ⟨_, hexec, onlyPcMoved_retire s target⟩

/-! ### Jumps (R190, R191) -/

theorem exec_jal (rd : RegNum) (offset : BitVec 21) (s : State) : exec (.jal rd offset) s =
    .next ((s.setX rd (s.pc + 4)).retire (s.pc + offset.signExtend 32)) := rfl

/-- The mask of JALR clears bit 0. -/
theorem exec_jalr (rd rs1 : RegNum) (offset : BitVec 12) (s : State) : exec (.jalr rd rs1 offset) s =
    .next ((s.setX rd (s.pc + 4)).retire ((s.getX rs1 + offset.signExtend 32) &&& ~~~ 1#32)) := rfl

theorem effect_of_jump {i : Instr} {s : State} {rd : RegNum} {v target : Word}
    (hexec : exec i s = .next ((s.setX rd v).retire target)) :
    ∃ t, exec i s = .next t ∧ OnlyRegWritten s t rd v target :=
  ⟨_, hexec, onlyRegWritten_setX_retire s rd v target⟩

/-! ### Shifts by an immediate (R232, R233, R237) -/

section
variable (rd rs1 : RegNum) (shamt : BitVec 5) (s : State)

theorem exec_slli : exec (.slli rd rs1 shamt) s =
    writeResult rd (BitVec.ofNat 32 ((s.getX rs1).toNat * 2 ^ shamt.toNat)) s := by
  rw [← shl_eq_ofNat_mul]
  rfl

theorem exec_srli : exec (.srli rd rs1 shamt) s =
    writeResult rd (BitVec.ofNat 32 ((s.getX rs1).toNat / 2 ^ shamt.toNat)) s := by
  rw [← shrL_eq_ofNat_div]
  rfl

theorem exec_srai : exec (.srai rd rs1 shamt) s =
    writeResult rd (BitVec.ofInt 32 ((s.getX rs1).toInt / 2 ^ shamt.toNat)) s := by
  rw [← shrA_eq_ofInt_div]
  rfl

end

/-! ### Fences (R241, R242) -/

theorem exec_fence (pred succ : BitVec 4) (s : State) :
    exec (.fence pred succ) s = .next (s.retire (s.pc + 4)) := rfl

theorem exec_fencei (s : State) :
    exec .fencei s = .next (({ s with stale := [] } : State).retire (s.pc + 4)) := rfl

/-! ### Effective addresses (R92, D3) -/

/-- Both sides are residues of the same sum, as sign extension keeps the offset's integer. -/
theorem toNat_effectiveAddress (s : State) (rs1 : RegNum) (offset : BitVec 12) :
    ((effectiveAddress s rs1 offset).toNat : Int) =
      (((s.getX rs1).toNat : Int) + offset.toInt) % 2 ^ 32 := by
  have hsum : effectiveAddress s rs1 offset =
      BitVec.ofInt 32 (((s.getX rs1).toNat : Int) + offset.toInt) := by
    rw [BitVec.ofInt_add, BitVec.ofInt_natCast, BitVec.ofNat_toNat, BitVec.setWidth_eq,
      ← toInt_immWord, BitVec.ofInt_toInt]
    rfl
  rw [hsum, BitVec.toNat_ofInt]
  omega

end Sys2Proof.Machine

namespace Sys2Proof

open Sys2Proof.Machine

/-! ### The obligations -/

/-- Settles O15: each branch is one retirement at its target. -/
theorem beqAndBneBranchOnEquality : Obligations.BeqAndBneBranchOnEquality := by
  refine ⟨readsAs_of_funct3 (by decide) (by decide) decode_beq,
    readsAs_of_funct3 (by decide) (by decide) decode_bne, fun rs1 rs2 offset s => ⟨?_, ?_⟩⟩
  · exact effect_of_retire (exec_beq rs1 rs2 offset s)
  · exact effect_of_retire (exec_bne rs1 rs2 offset s)

/-- Settles O16: the comparison is that of the integers, and BGE's is its negation. -/
theorem bltAndBgeBranchOnSignedOrder : Obligations.BltAndBgeBranchOnSignedOrder := by
  refine ⟨readsAs_of_funct3 (by decide) (by decide) decode_blt,
    readsAs_of_funct3 (by decide) (by decide) decode_bge, fun rs1 rs2 offset s => ⟨?_, ?_⟩⟩
  · exact effect_of_retire (exec_blt rs1 rs2 offset s)
  · exact effect_of_retire (exec_bge rs1 rs2 offset s)

/-- Settles O17: the comparison is that of the naturals, and BGEU's is its negation. -/
theorem bltuAndBgeuBranchOnUnsignedOrder : Obligations.BltuAndBgeuBranchOnUnsignedOrder := by
  refine ⟨readsAs_of_funct3 (by decide) (by decide) decode_bltu,
    readsAs_of_funct3 (by decide) (by decide) decode_bgeu, fun rs1 rs2 offset s => ⟨?_, ?_⟩⟩
  · exact effect_of_retire (exec_bltu rs1 rs2 offset s)
  · exact effect_of_retire (exec_bgeu rs1 rs2 offset s)

/-- Settles O18: the link and the target are both made from the `pc` of the state it starts from. -/
theorem jalLinksAndJumps : Obligations.JalLinksAndJumps :=
  ⟨readsAs_of_opcode (by decide) decode_jal,
    fun rd offset s => effect_of_jump (exec_jal rd offset s)⟩

/-- Settles O19: the target is made from the registers of the state it starts from. -/
theorem jalrLinksAndJumps : Obligations.JalrLinksAndJumps :=
  ⟨readsAs_of_funct3 (by decide) (by decide) decode_jalr,
    fun rd rs1 offset s => effect_of_jump (exec_jalr rd rs1 offset s)⟩

/-- Settles O14: funct3 and funct7 tell the rows apart, and the result is the product or the quotient by
the power of two. -/
theorem immediateShiftsMultiplyAndDivide : Obligations.ImmediateShiftsMultiplyAndDivide := by
  refine ⟨readsAs_of_funct7 (by decide) (by decide) (by decide) decode_slli,
    readsAs_of_funct7 (by decide) (by decide) (by decide) decode_srli,
    readsAs_of_funct7 (by decide) (by decide) (by decide) decode_srai,
    fun rd rs1 shamt s => ⟨?_, ?_, ?_⟩⟩
  · exact effect_of_writeResult (exec_slli rd rs1 shamt s)
  · exact effect_of_writeResult (exec_srli rd rs1 shamt s)
  · exact effect_of_writeResult (exec_srai rd rs1 shamt s)

/-- Settles O28: the sets stand in their fields, and FENCE only retires. -/
theorem fenceOnlyMovesPc : Obligations.FenceOnlyMovesPc :=
  ⟨readsAs_of_funct3 (by decide) (by decide) decode_fence,
    fun w _ hk => ⟨getLsbD_predOf w hk, getLsbD_succOf w hk⟩,
    fun pred succ s => effect_of_retire (exec_fence pred succ s)⟩

/-- Settles O29: FENCEI empties the stale set and retires. -/
theorem fenceiEmptiesStaleSet : Obligations.FenceiEmptiesStaleSet := by
  refine ⟨readsAs_of_funct3 (by decide) (by decide) decode_fencei,
    fun s => ⟨_, exec_fencei s, rfl, fun _ => rfl, rfl, fun _ => rfl, ?_⟩⟩
  exact ⟨rfl, rfl, rfl, rfl, rfl⟩

/-- Settles O20: the address is a sum of residues, and sign extension keeps the integer of the offset. -/
theorem effectiveAddressWraps : Obligations.EffectiveAddressWraps := toNat_effectiveAddress

end Sys2Proof
end

section
/-! PROOFS. Trap entry whole, and all that an instruction can do when it answers a next state, with
whether it raised and what it wrote to `minstret` (60_exceptions.md R290 to R293; 10_state.md R56). -/

namespace Sys2Proof.Machine

/-! ### Trap entry whole (R290 to R293) -/

/-- Trap entry writes four CSRs; every other CSR and counter reads as before. -/
theorem csrRead_trapEntry {d : Csr} (e : Exception) (info : Word) (s : State) (hepc : d ≠ .mepc)
    (hcause : d ≠ .mcause) (htval : d ≠ .mtval) (hstatus : d ≠ .mstatus) :
    csrRead d (trapEntry e info s) = csrRead d s := by
  cases d with
  | mepc => exact absurd rfl hepc
  | mcause => exact absurd rfl hcause
  | mtval => exact absurd rfl htval
  | mstatus => exact absurd rfl hstatus
  | _ => rfl

theorem trapTaken_trapEntry (e : Exception) (info : Word) (s : State) :
    TrapTaken s (trapEntry e info s) e info := by
  have hstatus : ∀ i, i ≠ 3 → i ≠ 7 → i ≠ 11 → i ≠ 12 →
      (trapEntry e info s).csr.mstatus.getLsbD i = s.csr.mstatus.getLsbD i := by
    intro i h3 h7 h11 h12
    rw [trapEntry_mstatus, mstatusOnTrap_bit, if_neg h3, if_neg h7, if_neg h11, if_neg h12]
  exact ⟨rfl, rfl, rfl, mppOf_onTrap _ _, mpieOf_onTrap _ _, mieOf_onTrap _ _, hstatus,
    fun d => csrRead_trapEntry e info s, rfl, rfl, fun _ => rfl, fun _ => rfl, rfl, rfl, rfl, rfl, rfl⟩

/-! ### A store after memory has answered (R212) -/

section
variable {n : Nat} {rs1 rs2 : RegNum} {offset : BitVec 12} {s : State}

theorem store_of_memWrite_ok {t : State}
    (h : memWrite s (effectiveAddress s rs1 offset) n (s.getX rs2) = .ok t) :
    store n rs1 rs2 offset s = finish t := by
  simp [store, h]

theorem store_of_memWrite_error {e : Exception}
    (h : memWrite s (effectiveAddress s rs1 offset) n (s.getX rs2) = .error e) :
    store n rs1 rs2 offset s = raise e (effectiveAddress s rs1 offset) s := by
  simp [store, h]

end

/-! ### All that an instruction can do -/

/-- What instruction `i` did in `s` if it answered `t`. -/
inductive ExecOutcome (i : Instr) (s : State) : State → Prop where
  /-- it raised, and the trap was taken -/
  | trapped (e : Exception) (info : Word) (hraises : raisesIn i s = true) :
      ExecOutcome i s (trapEntry e info s)
  /-- it completed, having written at most one register -/
  | wrote (rd : RegNum) (v target : Word) (hraises : raisesIn i s = false)
      (hminstret : minstretWritten i s = none) : ExecOutcome i s ((s.setX rd v).retire target)
  /-- it stored aligned bytes -/
  | stored (a : Word) (n : Nat) (v : Word) (hraises : raisesIn i s = false)
      (hminstret : minstretWritten i s = none) (hname : i.mnemonic ∈ ["SB", "SH", "SW"])
      (hsize : n = 1 ∨ n = 2 ∨ n = 4) (haligned : aligned a n = true) :
      ExecOutcome i s ((s.storeBytes a n v).retire (s.pc + 4))
  /-- it emptied the stale set -/
  | flushed (hfencei : i = .fencei) :
      ExecOutcome i s (({ s with stale := [] } : State).retire (s.pc + 4))
  /-- it reached a CSR it may reach -/
  | reached (a : CsrNum) (rd : RegNum) (w : Bool) (f : Word → Word) (c : Csr)
      (hraises : raisesIn i s = false) (hcheck : csrCheck a w s = some c)
      (hminstret : minstretWritten i s =
        if a = 0xB02 ∧ w = true then some (f (s.instret.extractLsb' 0 32)) else none) :
      ExecOutcome i s (csrAfter c rd w f s)

section
variable {i : Instr} {s t : State}

theorem outcome_of_raise {e : Exception} {info : Word} (hraises : raisesIn i s = true)
    (hexec : exec i s = raise e info s) (h : exec i s = .next t) : ExecOutcome i s t := by
  obtain ⟨-, rfl⟩ := raise_next.mp (hexec.symm.trans h)
  exact .trapped e info hraises

theorem outcome_of_writeResult {rd : RegNum} {v : Word} (hexec : exec i s = writeResult rd v s)
    (hraises : raisesIn i s = false) (hminstret : minstretWritten i s = none)
    (h : exec i s = .next t) : ExecOutcome i s t := by
  rw [hexec, writeResult_eq] at h
  cases h
  exact .wrote rd v _ hraises hminstret

/-- Branches and FENCE write no register: x0 stands for it. -/
theorem outcome_of_retire {target : Word} (hexec : exec i s = .next (s.retire target))
    (hraises : raisesIn i s = false) (hminstret : minstretWritten i s = none)
    (h : exec i s = .next t) : ExecOutcome i s t := by
  rw [hexec] at h
  cases h
  exact .wrote 0#5 0 target hraises hminstret

theorem outcome_of_jump {rd : RegNum} {v target : Word}
    (hexec : exec i s = .next ((s.setX rd v).retire target))
    (hraises : raisesIn i s = false) (hminstret : minstretWritten i s = none)
    (h : exec i s = .next t) : ExecOutcome i s t := by
  rw [hexec] at h
  cases h
  exact .wrote rd v target hraises hminstret

theorem outcome_of_load {n : Nat} {extend : Word → Word} {rd rs1 : RegNum} {offset : BitVec 12}
    (hexec : exec i s = load n extend rd rs1 offset s)
    (hraises : raisesIn i s = (!aligned (effectiveAddress s rs1 offset) n ||
      !responds s .load (effectiveAddress s rs1 offset).toNat n))
    (hminstret : minstretWritten i s = none) (h : exec i s = .next t) : ExecOutcome i s t := by
  cases ha : aligned (effectiveAddress s rs1 offset) n with
  | false =>
    exact outcome_of_raise (by rw [hraises, ha]; rfl)
      (hexec.trans (load_of_memRead_error (memRead_misaligned ha))) h
  | true =>
    cases hr : responds s .load (effectiveAddress s rs1 offset).toNat n with
    | false =>
      exact outcome_of_raise (by rw [hraises, ha, hr]; rfl)
        (hexec.trans (load_of_memRead_error (memRead_fault ha hr))) h
    | true =>
      exact outcome_of_writeResult (hexec.trans (load_of_memRead_ok (memRead_ok ha hr)))
        (by rw [hraises, ha, hr]; rfl) hminstret h

theorem outcome_of_store {n : Nat} {rs1 rs2 : RegNum} {offset : BitVec 12}
    (hexec : exec i s = store n rs1 rs2 offset s)
    (hraises : raisesIn i s = (!aligned (effectiveAddress s rs1 offset) n ||
      !responds s .store (effectiveAddress s rs1 offset).toNat n))
    (hminstret : minstretWritten i s = none) (hname : i.mnemonic ∈ ["SB", "SH", "SW"])
    (hsize : n = 1 ∨ n = 2 ∨ n = 4) (h : exec i s = .next t) : ExecOutcome i s t := by
  cases ha : aligned (effectiveAddress s rs1 offset) n with
  | false =>
    exact outcome_of_raise (by rw [hraises, ha]; rfl)
      (hexec.trans (store_of_memWrite_error (memWrite_misaligned _ ha))) h
  | true =>
    cases hr : responds s .store (effectiveAddress s rs1 offset).toNat n with
    | false =>
      exact outcome_of_raise (by rw [hraises, ha, hr]; rfl)
        (hexec.trans (store_of_memWrite_error (memWrite_fault _ ha hr))) h
    | true =>
      rw [hexec, store_of_memWrite_ok (memWrite_ok _ ha hr), finish_eq] at h
      cases h
      exact .stored _ n _ (by rw [hraises, ha, hr]; rfl) hminstret hname hsize ha

theorem outcome_of_csrAccess {word : Word} {rd : RegNum} {a : CsrNum} {w : Bool} {f : Word → Word}
    (hexec : exec i s = csrAccess word rd a w f s)
    (hraises : raisesIn i s = (csrCheck a w s).isNone)
    (hminstret : minstretWritten i s =
      if a = 0xB02 ∧ w = true then some (f (s.instret.extractLsb' 0 32)) else none)
    (h : exec i s = .next t) : ExecOutcome i s t := by
  cases hcheck : csrCheck a w s with
  | none =>
    exact outcome_of_raise (by rw [hraises, hcheck]; rfl)
      (hexec.trans (csrAccess_of_refused hcheck)) h
  | some c =>
    rw [hexec, csrAccess_of_allowed hcheck] at h
    cases h
    exact .reached a rd w f c (by rw [hraises, hcheck]; rfl) hcheck hminstret

end

/-- Every next state an instruction answers is one of these outcomes. -/
theorem exec_outcome {i : Instr} {s t : State} (h : exec i s = .next t) : ExecOutcome i s t := by
  cases i with
  | add | sub | sll | slt | sltu | xor | srl | sra | or | and | addi | slti | sltiu | xori | ori | andi
  | slli | srli | srai | lui | auipc => exact outcome_of_writeResult rfl rfl rfl h
  | lb | lh | lw | lbu | lhu => exact outcome_of_load rfl rfl rfl h
  | sb | sh | sw => exact outcome_of_store rfl rfl rfl (by simp [Instr.mnemonic]) (by decide) h
  | beq rs1 rs2 offset => exact outcome_of_retire (exec_beq rs1 rs2 offset s) rfl rfl h
  | bne rs1 rs2 offset => exact outcome_of_retire (exec_bne rs1 rs2 offset s) rfl rfl h
  | blt rs1 rs2 offset => exact outcome_of_retire (exec_blt rs1 rs2 offset s) rfl rfl h
  | bge rs1 rs2 offset => exact outcome_of_retire (exec_bge rs1 rs2 offset s) rfl rfl h
  | bltu rs1 rs2 offset => exact outcome_of_retire (exec_bltu rs1 rs2 offset s) rfl rfl h
  | bgeu rs1 rs2 offset => exact outcome_of_retire (exec_bgeu rs1 rs2 offset s) rfl rfl h
  | jal | jalr => exact outcome_of_jump rfl rfl rfl h
  | fence => exact outcome_of_retire rfl rfl rfl h
  | fencei =>
    cases h
    exact .flushed rfl
  | ecall | ebreak => exact outcome_of_raise rfl rfl h
  | csrrw rd a rs1 => exact outcome_of_csrAccess (exec_csrrw rd rs1 a s) rfl (by simp [minstretWritten]) h
  | csrrs rd a rs1 => exact outcome_of_csrAccess (exec_csrrs rd rs1 a s) rfl (by simp [minstretWritten]) h
  | csrrc rd a rs1 => exact outcome_of_csrAccess (exec_csrrc rd rs1 a s) rfl (by simp [minstretWritten]) h
  | csrrwi rd a uimm =>
    exact outcome_of_csrAccess (exec_csrrwi rd a uimm s) rfl (by simp [minstretWritten]) h
  | csrrsi rd a uimm =>
    exact outcome_of_csrAccess (exec_csrrsi rd a uimm s) rfl (by simp [minstretWritten]) h
  | csrrci rd a uimm =>
    exact outcome_of_csrAccess (exec_csrrci rd a uimm s) rfl (by simp [minstretWritten]) h

/-! ### The instruction counter (R56, D21) -/

/-- A CSR instruction that completes writes `minstret`, or counts itself. -/
theorem csrAfter_instret_of_check {a : CsrNum} {rd : RegNum} {w : Bool} {f : Word → Word} {c : Csr}
    {s : State} (hcheck : csrCheck a w s = some c) :
    (csrAfter c rd w f s).instret =
      if a = 0xB02 ∧ w = true then s.instret.extractLsb' 32 32 ++ f (s.instret.extractLsb' 0 32)
      else s.instret + 1 := by
  obtain ⟨hat, -⟩ := csrCheck_some.mp hcheck
  simp only [csrAfter_instret, eq_minstret_iff (address_of_csrAt hat), and_comm]

/-- An instruction that completes leaves the count that `instretAfter` gives. -/
theorem instret_of_outcome {i : Instr} {s t : State} (h : ExecOutcome i s t) :
    t.instret = instretAfter i s := by
  unfold instretAfter
  cases h with
  | trapped e info hraises => rw [if_pos hraises]; rfl
  | wrote rd v target hraises hminstret => simp [hraises, hminstret]
  | stored a n v hraises hminstret => simp [hraises, hminstret]
  | flushed hfencei => subst hfencei; rfl
  | reached a rd w f c hraises hcheck hminstret =>
    rw [csrAfter_instret_of_check hcheck, hraises, hminstret]
    by_cases hwrite : a = 0xB02 ∧ w = true
    · rw [if_pos hwrite, if_pos hwrite, if_neg (by decide)]
    · rw [if_neg hwrite, if_neg hwrite, if_neg (by decide)]

end Sys2Proof.Machine

namespace Sys2Proof

open Sys2Proof.Machine

/-- Settles O46: each outcome of an instruction gives its count, and only a trap comes of raising. -/
theorem completedInstructionsAreCounted : Obligations.CompletedInstructionsAreCounted := by
  intro i s t h
  have hout := exec_outcome h
  refine ⟨instret_of_outcome hout, fun hraised => ?_⟩
  cases hout with
  | trapped e info => exact ⟨e, info, rfl⟩
  | wrote _ _ _ hraises => exact absurd hraised (by simp [hraises])
  | stored _ _ _ hraises => exact absurd hraised (by simp [hraises])
  | flushed hfencei => subst hfencei; cases hraised
  | reached _ _ _ _ _ hraises => exact absurd hraised (by simp [hraises])

end Sys2Proof
end

section
/-! PROOFS. Exceptions taken and refused, the fetch, and one step (60_exceptions.md; 20_memory.md R87,
R104; 00_scope.md R15); reset; and the word placed for the next fetch (log 19). -/

namespace Sys2Proof.Machine

/-! ### Which traps are delegated (R46, R303, D25) -/

theorem delegated_eq_false_iff {e : Exception} {s : State} :
    delegated e s = false ↔ s.priv = .machine ∨ s.csr.medeleg.getLsbD e.code = false := by
  simp only [delegated, Bool.and_eq_false_iff, bne_eq_false_iff_eq]

theorem raise_of_undelegated {e : Exception} {s : State} (info : Word)
    (h : s.priv = .machine ∨ s.csr.medeleg.getLsbD e.code = false) :
    raise e info s = .next (trapEntry e info s) :=
  raise_of_not_delegated info (delegated_eq_false_iff.mpr h)

/-- All that a refused trap says. -/
theorem raise_refused {e : Exception} {info : Word} {s : State} {r : Refusal}
    (h : raise e info s = .refused r) : r = .delegationNotDescribed ∧ s.priv ≠ .machine := by
  cases hd : delegated e s with
  | true =>
    rw [raise_delegated info hd] at h
    obtain ⟨hpriv, -⟩ : s.priv ≠ .machine ∧ _ := by simpa [delegated] using hd
    exact ⟨(Host.Outcome.refused.inj h).symm, hpriv⟩
  | false =>
    rw [raise_of_not_delegated info hd] at h
    cases h

/-- The code of ECALL is 8 more than the number of its mode (R280). -/
theorem code_environmentCall (m : Mode) : (Exception.environmentCall m).code = 8 + m.enc.toNat := by
  cases m <;> rfl

/-! ### The fetch, case by case (R87, R104) -/

theorem aligned_iff {a : Word} {n : Nat} : aligned a n = true ↔ a.toNat % n = 0 := by
  simp [aligned]

theorem aligned_eq_false_iff {a : Word} {n : Nat} : aligned a n = false ↔ a.toNat % n ≠ 0 := by
  simp [aligned]

theorem staleAt_iff {s : State} {a : Word} :
    staleAt s a = true ↔ ∃ k < 4, a.toNat + k ∈ s.stale := by
  simp [staleAt]

theorem fetch_stale {s : State} (ha : aligned s.pc 4 = true)
    (hr : responds s .fetch s.pc.toNat 4 = true) (hs : staleAt s s.pc = true) :
    fetch s = .ok (Config.staleWord s.draws, { s with draws := s.draws + 1 }) := by
  simp [fetch, ha, hr, hs]

/-- A fetch changes nothing but the count of free values. -/
theorem fetch_frame {s s' : State} {w : Word} (h : fetch s = .ok (w, s')) :
    s'.pc = s.pc ∧ s'.priv = s.priv ∧ s'.csr = s.csr ∧ s'.instret = s.instret ∧ s'.mem = s.mem ∧
      s'.stale = s.stale := by
  rcases fetch_ok h with rfl | rfl <;> exact ⟨rfl, rfl, rfl, rfl, rfl, rfl⟩

/-! ### The states the spec describes (R54, R66, R305) -/

section
variable {s : State}

theorem notDescribed_of_satp (hsatp : s.csr.satp ≠ 0) :
    notDescribed s = some .translationNotDescribed := if_pos hsatp

theorem notDescribed_of_pmpcfg0 (hsatp : s.csr.satp = 0) (hpmp : s.csr.pmpcfg0 ≠ 0) :
    notDescribed s = some .protectionNotDescribed :=
  (if_neg (not_not_intro hsatp)).trans (if_pos hpmp)

theorem notDescribed_of_interrupt (hsatp : s.csr.satp = 0) (hpmp : s.csr.pmpcfg0 = 0)
    (hmie : mieOf s.csr.mstatus = true) (hpending : s.csr.mie &&& s.csr.mip ≠ 0) :
    notDescribed s = some .interruptNotDescribed := by
  have hboth : (mieOf s.csr.mstatus && s.csr.mie &&& s.csr.mip != 0) = true := by
    rw [hmie, Bool.true_and, bne_iff_ne]
    exact hpending
  rw [notDescribed, if_neg (not_not_intro hsatp), if_neg (not_not_intro hpmp), if_pos hboth]

theorem described_iff : Described s ↔
    s.csr.satp = 0 ∧ s.csr.pmpcfg0 = 0 ∧
      (mieOf s.csr.mstatus = false ∨ s.csr.mie &&& s.csr.mip = 0) := by
  unfold Described
  by_cases hsatp : s.csr.satp = 0
  · by_cases hpmp : s.csr.pmpcfg0 = 0
    · rw [notDescribed, if_neg (not_not_intro hsatp), if_neg (not_not_intro hpmp)]
      cases hmie : mieOf s.csr.mstatus <;> simp [hsatp, hpmp]
    · rw [notDescribed_of_pmpcfg0 hsatp hpmp]
      exact iff_of_false nofun fun ⟨_, hzero, _⟩ => hpmp hzero
  · rw [notDescribed_of_satp hsatp]
    exact iff_of_false nofun fun ⟨hzero, _, _⟩ => hsatp hzero

end

/-! ### One step, case by case (R15) -/

section
variable {s s' : State} {w : Word}

theorem step_of_fetch_error {e : Exception} (hs : Described s) (hf : fetch s = .error e) :
    step s = raise e s.pc s := by
  rw [step, show notDescribed s = none from hs, hf]

theorem step_of_illegal {r : DecodeError} (hs : Described s) (hf : fetch s = .ok (w, s'))
    (hw : decode w = .error r) : step s = raise .illegalInstruction w s' := by
  rw [step, show notDescribed s = none from hs, hf]
  simp only [hw, raiseIllegal]

theorem step_of_decoded {i : Instr} (hs : Described s) (hf : fetch s = .ok (w, s'))
    (hw : decode w = .ok i) : step s = exec i s' := by
  rw [step, show notDescribed s = none from hs, hf]
  simp only [hw]

theorem step_of_not_described {r : Refusal} (h : notDescribed s = some r) : step s = .refused r := by
  rw [step, h]

/-- A refusal in a state the spec describes is a delegated trap, of the fetch, of an illegal word or of
the instruction. -/
theorem step_refused {r : Refusal} (hs : Described s) (h : step s = .refused r) :
    r = .delegationNotDescribed ∧ s.priv ≠ .machine := by
  cases hf : fetch s with
  | error e => exact raise_refused ((step_of_fetch_error hs hf).symm.trans h)
  | ok fetched =>
    obtain ⟨w, s'⟩ := fetched
    obtain ⟨-, hpriv, -⟩ := fetch_frame hf
    rw [← hpriv]
    cases hw : decode w with
    | error r' => exact raise_refused ((step_of_illegal hs hf hw).symm.trans h)
    | ok i => exact exec_refused ((step_of_decoded hs hf hw).symm.trans h)

end

/-- Four bytes that decode are the bytes of a word that does. -/
theorem decode_of_decodeBytes {b0 b1 b2 b3 : Byte} {i : Instr}
    (h : decodeBytes [b0, b1, b2, b3] = .ok (i, [])) : decode (ofBytes [b0, b1, b2, b3]) = .ok i := by
  simp only [decodeBytes] at h
  split at h
  · rename_i hw
    cases h
    exact hw
  · cases h

/-! ### Trap after trap (D33) -/

/-- A trap leaves a state the spec describes, as it clears MIE and leaves satp and pmpcfg0. -/
theorem described_trapEntry {s : State} (e : Exception) (info : Word) (hs : Described s) :
    Described (trapEntry e info s) := by
  obtain ⟨hsatp, hpmp, -⟩ := described_iff.mp hs
  exact described_iff.mpr ⟨hsatp, hpmp, .inl (mieOf_onTrap s.csr.mstatus s.priv)⟩

/-- In M a step at a misaligned `pc` is that trap. -/
theorem step_misaligned_machine {s : State} (hs : Described s) (hpriv : s.priv = .machine)
    (hpc : s.pc.toNat % 4 ≠ 0) :
    step s = .next (trapEntry .instructionAddressMisaligned s.pc s) :=
  (step_of_fetch_error hs (fetch_misaligned (aligned_eq_false_iff.mpr hpc))).trans
    (raise_of_undelegated s.pc (.inl hpriv))

theorem runUntil_never_succ {s t : State} (n : Nat) (h : step s = .next t) :
    runUntil (fun _ => false) (n + 1) s = runUntil (fun _ => false) n t := by
  simp [runUntil, h]

/-! ### Placing a word (log 19) -/

/-- The low bits of a multiple of a power of two are 0. -/
theorem getLsbD_of_mod_two_pow {a : Word} {k i : Nat} (h : a.toNat % 2 ^ k = 0) (hi : i < k) :
    a.getLsbD i = false := by
  have hbit : (a.toNat % 2 ^ k).testBit i = a.toNat.testBit i := by
    rw [Nat.testBit_mod_two_pow, decide_eq_true hi, Bool.true_and]
  rw [BitVec.getLsbD, ← hbit, h, Nat.zero_testBit]

theorem and_fourMask_of_aligned {a : Word} (h : a.toNat % 4 = 0) : a &&& 0xFFFFFFFC#32 = a := by
  have h0 := getLsbD_of_mod_two_pow (k := 2) h (i := 0) (by decide)
  have h1 := getLsbD_of_mod_two_pow (k := 2) h (i := 1) (by decide)
  apply BitVec.eq_of_getLsbD_eq; intro i hi
  rw [BitVec.getLsbD_and]
  interval_cases i <;> simp_all

theorem and_fourMask_aligned (a : Word) : (a &&& 0xFFFFFFFC#32).toNat % 4 = 0 := by
  have hmod := Nat.and_mod_two_pow (a := a.toNat) (b := 0xFFFFFFFC) (n := 2)
  simpa using hmod

section
variable (s : State) (w : Word)

/-- None of the bytes placed is stale. -/
theorem staleAt_placeWord : staleAt (placeWord s w) (placeWord s w).pc = false := by
  rw [← Bool.not_eq_true, staleAt_iff]
  rintro ⟨k, hk, hmem⟩
  have hkept := (List.mem_filter.mp hmem).2
  simp [hk] at hkept

/-- No denial left keeps the bytes placed from being fetched. -/
theorem responds_placeWord :
    responds (placeWord s w) .fetch (placeWord s w).pc.toNat 4 = true := by
  simp only [responds, List.all_eq_true, List.mem_range, Bool.not_eq_true', List.any_eq_false]
  intro k hk d hd
  have hkept := (List.mem_filter.mp hd).2
  simp only [Denial.blocksFetch, Bool.not_eq_true', List.any_eq_false, List.mem_range] at hkept
  exact hkept k hk

/-- The word placed is the one fetched. -/
theorem fetch_placeWord : fetch (placeWord s w) = .ok (w, placeWord s w) := by
  have hbytes : Memory.readBytes (placeWord s w).mem (placeWord s w).pc.toNat 4 = bytesOf 4 w :=
    readBytes_writeBytes (bytesOf 4 w) s.mem _
  rw [fetch_fresh (aligned_iff.mpr (and_fourMask_aligned s.pc)) (responds_placeWord s w)
    (staleAt_placeWord s w), hbytes, ofBytes_bytesOf]

end

/-- What the decoder reads from the bytes of a table word is what the word decodes to. -/
theorem decode_of_decodeTableWord {nbits w : Nat} {i : Instr} (h : decodeTableWord nbits w = some i) :
    decode (tableWord nbits w) = .ok i := by
  unfold decodeTableWord at h
  split at h
  · rename_i j rest hbytes
    cases h
    rw [bytesOf_four] at hbytes
    rw [← ofBytes_bytesOf (tableWord nbits w), bytesOf_four]
    simp only [decodeBytes] at hbytes
    split at hbytes
    · rename_i hw
      cases hbytes
      exact hw
    · cases hbytes
  · cases h

end Sys2Proof.Machine

namespace Sys2Proof

open Sys2Proof.Machine

/-! ### The obligations on exceptions -/

/-- Settles O40: what trap entry writes to `mstatus`, bit by bit. -/
theorem trapEntryWritesOnlyItsState : Obligations.TrapEntryWritesOnlyItsState := by
  intro e info s hd
  refine ⟨_, raise_of_undelegated info hd, trapTaken_trapEntry e info s, ?_, ?_, ?_⟩
  · exact mieOf_onTrap s.csr.mstatus s.priv
  · exact mpieOf_onTrap s.csr.mstatus s.priv
  · exact (mppOf_onTrap s.csr.mstatus s.priv).trans (by cases s.priv <;> rfl)

/-- Settles O41: below M with its bit set a trap is delegated, and a delegated trap is refused. -/
theorem delegatedTrapIsRefused : Obligations.DelegatedTrapIsRefused := by
  intro e info s hpriv hbit
  refine raise_delegated info ?_
  rw [← Bool.not_eq_false, delegated_eq_false_iff]
  simp [hpriv, hbit]

/-- Settles O37: ECALL raises with the code of its mode. -/
theorem ecallTrapsWithTheCodeOfItsMode : Obligations.EcallTrapsWithTheCodeOfItsMode := by
  refine ⟨decode_ecall, fun s hd => ?_⟩
  rw [← code_environmentCall] at hd
  refine ⟨_, raise_of_undelegated 0 hd, trapTaken_trapEntry _ _ s, rfl, ?_⟩
  rw [trapEntry_mcause]
  cases s.priv <;> rfl

/-- Settles O38: EBREAK raises breakpoint. -/
theorem ebreakTrapsWithCodeThree : Obligations.EbreakTrapsWithCodeThree :=
  ⟨decode_ebreak, fun s hd =>
    ⟨_, raise_of_undelegated 0 hd, trapTaken_trapEntry .breakpoint 0 s, rfl, rfl⟩⟩

/-- Settles O42: the fetch leaves all that the trap saves and looks at. -/
theorem illegalWordTrapsWithCodeTwo : Obligations.IllegalWordTrapsWithCodeTwo := by
  intro s s' w r hs hf hw hd
  obtain ⟨hpc, hpriv, hcsr, -⟩ := fetch_frame hf
  rw [← hpriv, ← hcsr] at hd
  exact ⟨_, (step_of_illegal hs hf hw).trans (raise_of_undelegated w hd),
    trapTaken_trapEntry .illegalInstruction w s', rfl, hpc, rfl⟩

/-- Settles O43: the fetch looks at the alignment first. -/
theorem fetchFailureTrapsWithItsPc : Obligations.FetchFailureTrapsWithItsPc := by
  intro s hs
  refine ⟨fun hpc hd => ?_, fun hpc hr hd => ?_⟩
  · have hf := fetch_misaligned (aligned_eq_false_iff.mpr hpc)
    exact ⟨_, (step_of_fetch_error hs hf).trans (raise_of_undelegated s.pc hd),
      trapTaken_trapEntry .instructionAddressMisaligned s.pc s, rfl, rfl⟩
  · have hf := fetch_fault (aligned_iff.mpr hpc) hr
    exact ⟨_, (step_of_fetch_error hs hf).trans (raise_of_undelegated s.pc hd),
      trapTaken_trapEntry .instructionAccessFault s.pc s, rfl, rfl⟩

/-- Settles O44: the second trap starts from the handler of the first, in M and with MIE 0. -/
theorem secondTrapOverwritesTheFirst : Obligations.SecondTrapOverwritesTheFirst := by
  intro e f info more s t u h1 h2
  obtain ⟨-, rfl⟩ := raise_next.mp h1
  obtain ⟨-, rfl⟩ := raise_next.mp h2
  refine ⟨?_, mppOf_onTrap _ _, rfl, rfl, rfl, rfl⟩
  rw [trapEntry_mstatus, mpieOf_onTrap, trapEntry_mstatus, mieOf_onTrap]

/-- Settles O45, by induction on the number of steps: the trap leads to a state with the same hypotheses,
the same handler and the same count. -/
theorem misalignedHandlerLoopsForever : Obligations.MisalignedHandlerLoopsForever := by
  intro n
  induction n with
  | zero =>
    intro s hs hpriv hpc hodd
    have hstep := step_misaligned_machine hs hpriv (hpc ▸ hodd)
    exact ⟨_, runUntil_never_succ 0 hstep, rfl, hpc, rfl, rfl⟩
  | succ n ih =>
    intro s hs hpriv hpc hodd
    have hstep := step_misaligned_machine hs hpriv (hpc ▸ hodd)
    obtain ⟨t, hrun, ht⟩ := ih _ (described_trapEntry _ _ hs) rfl rfl hodd
    exact ⟨t, (runUntil_never_succ (n + 1) hstep).trans hrun, ht⟩

/-! ### The obligations on one step -/

/-- Settles O47: the fetch gives the word of the bytes in memory. -/
theorem stepRunsTheDecodedInstruction : Obligations.StepRunsTheDecodedInstruction := by
  intro s i hs hpc hr hfresh hbytes
  have hstale : staleAt s s.pc = false := by
    rw [← Bool.not_eq_true, staleAt_iff]
    rintro ⟨k, hk, hmem⟩
    exact hfresh k hk hmem
  exact step_of_decoded hs (fetch_fresh (aligned_iff.mpr hpc) hr hstale) (decode_of_decodeBytes hbytes)

/-- Settles O31: the fetch gives the free word and counts it. -/
theorem staleFetchRunsFreeWord : Obligations.StaleFetchRunsFreeWord := by
  intro s hs hpc hr hstale
  have hf := fetch_stale (aligned_iff.mpr hpc) hr (staleAt_iff.mpr hstale)
  exact ⟨fun i hw => step_of_decoded hs hf hw, fun r hw => step_of_illegal hs hf hw⟩

/-- Settles O48: the word placed is fetched, and placing changes no CSR the description looks at. -/
theorem placedWordIsTheNextRun : Obligations.PlacedWordIsTheNextRun := by
  intro s nbits w i hs hw
  have hf : fetch (s.withFetchWord nbits w) = .ok (tableWord nbits w, s.withFetchWord nbits w) :=
    fetch_placeWord s (tableWord nbits w)
  exact ⟨step_of_decoded hs hf (decode_of_decodeTableWord hw), fun _ => rfl,
    ⟨rfl, rfl, rfl, rfl, rfl⟩, rfl, and_fourMask_of_aligned⟩

/-- Settles O49: the three descriptions are looked at in order, and past them only a trap refuses. -/
theorem stepRefusesOnlyWhatIsNotDescribed : Obligations.StepRefusesOnlyWhatIsNotDescribed := by
  intro s
  refine ⟨fun hsatp => ?_, fun hsatp hpmp => ?_, fun hsatp hpmp hmie hpending => ?_,
    fun hsatp hpmp hquiet r h => ?_⟩
  · exact step_of_not_described (notDescribed_of_satp hsatp)
  · exact step_of_not_described (notDescribed_of_pmpcfg0 hsatp hpmp)
  · exact step_of_not_described (notDescribed_of_interrupt hsatp hpmp hmie hpending)
  · exact step_refused (described_iff.mpr ⟨hsatp, hpmp, hquiet⟩) h

/-! ### The obligations on reset -/

/-- Settles O50: the reset state's fields evaluate to the table's values. -/
theorem resetLeavesTheTablesValues : Obligations.ResetLeavesTheTablesValues :=
  ⟨rfl, rfl, rfl, rfl, rfl, rfl, rfl, rfl, rfl, rfl, rfl, rfl, rfl⟩

/-- Settles O51: both lists are empty. -/
theorem resetIsCanonical : Obligations.ResetIsCanonical :=
  ⟨reset_mem_wf, rfl, fun _ ha => absurd ha List.not_mem_nil⟩

end Sys2Proof
end

section
/-! PROOFS. What every step keeps: the canonical form, `misa` and the platform's answers; what it can do
to the mode, to the CSRs below M, to memory and the stale set; and that it completes or traps whole. -/

namespace Sys2Proof.Machine

/-! ### The canonical form (20_memory.md R80; 10_state.md R70) -/

theorem canonical_of_eq {s t : State} (hmem : t.mem = s.mem) (hstale : t.stale = s.stale)
    (h : Canonical s) : Canonical t := by
  rwa [Canonical, hmem, hstale]

/-- Aligned bytes lie in the address space, so storing them keeps the form. -/
theorem canonical_storeBytes {s : State} {a : Word} {n : Nat} (v : Word) (hn : n = 1 ∨ n = 2 ∨ n = 4)
    (ha : aligned a n = true) (h : Canonical s) : Canonical (s.storeBytes a n v) := by
  obtain ⟨hmem, hstale, hbound⟩ := h
  have hinside := aligned_inside ha hn
  refine ⟨writeBytes_wf _ hmem (by rwa [bytesOf_length]), addStaleRange_wf n _ hstale,
    fun b hb => ?_⟩
  rcases (mem_addStaleRange n s.stale a.toNat b).mp hb with hold | ⟨-, hlt⟩
  · exact hbound b hold
  · omega

theorem canonical_flush {s : State} (h : Canonical s) : Canonical { s with stale := [] } := by
  obtain ⟨hmem, -⟩ := h
  exact ⟨hmem, rfl, fun _ hb => absurd hb List.not_mem_nil⟩

theorem step_canonical {s t : State} (hs : Canonical s) (h : step s = .next t) : Canonical t :=
  step_keeps Canonical
    (draw := fun _ => id)
    (trap := fun _ _ _ => id)
    (reg := fun _ _ _ _ => canonical_of_eq (by simp) (by simp))
    (put := fun _ _ _ v hn ha => canonical_storeBytes v hn ha)
    (flush := fun _ => canonical_flush)
    (csr := fun _ _ _ _ _ _ _ => canonical_of_eq (by simp) (by simp))
    hs h

/-! ### The mode, `misa` and the platform (D10, D14, D15, D20) -/

theorem step_priv {s t : State} (h : step s = .next t) : t.priv = s.priv ∨ t.priv = .machine :=
  step_keeps (fun u => u.priv = s.priv ∨ u.priv = .machine)
    (draw := fun _ => id)
    (trap := fun _ _ _ _ => .inr rfl)
    (reg := fun _ _ _ _ hu => by simpa using hu)
    (put := fun _ _ _ _ _ _ => id)
    (flush := fun _ => id)
    (csr := fun _ _ _ _ _ _ _ hu => by simpa using hu)
    (.inl rfl) h

@[simp] theorem csrWrite_misa (c : Csr) (v : Word) (s : State) :
    (csrWrite c v s).csr.misa = s.csr.misa := by cases c <;> rfl

@[simp] theorem csrAfter_misa (c : Csr) (rd : RegNum) (w : Bool) (f : Word → Word) (s : State) :
    (csrAfter c rd w f s).csr.misa = s.csr.misa := by
  rw [csrAfter_csr]
  cases w <;> simp

theorem step_misa_and_denied {s t : State} (h : step s = .next t) :
    t.csr.misa = s.csr.misa ∧ t.denied = s.denied :=
  step_keeps (fun u => u.csr.misa = s.csr.misa ∧ u.denied = s.denied)
    (draw := fun _ => id)
    (trap := fun _ _ _ => id)
    (reg := fun _ _ _ _ hu => by simpa using hu)
    (put := fun _ _ _ _ _ _ => id)
    (flush := fun _ => id)
    (csr := fun _ _ _ _ _ _ _ hu => by simpa using hu)
    ⟨rfl, rfl⟩ h

/-! ### The CSRs a mode may reach (R42, D18) -/

/-- In U a CSR reached is a read-only view: it is not written, and its read leaves the storage. -/
theorem csrCheck_user {a : CsrNum} {w : Bool} {s : State} {c : Csr} (hpriv : s.priv = .user)
    (h : csrCheck a w s = some c) : w = false ∧ (csrObserve c s).csr = s.csr := by
  obtain ⟨hat, hlevel, hwrite, -⟩ := csrCheck_some.mp h
  obtain rfl := address_of_csrAt hat
  rw [hpriv] at hlevel
  cases c with
  | ucycle | uinstret | ucycleh | uinstreth => exact ⟨(Bool.and_true w).symm.trans hwrite, rfl⟩
  | _ => exact absurd (by decide) hlevel

/-- In S a CSR reached is not of the machine's level. -/
theorem csrCheck_supervisor {a : CsrNum} {w : Bool} {s : State} {c : Csr}
    (hpriv : s.priv = .supervisor) (h : csrCheck a w s = some c) : c.address.toNat / 256 % 4 ≤ 1 := by
  obtain ⟨hat, hlevel, -⟩ := csrCheck_some.mp h
  obtain rfl := address_of_csrAt hat
  rw [hpriv, BitVec.lt_def, toNat_csrLevel] at hlevel
  exact Nat.le_of_not_lt hlevel

/-- `minstret` is reached from M alone. -/
theorem machine_of_csrCheck_minstret {w : Bool} {s : State} {c : Csr}
    (h : csrCheck 0xB02 w s = some c) : s.priv = .machine := by
  obtain ⟨-, hlevel, -⟩ := csrCheck_some.mp h
  cases hpriv : s.priv with
  | machine => rfl
  | user | supervisor => exact absurd (hpriv ▸ by decide) hlevel

/-! ### The state a fetch leaves -/

/-- All that a step can do when it answers a next state, with what its instruction did. -/
theorem step_outcome {s t : State} (h : step s = .next t) :
    (∃ e, fetch s = .error e ∧ t = trapEntry e s.pc s) ∨
    ∃ w u, fetch s = .ok (w, u) ∧
      ((∃ r, decode w = .error r ∧ t = trapEntry .illegalInstruction w u) ∨
        ∃ i, decode w = .ok i ∧ ExecOutcome i u t) := by
  obtain ⟨-, ⟨e, hf, -, ht⟩ | ⟨w, u, hf, ⟨r, hw, -, ht⟩ | ⟨i, hw, hi⟩⟩⟩ := step_cases h
  · exact .inl ⟨e, hf, ht⟩
  · exact .inr ⟨w, u, hf, .inl ⟨r, hw, ht⟩⟩
  · exact .inr ⟨w, u, hf, .inr ⟨i, hw, exec_outcome hi⟩⟩

/-- A step that ends below M took no trap of its own. -/
theorem step_outcome_below_machine {s t : State} (h : step s = .next t) (ht : t.priv ≠ .machine) :
    ∃ w u i, fetch s = .ok (w, u) ∧ decode w = .ok i ∧ ExecOutcome i u t := by
  obtain ⟨e, -, rfl⟩ | ⟨w, u, hf, ⟨r, -, rfl⟩ | ⟨i, hw, hout⟩⟩ := step_outcome h
  · exact absurd rfl ht
  · exact absurd rfl ht
  · exact ⟨w, u, i, hf, hw, hout⟩

/-! ### What an outcome does to the CSRs below M -/

section
variable {i : Instr} {s t : State}

theorem outcome_user (hout : ExecOutcome i s t) (hs : s.priv = .user) (ht : t.priv ≠ .machine) :
    t.csr = s.csr ∧ t.instret = s.instret + 1 := by
  cases hout with
  | trapped => exact absurd rfl ht
  | wrote => simp
  | stored => simp
  | flushed => exact ⟨rfl, rfl⟩
  | reached a rd w f c _ hcheck =>
    obtain ⟨rfl, hobserve⟩ := csrCheck_user hs hcheck
    rw [csrAfter_csr, csrAfter_instret]
    simpa using hobserve

/-- The CSR reached is of a lower level, so it is neither the one read nor one its read changes. -/
theorem outcome_supervisor {d : Csr} (hout : ExecOutcome i s t) (hs : s.priv = .supervisor)
    (ht : t.priv ≠ .machine) (hlevel : d.address.toNat / 256 % 4 = 3)
    (hd : d.isCounterView = false) : csrRead d t = csrRead d s := by
  cases hout with
  | trapped => exact absurd rfl ht
  | wrote => exact csrRead_congr d hd (by simp)
  | stored => exact csrRead_congr d hd (by simp)
  | flushed => exact csrRead_congr d hd rfl
  | reached a rd w f c _ hcheck =>
    have hne : d ≠ c := by
      rintro rfl
      have hle := csrCheck_supervisor hs hcheck
      omega
    rw [csrRead_csrAfter c rd w f s hd, if_neg fun ⟨_, heq, _⟩ => hne heq,
      csrRead_csrObserve_of_ne s hd hne]

/-! ### What an outcome does to memory and the stale set -/

/-- A byte that reads differently was stored, so it is stale and the instruction is a store. -/
theorem outcome_memory {b : Nat} (hout : ExecOutcome i s t)
    (hne : Memory.read t.mem b ≠ Memory.read s.mem b) :
    b ∈ t.stale ∧ i.mnemonic ∈ ["SB", "SH", "SW"] := by
  cases hout with
  | trapped => exact absurd rfl hne
  | wrote => exact absurd (by simp) hne
  | flushed => exact absurd rfl hne
  | reached => exact absurd (by simp) hne
  | stored a n v _ _ hname =>
    refine ⟨(mem_addStaleRange n s.stale a.toNat b).mpr (.inr ?_), hname⟩
    by_contra houtside
    refine hne (read_writeBytes_outside (bytesOf n v) s.mem a.toNat b ?_)
    rw [bytesOf_length]
    omega

/-- Only FENCEI takes an address out of the stale set. -/
theorem outcome_stale {b : Nat} (hout : ExecOutcome i s t) (hstale : b ∈ s.stale)
    (hfresh : b ∉ t.stale) : i = .fencei := by
  cases hout with
  | trapped => exact absurd hstale hfresh
  | wrote => exact absurd (by simpa using hstale) hfresh
  | stored a n v =>
    exact absurd ((mem_addStaleRange n s.stale a.toNat b).mpr (.inl hstale)) hfresh
  | flushed hfencei => exact hfencei
  | reached => exact absurd (by simpa using hstale) hfresh

end

end Sys2Proof.Machine

namespace Sys2Proof

open Sys2Proof.Machine

/-! ### The obligations on every step -/

/-- Settles O52: every operation a step is made of keeps the form. -/
theorem stepKeepsCanonicalForm : Obligations.StepKeepsCanonicalForm :=
  fun _ _ hs h => step_canonical hs h

/-- Settles O53: only trap entry writes the mode. -/
theorem noStepLowersTheMode : Obligations.NoStepLowersTheMode :=
  fun _ _ h => step_priv h

/-- Settles O59: `misa` has storage that no write reaches. -/
theorem stepKeepsMisaAndPlatform : Obligations.StepKeepsMisaAndPlatform :=
  fun _ _ h => step_misa_and_denied h

/-- Settles O54: a step that stays in U took no trap, and reaches only read-only views. -/
theorem userModeChangesNoCsr : Obligations.UserModeChangesNoCsr := by
  intro s t hs h ht
  have hbelow : t.priv ≠ .machine := by rw [ht]; decide
  obtain ⟨w, u, i, hf, -, hout⟩ := step_outcome_below_machine h hbelow
  obtain ⟨-, hpriv, hcsr, hinstret, -⟩ := fetch_frame hf
  rw [← hcsr, ← hinstret]
  exact outcome_user hout (hpriv.trans hs) hbelow

/-- Settles O55: a step that stays in S took no trap, and reaches no CSR of level 3. -/
theorem supervisorModeChangesNoMachineCsr : Obligations.SupervisorModeChangesNoMachineCsr := by
  intro s t hs h ht d hlevel hd
  have hbelow : t.priv ≠ .machine := by rw [ht]; decide
  obtain ⟨w, u, i, hf, -, hout⟩ := step_outcome_below_machine h hbelow
  obtain ⟨-, hpriv, hcsr, -⟩ := fetch_frame hf
  exact (outcome_supervisor hout (hpriv.trans hs) hbelow hlevel hd).trans (csrRead_congr d hd hcsr)

/-- Settles O56: a trap and a fetch leave memory, and of the instructions' outcomes only a store writes. -/
theorem memoryChangesOnlyByStoresAndIsStale : Obligations.MemoryChangesOnlyByStoresAndIsStale := by
  intro s t h a hne
  obtain ⟨e, -, rfl⟩ | ⟨w, u, hf, hrest⟩ := step_outcome h
  · exact absurd rfl hne
  · obtain ⟨-, -, -, -, hmem, -⟩ := fetch_frame hf
    rw [← hmem] at hne
    rcases hrest with ⟨r, -, rfl⟩ | ⟨i, hw, hout⟩
    · exact absurd rfl hne
    · obtain ⟨hstale, hname⟩ := outcome_memory hout hne
      exact ⟨hstale, w, u, i, hf, hw, hname⟩

/-- Settles O57: a trap and a fetch leave the stale set, and of the outcomes only FENCEI's shrinks it. -/
theorem onlyFenceiMakesStaleBytesFresh : Obligations.OnlyFenceiMakesStaleBytesFresh := by
  intro s t h a hstale hfresh
  obtain ⟨e, -, rfl⟩ | ⟨w, u, hf, hrest⟩ := step_outcome h
  · exact absurd hstale hfresh
  · obtain ⟨-, -, -, -, -, hsame⟩ := fetch_frame hf
    rw [← hsame] at hstale
    rcases hrest with ⟨r, -, rfl⟩ | ⟨i, hw, hout⟩
    · exact absurd hstale hfresh
    · exact ⟨w, u, hf, outcome_stale hout hstale hfresh ▸ hw⟩

/-- Settles O58: a fetch that failed and a word that is no instruction trap; a fetched instruction traps,
completes and counts itself, or writes `minstret`, which only M may reach. -/
theorem stepCompletesOrTrapsPrecisely : Obligations.StepCompletesOrTrapsPrecisely := by
  intro s t h
  obtain ⟨e, hf, rfl⟩ | ⟨w, u, hf, hrest⟩ := step_outcome h
  · exact .inr (.inr ⟨s, e, s.pc, .inl rfl, trapTaken_trapEntry e s.pc s, .inl ⟨hf, rfl⟩⟩)
  · obtain ⟨hpc, hpriv, -, hinstret, -⟩ := fetch_frame hf
    rcases hrest with ⟨r, hw, rfl⟩ | ⟨i, hw, hout⟩
    · exact .inr (.inr ⟨u, _, w, fetch_ok hf, trapTaken_trapEntry _ w u,
        .inr ⟨w, hf, .inl ⟨r, hw⟩⟩⟩)
    · cases hout with
      | trapped e info hraises =>
        exact .inr (.inr ⟨u, e, info, fetch_ok hf, trapTaken_trapEntry e info u,
          .inr ⟨w, hf, .inr ⟨i, hw, hraises⟩⟩⟩)
      | wrote rd v target hraises hminstret =>
        exact .inl ⟨w, u, i, hf, hw, hraises, hminstret, by simp [hinstret]⟩
      | stored a n v hraises hminstret =>
        exact .inl ⟨w, u, i, hf, hw, hraises, hminstret, by simp [hinstret]⟩
      | flushed hfencei =>
        subst hfencei
        exact .inl ⟨w, u, _, hf, hw, rfl, rfl, by simp [hinstret]⟩
      | reached a rd writes f c hraises hcheck hminstret =>
        have hcount := csrAfter_instret_of_check (rd := rd) (f := f) hcheck
        rw [← hinstret]
        by_cases hwrite : a = 0xB02 ∧ writes = true
        · rw [if_pos hwrite] at hminstret hcount
          obtain ⟨rfl, -⟩ := hwrite
          have hmachine := machine_of_csrCheck_minstret hcheck
          exact .inr (.inl ⟨w, u, i, _, hf, hw, hraises, hminstret, hpriv ▸ hmachine, hcount,
            hpc ▸ csrAfter_pc c rd writes f u⟩)
        · rw [if_neg hwrite] at hminstret hcount
          exact .inl ⟨w, u, i, hf, hw, hraises, hminstret, hcount⟩

end Sys2Proof
end

section
/-! PROOFS. Loads and stores of every width (44_memory_ops.md; 20_memory.md R86 to R89), reads after a
store, and the fetch of a stored word after FENCEI (46_sync.md R241). -/

namespace Sys2Proof.Machine

/-! ### Which addresses respond (R82) -/

/-- An access inside one that responds responds. -/
theorem responds_inside {s : State} {k : Access} {a n i m : Nat} (h : responds s k a n = true)
    (hle : i + m ≤ n) : responds s k (a + i) m = true := by
  simp only [responds, List.all_eq_true, List.mem_range] at h ⊢
  intro j hj
  rw [Nat.add_assoc]
  exact h (i + j) (by omega)

/-! ### Halfword and word loads (R215, R216, R218) -/

/-- The halfword survives the zero extension of the read. -/
theorem sext16_setWidth (v : BitVec 16) : sext16 (v.setWidth 32) = v.signExtend 32 := by
  simp [sext16]

theorem memRead_half {s : State} {a : Word} (ha : a.toNat % 2 = 0)
    (hr : responds s .load a.toNat 2 = true) :
    memRead s a 2 = .ok
      ((Memory.read s.mem (a.toNat + 1) ++ Memory.read s.mem a.toNat : BitVec 16).setWidth 32) := by
  rw [memRead_ok (aligned_iff.mpr ha) hr, readBytes_two, ofBytes_two]

theorem memRead_word {s : State} {a : Word} (ha : a.toNat % 4 = 0)
    (hr : responds s .load a.toNat 4 = true) :
    memRead s a 4 = .ok (Memory.read s.mem (a.toNat + 3) ++ Memory.read s.mem (a.toNat + 2)
      ++ Memory.read s.mem (a.toNat + 1) ++ Memory.read s.mem a.toNat) := by
  rw [memRead_ok (aligned_iff.mpr ha) hr, readBytes_four, ofBytes_four]

section
variable (rd rs1 : RegNum) (offset : BitVec 12) (s : State)

theorem exec_lh : exec (.lh rd rs1 offset) s = load 2 sext16 rd rs1 offset s := rfl

theorem exec_lhu : exec (.lhu rd rs1 offset) s = load 2 id rd rs1 offset s := rfl

theorem exec_lw : exec (.lw rd rs1 offset) s = load 4 id rd rs1 offset s := rfl

end

section
variable {n : Nat} {extend : Word → Word} {rd rs1 : RegNum} {offset : BitVec 12} {s : State}

theorem load_of_misaligned (ha : (effectiveAddress s rs1 offset).toNat % n ≠ 0) :
    load n extend rd rs1 offset s =
      raise .loadAddressMisaligned (effectiveAddress s rs1 offset) s :=
  load_of_memRead_error (memRead_misaligned (aligned_eq_false_iff.mpr ha))

theorem load_of_fault (ha : (effectiveAddress s rs1 offset).toNat % n = 0)
    (hr : responds s .load (effectiveAddress s rs1 offset).toNat n = false) :
    load n extend rd rs1 offset s = raise .loadAccessFault (effectiveAddress s rs1 offset) s :=
  load_of_memRead_error (memRead_fault (aligned_iff.mpr ha) hr)

end

/-! ### Stores (R212, R213, R219, R220) -/

/-- The bytes a store leaves at its address are those of the value, from the lowest up. -/
theorem read_storeBytes (s : State) (a v : Word) {n k : Nat} (hk : k < n) :
    Memory.read (s.storeBytes a n v).mem (a.toNat + k) = v.extractLsb' (8 * k) 8 := by
  have hinside : a.toNat ≤ a.toNat + k ∧ a.toNat + k < a.toNat + (bytesOf n v).length := by
    rw [bytesOf_length]
    omega
  rw [State.storeBytes_mem, read_writeBytes, dif_pos hinside, bytesOf_getElem, Nat.add_sub_cancel_left]

/-- The reasoning rule of every store. -/
theorem onlyStored_storeBytes_retire (s : State) (a v : Word) (n : Nat) :
    OnlyStored s ((s.storeBytes a n v).retire (s.pc + 4)) a n := by
  refine ⟨fun _ => rfl, rfl, fun b hb => ?_, fun b => mem_addStaleRange n s.stale a.toNat b,
    rfl, rfl, rfl, rfl, rfl⟩
  exact read_writeBytes_outside _ _ _ _ (by rwa [bytesOf_length])

section
variable {n : Nat} {rs1 rs2 : RegNum} {offset : BitVec 12} {s : State} {i : Instr}

theorem store_of_ok (ha : (effectiveAddress s rs1 offset).toNat % n = 0)
    (hr : responds s .store (effectiveAddress s rs1 offset).toNat n = true) :
    store n rs1 rs2 offset s = .next
      ((s.storeBytes (effectiveAddress s rs1 offset) n (s.getX rs2)).retire (s.pc + 4)) :=
  store_of_memWrite_ok (memWrite_ok _ (aligned_iff.mpr ha) hr)

theorem store_of_misaligned (ha : (effectiveAddress s rs1 offset).toNat % n ≠ 0) :
    store n rs1 rs2 offset s =
      raise .storeAddressMisaligned (effectiveAddress s rs1 offset) s :=
  store_of_memWrite_error (memWrite_misaligned _ (aligned_eq_false_iff.mpr ha))

theorem store_of_fault (ha : (effectiveAddress s rs1 offset).toNat % n = 0)
    (hr : responds s .store (effectiveAddress s rs1 offset).toNat n = false) :
    store n rs1 rs2 offset s = raise .storeAccessFault (effectiveAddress s rs1 offset) s :=
  store_of_memWrite_error (memWrite_fault _ (aligned_iff.mpr ha) hr)

/-- An instruction whose meaning is one store that is done leaves the bytes and nothing else. -/
theorem effect_of_store (hexec : exec i s = store n rs1 rs2 offset s)
    (ha : (effectiveAddress s rs1 offset).toNat % n = 0)
    (hr : responds s .store (effectiveAddress s rs1 offset).toNat n = true) :
    ∃ t, exec i s = .next t ∧ OnlyStored s t (effectiveAddress s rs1 offset) n ∧
      ∀ k < n, Memory.read t.mem ((effectiveAddress s rs1 offset).toNat + k) =
        (s.getX rs2).extractLsb' (8 * k) 8 :=
  ⟨_, hexec.trans (store_of_ok ha hr), onlyStored_storeBytes_retire _ _ _ _,
    fun _ hk => read_storeBytes s _ _ hk⟩

end

section
variable (rs1 rs2 : RegNum) (offset : BitVec 12) (s : State)

theorem exec_sb : exec (.sb rs1 rs2 offset) s = store 1 rs1 rs2 offset s := rfl

theorem exec_sh : exec (.sh rs1 rs2 offset) s = store 2 rs1 rs2 offset s := rfl

theorem exec_sw : exec (.sw rs1 rs2 offset) s = store 4 rs1 rs2 offset s := rfl

end

/-! ### Reads of every width after a word is stored (R86) -/

/-- Two bytes of a word are its halfword there. -/
theorem append_bytes (v : Word) (lo : Nat) :
    (v.extractLsb' (lo + 8) 8 ++ v.extractLsb' lo 8 : BitVec 16) = v.extractLsb' lo 16 := by
  apply BitVec.eq_of_getLsbD_eq; intro i hi
  simp only [BitVec.getLsbD_append, BitVec.getLsbD_extractLsb']
  by_cases hlow : i < 8
  · simp [hlow, hi]
  · have hplace : lo + 8 + (i - 8) = lo + i := by omega
    have hhigh : i - 8 < 8 := by omega
    simp [hlow, hplace, hhigh, hi]

/-- Inside an aligned word no address wraps. -/
theorem toNat_add_of_aligned {a : Word} {i : Nat} (ha : a.toNat % 4 = 0) (hi : i < 4) :
    (a + BitVec.ofNat 32 i).toNat = a.toNat + i := by
  have := a.isLt
  rw [BitVec.toNat_add, BitVec.toNat_ofNat]
  omega

section
variable {s : State} {a : Word} (v : Word) (ha : a.toNat % 4 = 0)
  (hr : responds s .load a.toNat 4 = true)
include ha hr

theorem memRead_word_storeBytes : memRead (s.storeBytes a 4 v) a 4 = .ok v := by
  have hbytes : Memory.readBytes (s.storeBytes a 4 v).mem a.toNat 4 = bytesOf 4 v :=
    readBytes_writeBytes (bytesOf 4 v) s.mem a.toNat
  have hresponds : responds (s.storeBytes a 4 v) .load a.toNat 4 = true := hr
  rw [memRead_ok (aligned_iff.mpr ha) hresponds, hbytes, ofBytes_bytesOf]

/-- The halfword at an even distance from the word stored. -/
theorem memRead_half_storeBytes {i : Nat} (hi : i = 0 ∨ i = 2) :
    memRead (s.storeBytes a 4 v) (a + BitVec.ofNat 32 i) 2 =
      .ok ((v.extractLsb' (8 * i) 16).setWidth 32) := by
  have hlt : i + 1 < 4 := by omega
  have haddr := toNat_add_of_aligned ha (i := i) (by omega)
  have heven : (a + BitVec.ofNat 32 i).toNat % 2 = 0 := by omega
  have hresponds : responds (s.storeBytes a 4 v) .load (a + BitVec.ofNat 32 i).toNat 2 = true :=
    haddr ▸ responds_inside hr (by omega)
  rw [memRead_half heven hresponds, haddr, Nat.add_assoc, read_storeBytes s a v hlt,
    read_storeBytes s a v (Nat.lt_of_succ_lt hlt), Nat.mul_add, append_bytes]

theorem memRead_byte_storeBytes {i : Nat} (hi : i < 4) :
    memRead (s.storeBytes a 4 v) (a + BitVec.ofNat 32 i) 1 =
      .ok ((v.extractLsb' (8 * i) 8).setWidth 32) := by
  have haddr := toNat_add_of_aligned ha hi
  have hresponds : responds (s.storeBytes a 4 v) .load (a + BitVec.ofNat 32 i).toNat 1 = true :=
    haddr ▸ responds_inside hr (by omega)
  rw [memRead_byte hresponds, haddr, read_storeBytes s a v hi]

end

/-! ### A stored word after FENCEI (R241) -/

theorem effectiveAddress_zero (s : State) (rs1 : RegNum) : effectiveAddress s rs1 0 = s.getX rs1 := by
  simp [effectiveAddress, immWord]

/-- JALR's clearing of bit 0 keeps an aligned target. -/
theorem and_not_one_of_aligned {a : Word} (h : a.toNat % 4 = 0) : a &&& ~~~ 1#32 = a := by
  have h0 := getLsbD_of_mod_two_pow (k := 2) h (i := 0) (by decide)
  apply BitVec.eq_of_getLsbD_eq; intro i hi
  rw [BitVec.getLsbD_and]
  interval_cases i <;> simp_all

theorem exec_jalr_zero_of_aligned {s : State} {rs1 : RegNum} (h : (s.getX rs1).toNat % 4 = 0) :
    exec (.jalr 0 rs1 0) s = .next (s.retire (s.getX rs1)) := by
  have htarget : (s.getX rs1 + (0 : BitVec 12).signExtend 32) &&& ~~~ 1#32 = s.getX rs1 := by
    simpa using and_not_one_of_aligned h
  rw [exec_jalr, htarget]
  rfl

end Sys2Proof.Machine

namespace Sys2Proof

open Sys2Proof.Machine

/-! ### The obligations on loads and stores -/

/-- Settles O22: the alignment is looked at first, then whether the address responds. -/
theorem halfwordLoadsExtendTheHalfword : Obligations.HalfwordLoadsExtendTheHalfword := by
  refine ⟨readsAs_of_funct3 (by decide) (by decide) decode_lh,
    readsAs_of_funct3 (by decide) (by decide) decode_lhu, fun rd rs1 offset s =>
      ⟨fun ha hr => ⟨?_, ?_⟩, fun ha => ⟨?_, ?_⟩, fun ha hr => ⟨?_, ?_⟩⟩⟩
  · refine effect_of_writeResult ?_
    rw [exec_lh, load_of_memRead_ok (memRead_half ha hr), sext16_setWidth]
  · refine effect_of_writeResult ?_
    rw [exec_lhu, load_of_memRead_ok (memRead_half ha hr), id_eq]
  · exact load_of_misaligned ha
  · exact load_of_misaligned ha
  · exact load_of_fault ha hr
  · exact load_of_fault ha hr

/-- Settles O23: the same cases for a word. -/
theorem wordLoadsReadFourBytes : Obligations.WordLoadsReadFourBytes := by
  refine ⟨readsAs_of_funct3 (by decide) (by decide) decode_lw, fun rd rs1 offset s =>
    ⟨fun ha hr => ?_, fun ha => load_of_misaligned ha, fun ha hr => load_of_fault ha hr⟩⟩
  refine effect_of_writeResult ?_
  rw [exec_lw, load_of_memRead_ok (memRead_word ha hr), id_eq]

/-- Settles O24: a byte is always aligned. -/
theorem sbStoresOneByte : Obligations.SbStoresOneByte := by
  refine ⟨readsAs_of_funct3 (by decide) (by decide) decode_sb, fun rs1 rs2 offset s =>
    ⟨fun hr => ?_, fun hr => store_of_fault (Nat.mod_one _) hr⟩⟩
  obtain ⟨t, ht, honly, hbytes⟩ := effect_of_store (exec_sb rs1 rs2 offset s) (Nat.mod_one _) hr
  exact ⟨t, ht, honly, hbytes 0 (by decide)⟩

/-- Settles O25: two bytes are stored, or the alignment, or else the platform, raises. -/
theorem shStoresTwoBytes : Obligations.ShStoresTwoBytes := by
  refine ⟨readsAs_of_funct3 (by decide) (by decide) decode_sh, fun rs1 rs2 offset s =>
    ⟨fun ha hr => ?_, fun ha => store_of_misaligned ha, fun ha hr => store_of_fault ha hr⟩⟩
  obtain ⟨t, ht, honly, hbytes⟩ := effect_of_store (exec_sh rs1 rs2 offset s) ha hr
  exact ⟨t, ht, honly, hbytes 0 (by decide), hbytes 1 (by decide)⟩

/-- Settles O26: four bytes are stored, or the alignment, or else the platform, raises. -/
theorem swStoresFourBytes : Obligations.SwStoresFourBytes := by
  refine ⟨readsAs_of_funct3 (by decide) (by decide) decode_sw, fun rs1 rs2 offset s =>
    ⟨fun ha hr => ?_, fun ha => store_of_misaligned ha, fun ha hr => store_of_fault ha hr⟩⟩
  obtain ⟨t, ht, honly, hbytes⟩ := effect_of_store (exec_sw rs1 rs2 offset s) ha hr
  exact ⟨t, ht, honly, hbytes 0 (by decide), hbytes 1 (by decide), hbytes 2 (by decide),
    hbytes 3 (by decide)⟩

/-- Settles O27: each narrower read lies inside the word stored, so it responds and does not wrap. -/
theorem loadsOfEveryWidthSeeTheStoredWord : Obligations.LoadsOfEveryWidthSeeTheStoredWord := by
  intro s a v ha hr
  have hlow := memRead_half_storeBytes v ha hr (.inl rfl)
  rw [BitVec.add_zero] at hlow
  exact ⟨memRead_word_storeBytes v ha hr, hlow, memRead_half_storeBytes v ha hr (.inr rfl),
    fun _ hi => memRead_byte_storeBytes v ha hr hi⟩

/-- Settles O30: with the stale set empty, the fetch reads the bytes the store left. -/
theorem fenceiMakesStoredWordFetchable : Obligations.FenceiMakesStoredWordFetchable := by
  intro s rs1 rs2 ha hstore hfetch
  have hsw := store_of_ok (n := 4) (rs2 := rs2) (offset := 0)
    ((effectiveAddress_zero s rs1).symm ▸ ha) ((effectiveAddress_zero s rs1).symm ▸ hstore)
  rw [effectiveAddress_zero] at hsw
  refine ⟨_, _, _, hsw, exec_fencei _, exec_jalr_zero_of_aligned ha, rfl, ?_⟩
  refine (fetch_fresh (aligned_iff.mpr ha) hfetch rfl).trans ?_
  have hbytes : Memory.readBytes (Memory.writeBytes s.mem (s.getX rs1).toNat (bytesOf 4 (s.getX rs2)))
      (s.getX rs1).toNat 4 = bytesOf 4 (s.getX rs2) :=
    readBytes_writeBytes (bytesOf 4 (s.getX rs2)) s.mem _
  have hword := congrArg ofBytes hbytes
  rw [ofBytes_bytesOf] at hword
  exact congrArg (fun w => Except.ok (w, _)) hword

end Sys2Proof
end

section
/-! PROOFS. The customary expansions of LI, LA and CALL (30_encoding.md R142; D30): the upper and the lower
part of a constant, two instructions that write one register, and the obligation. -/

namespace Sys2Proof

open Sys2Proof.Machine

/-! ### The two parts of a constant (R142) -/

theorem toNat_append_zero (h : BitVec 20) : (h ++ 0#12 : Word).toNat = h.toNat * 2 ^ 12 := by
  rw [BitVec.toNat_append, BitVec.toNat_ofNat, Nat.zero_mod, Nat.or_zero, Nat.shiftLeft_eq]

theorem toNat_hiPart (v : Word) : (hiPart v).toNat = (v.toNat + 0x800) % 2 ^ 32 / 2 ^ 12 := by
  have hlt : (v.toNat + 0x800) % 2 ^ 32 / 2 ^ 12 < 2 ^ 20 := by omega
  rw [hiPart, BitVec.extractLsb'_toNat, BitVec.toNat_add, Nat.shiftRight_eq_div_pow]
  exact Nat.mod_eq_of_lt hlt

theorem toInt_loPart (v : Word) : (loPart v).toInt =
    if v.toNat % 2 ^ 12 < 2 ^ 11 then ((v.toNat % 2 ^ 12 : Nat) : Int)
    else ((v.toNat % 2 ^ 12 : Nat) : Int) - 2 ^ 12 := by
  have hnat : (loPart v).toNat = v.toNat % 2 ^ 12 := by simp [loPart]
  rw [BitVec.toInt_eq_toNat_cond, hnat]
  split_ifs <;> omega

/-- The rounding of the upper part undoes the sign extension of the lower one. -/
theorem hiPart_add_loPart (v : Word) :
    (hiPart v ++ 0#12 : Word) + (loPart v).signExtend 32 = v := by
  have hsigned : ((loPart v).signExtend 32).toInt = (loPart v).toInt := toInt_immWord (loPart v)
  rw [← BitVec.ofInt_toInt (x := (loPart v).signExtend 32), hsigned]
  apply BitVec.eq_of_toNat_eq
  rw [BitVec.toNat_add, toNat_append_zero, toNat_hiPart, BitVec.toNat_ofInt, toInt_loPart]
  have := v.isLt
  split_ifs <;> omega

/-- A constant of the ADDI range is its lower part alone. -/
theorem signExtend_loPart_of_small {v : Word} (hlow : -2048 ≤ v.toInt) (hhigh : v.toInt ≤ 2047) :
    (loPart v).signExtend 32 = v := by
  apply BitVec.eq_of_toInt_eq
  rw [show ((loPart v).signExtend 32).toInt = (loPart v).toInt from toInt_immWord (loPart v),
    toInt_loPart]
  rw [BitVec.toInt_eq_toNat_cond] at hlow hhigh ⊢
  have := v.isLt
  split_ifs at * <;> omega

end Sys2Proof

namespace Sys2Proof.Machine

/-! ### One register written twice -/

section
variable {s t u : State} {rd : RegNum} {a b p q : Word} {i : Instr}

theorem onlyRegWritten_trans (h1 : OnlyRegWritten s t rd a p) (h2 : OnlyRegWritten t u rd b q) :
    OnlyRegWritten s u rd b q := by
  obtain ⟨hreg1, -, hmem1, hstale1, hcsr1, hcycle1, hpriv1, hdenied1, hdraws1⟩ := h1
  obtain ⟨hreg2, hpc2, hmem2, hstale2, hcsr2, hcycle2, hpriv2, hdenied2, hdraws2⟩ := h2
  refine ⟨fun r => ?_, hpc2, fun c => (hmem2 c).trans (hmem1 c), hstale2.trans hstale1,
    hcsr2.trans hcsr1, hcycle2.trans hcycle1, hpriv2.trans hpriv1, hdenied2.trans hdenied1,
    hdraws2.trans hdraws1⟩
  rw [hreg2 r, hreg1 r]
  split_ifs <;> rfl

/-- What is written to x0 does not matter (R21). -/
theorem onlyRegWritten_congr (hv : rd ≠ 0#5 → a = b) (h : OnlyRegWritten s t rd a p) :
    OnlyRegWritten s t rd b p := by
  obtain ⟨hreg, hrest⟩ := h
  refine ⟨fun r => (hreg r).trans ?_, hrest⟩
  by_cases hr : r = 0#5
  · simp [hr]
  · by_cases hrd : r = rd
    · subst hrd
      simp [hv hr]
    · simp [hrd]

theorem getX_of_onlyRegWritten (h : OnlyRegWritten s t rd a p) (hrd : rd ≠ 0#5) : t.getX rd = a := by
  obtain ⟨hreg, -⟩ := h
  rw [hreg rd, if_neg hrd, if_pos rfl]

/-- The second of two sequential instructions ends 8 past the first. -/
theorem pc_add_four_of_onlyRegWritten (h : OnlyRegWritten s t rd a (s.pc + 4)) :
    t.pc + 4 = s.pc + 8 := by
  obtain ⟨-, hpc, -⟩ := h
  rw [hpc, BitVec.add_assoc]
  rfl

theorem execAll_cons_of_next (rest : List Instr) (h : exec i s = .next t) :
    execAll (i :: rest) s = execAll rest t := by
  simp only [execAll, h]

theorem execAll_singleton_of_next (h : exec i s = .next t) : execAll [i] s = .next t :=
  execAll_cons_of_next [] h

/-- An upper immediate written to `rd` and ADDI on it, also for x0. -/
theorem execAll_addi_after (imm : BitVec 12) (hi : exec i s = writeResult rd a s) :
    ∃ u, execAll [i, .addi rd rd imm] s = .next u ∧
      OnlyRegWritten s u rd (a + imm.signExtend 32) (s.pc + 8) := by
  obtain ⟨t, ht, hwritten⟩ := effect_of_writeResult hi
  obtain ⟨u, hu, hwritten'⟩ := effect_of_writeResult (exec_addi rd rd imm t)
  rw [pc_add_four_of_onlyRegWritten hwritten] at hwritten'
  refine ⟨u, (execAll_cons_of_next _ ht).trans (execAll_singleton_of_next hu),
    onlyRegWritten_trans hwritten (onlyRegWritten_congr (fun hrd => ?_) hwritten')⟩
  rw [getX_of_onlyRegWritten hwritten hrd]

end

end Sys2Proof.Machine

namespace Sys2Proof

open Sys2Proof.Machine

/-! ### Each expansion (R142) -/

/-- LI leaves the constant, by one or by two instructions. -/
theorem execAll_pseudoLi (rd : RegNum) (v : Word) (s : State) :
    ∃ t, execAll (pseudoLi rd v) s = .next t ∧
      OnlyRegWritten s t rd v (s.pc + 4 * BitVec.ofNat 32 (pseudoLi rd v).length) := by
  unfold pseudoLi
  split_ifs with hsmall hzero
  · obtain ⟨hlow, hhigh⟩ := hsmall
    obtain ⟨t, ht, hwritten⟩ := effect_of_writeResult (exec_addi rd 0 (loPart v) s)
    have hvalue : s.getX 0 + (loPart v).signExtend 32 = v :=
      (BitVec.zero_add _).trans (signExtend_loPart_of_small hlow hhigh)
    exact ⟨t, execAll_singleton_of_next ht, hvalue ▸ hwritten⟩
  · obtain ⟨t, ht, hwritten⟩ := effect_of_writeResult (exec_lui rd (hiPart v) s)
    have hvalue : (hiPart v ++ 0#12 : Word) = v := by
      simpa [hzero] using hiPart_add_loPart v
    exact ⟨t, execAll_singleton_of_next ht, hvalue ▸ hwritten⟩
  · obtain ⟨t, ht, hwritten⟩ := execAll_addi_after (loPart v) (exec_lui rd (hiPart v) s)
    rw [hiPart_add_loPart] at hwritten
    exact ⟨t, ht, hwritten⟩

/-- LA leaves the label's address. -/
theorem execAll_pseudoLa (rd : RegNum) (delta : Word) (s : State) :
    ∃ t, execAll (pseudoLa rd delta) s = .next t ∧
      OnlyRegWritten s t rd (s.pc + delta) (s.pc + 8) := by
  have hla := execAll_addi_after (loPart delta) (exec_auipc rd (hiPart delta) s)
  rwa [BitVec.add_assoc, hiPart_add_loPart] at hla

/-- CALL links the address after it and jumps to the label. -/
theorem execAll_pseudoCall (delta : Word) (s : State) :
    ∃ t, execAll (pseudoCall delta) s = .next t ∧
      OnlyRegWritten s t 1#5 (s.pc + 8) ((s.pc + delta) &&& ~~~ 1#32) := by
  obtain ⟨t, ht, hwritten⟩ := effect_of_writeResult (exec_auipc 1#5 (hiPart delta) s)
  obtain ⟨u, hu, hwritten'⟩ := effect_of_jump (exec_jalr 1#5 1#5 (loPart delta) t)
  rw [getX_of_onlyRegWritten hwritten (by decide), BitVec.add_assoc, hiPart_add_loPart,
    pc_add_four_of_onlyRegWritten hwritten] at hwritten'
  exact ⟨u, (execAll_cons_of_next _ ht).trans (execAll_singleton_of_next hu),
    onlyRegWritten_trans hwritten hwritten'⟩

/-- Settles O60: each expansion writes one register and nothing else. -/
theorem pseudoExpansionsDoWhatTheySay : Obligations.PseudoExpansionsDoWhatTheySay := by
  intro rd v s
  obtain ⟨t, hli, hliReg, hliPc, hliMem, -, hliSystem⟩ := execAll_pseudoLi rd v s
  obtain ⟨u, hla, hlaReg, hlaPc, hlaMem, -, hlaSystem⟩ := execAll_pseudoLa rd v s
  obtain ⟨w, hcall, hcallReg, hcallPc, hcallMem, -, hcallSystem⟩ := execAll_pseudoCall v s
  exact ⟨⟨t, hli, hliReg, hliMem, hliSystem, hliPc⟩, ⟨u, hla, hlaReg, hlaMem, hlaSystem, hlaPc⟩,
    ⟨w, hcall, hcallReg, hcallMem, hcallSystem, hcallPc⟩⟩

end Sys2Proof
end
